-- ==== Sys2Proof/Word.lean ====
section
/-! DEFINITION. The word types of DARC-FSC (30_encoding.md R71, 10_state.md R29, 00_scope.md R12). -/

namespace Sys2Proof

/-- A command word, 32 bits, bit 0 the least significant (30_encoding.md R71). -/
abbrev Word := BitVec 32

/-- The value of a register (10_state.md R29) and an argument of an EVENT item (44_service_output.md R195). -/
abbrev Reg16 := BitVec 16

/-- A register address (10_state.md R29, 20_memory.md R52). -/
abbrev Addr := BitVec 8

/-- A bit sequence in reception order, element 0 the bit received first (00_scope.md R12). -/
abbrev BitSeq := List Bool

end Sys2Proof
end

