-- ==== Sys2Proof/Config.lean ====
section
/-! DEFINITION. What an implementation fixes: the parameter record `Cfg` (00_scope.md R8), the two profiles the spec
gives (R10, R11), the profile of the device of `State.reset`, and the one free value of the model. The check `wf(Cfg)`
of R9 is in Machine/CfgWf.lean. -/

namespace Sys2Proof

/-- The role a BIC table entry carries (00_scope.md R8: one of FIRST, CONT, LAST). -/
inductive BicRole where
  | first
  | cont
  | last
  deriving DecidableEq, Repr

/-- One entry `(value, role)` of `BIC_TAB` (00_scope.md R8). -/
structure BicEntry where
  value : Nat
  role : BicRole
  deriving DecidableEq, Repr

/-- The build-time parameters (00_scope.md R8). Every field is a natural number or a finite list. -/
structure Cfg where
  /-- `W_BIC`, width of the Block Identification Code field. -/
  wBic : Nat
  /-- `W_INFO`, width of the information field. -/
  wInfo : Nat
  /-- `W_CRC`, width of the checksum field; 0 means there is none. -/
  wCrc : Nat
  /-- `W_PAR`, width of the parity field. -/
  wPar : Nat
  /-- `BIC_TAB`. -/
  bicTab : List BicEntry
  /-- `BIC_TOL`, greatest Hamming distance of a match. -/
  bicTol : Nat
  /-- `FEC_G`, generator polynomial, bit `i` the coefficient of `x^i`. -/
  fecG : Nat
  /-- `FEC_T`, correction radius. -/
  fecT : Nat
  /-- `CRC_P`, checksum polynomial; not read when `W_CRC = 0`. -/
  crcP : Nat
  /-- `SI_OFF`, from the first received bit of the information field. -/
  siOff : Nat
  /-- `W_SI`. -/
  wSi : Nat
  /-- `GSEQ_OFF`. -/
  gseqOff : Nat
  /-- `W_GSEQ`. -/
  wGseq : Nat
  /-- `POS_OFF`. -/
  posOff : Nat
  /-- `W_POS`. -/
  wPos : Nat
  /-- `NACC`, number of accumulator slots. -/
  nAcc : Nat
  deriving DecidableEq, Repr

/-- `L`, the block length (00_scope.md R8, derived). -/
def Cfg.blockLen (c : Cfg) : Nat := c.wBic + c.wInfo + c.wCrc + c.wPar

/-- `K`, the FEC message length (00_scope.md R8, derived). -/
def Cfg.msgLen (c : Cfg) : Nat := c.wInfo + c.wCrc

/-- `NC`, the FEC codeword length (00_scope.md R8, derived). -/
def Cfg.codeLen (c : Cfg) : Nat := c.msgLen + c.wPar

/-- `NAM = ceil(2^W_SI / 16)`, the number of `ALLOW_MASK` registers (10_state.md R29). -/
def Cfg.numAllow (c : Cfg) : Nat := (2 ^ c.wSi + 15) / 16

/-- Profile TOY (00_scope.md R10). -/
def Config.toy : Cfg :=
  { wBic := 8, wInfo := 16, wCrc := 4, wPar := 5
    bicTab := [⟨0x5A, .first⟩, ⟨0x45, .cont⟩, ⟨0xB9, .last⟩]
    bicTol := 0, fecG := 0x25, fecT := 1, crcP := 0x13
    siOff := 0, wSi := 4, gseqOff := 4, wGseq := 4, posOff := 8, wPos := 4, nAcc := 2 }

/-- Profile DARC (00_scope.md R11). The values are the spec's, which marks them
"[from general knowledge, not in source]" (93_implementation_defined.md G1 to G5). -/
def Config.darc : Cfg :=
  { wBic := 16, wInfo := 176, wCrc := 14, wPar := 82
    bicTab := [⟨0x135E, .first⟩, ⟨0x74A6, .cont⟩, ⟨0xA791, .last⟩]
    bicTol := 0, fecG := 0x4308C0111011401440411, fecT := 1, crcP := 0x4805
    siOff := 0, wSi := 4, gseqOff := 8, wGseq := 14, posOff := 22, wPos := 10, nAcc := 4 }

/-- The profile of the device whose reset state is `State.reset`. DESIGN CHOICE (log 1): TOY, the profile whose
encodings spec/opcode_table.json gives and in which every vector of 95_test_vectors.md is written. Unsafe if read as
the DARC profile; no statement about a step rests on it, since every state carries its own `Cfg`. -/
def Config.device : Cfg := Config.toy

/-- FREE VALUE (log 4): the 16-bit event argument for a count `n` that needs more than 16 bits. 44_service_output.md
R195 gives the argument 16 bits and R196 gives it the count; no rule says what is output when the count does not fit. -/
opaque Config.wideArg : Nat → Reg16

end Sys2Proof
end

