-- ==== Sys2Proof/Syntax.lean ====
section
/-! DEFINITION. The instructions of DARC-FSC: the eight command words (30_encoding.md R76) and the four block roles
(R81), one constructor per row of spec/opcode_table.json. -/

namespace Sys2Proof

/-- The four consecutive fields of a block, as received (30_encoding.md R80). -/
structure BlockFields where
  /-- `BIC`, `W_BIC` bits. -/
  bic : BitSeq
  /-- `INFO`, `W_INFO` bits. -/
  info : BitSeq
  /-- `CRC`, `W_CRC` bits. -/
  crc : BitSeq
  /-- `PAR`, `W_PAR` bits. -/
  par : BitSeq
  deriving DecidableEq, Repr

/-- The role of a block (30_encoding.md R81): the role of the table entry its BIC matches, or NONE. -/
inductive Role where
  | none
  | first
  | cont
  | last
  deriving DecidableEq, Repr

/-- Role codes (30_encoding.md R81): NONE 0, FIRST 1, CONT 2, LAST 3. -/
def Role.code : Role → Nat
  | .none => 0
  | .first => 1
  | .cont => 2
  | .last => 3

/-- The role a table entry gives to the block that matches it. -/
def BicRole.toRole : BicRole → Role
  | .first => .first
  | .cont => .cont
  | .last => .last

/-- The instructions. A block instruction's operands are the block's fields as received: si, gseq and pos are read
only after correction (30_encoding.md R82), so they are no operands of the encoding. -/
inductive Instr where
  /-- NOP (40_commands.md R101). -/
  | nop
  /-- BIT b (R102). -/
  | bit (b : Bool)
  /-- EOS (R105). -/
  | eos
  /-- STOP (R106). -/
  | stop
  /-- RESET (R107). -/
  | reset
  /-- START (R103). -/
  | start
  /-- CFGWR addr, data (R104). -/
  | cfgwr (addr : Addr) (data : Reg16)
  /-- RDREG addr (R108). -/
  | rdreg (addr : Addr)
  /-- A block with role FIRST (43_group_assembler.md R162). -/
  | blkFirst (f : BlockFields)
  /-- A block with role CONT (R163). -/
  | blkCont (f : BlockFields)
  /-- A block with role LAST (R164, R165). -/
  | blkLast (f : BlockFields)
  /-- A block with role NONE, sync-suspect (R166). -/
  | blkNone (f : BlockFields)
  deriving DecidableEq, Repr

end Sys2Proof
end

