-- ==== Sys2Proof/Machine/Bits.lean ====
section
/-! DEFINITION. Bit sequences, words and polynomials over GF(2) (00_scope.md R12 to R14), and the byte forms of the
host side (20_memory.md R57). -/

namespace Sys2Proof.Machine

/-- `val(s)`: the number whose most significant bit is `s[0]` (00_scope.md R12). -/
def val (s : BitSeq) : Nat := s.foldl (fun acc b => 2 * acc + b.toNat) 0

/-- `seq_n(w)`: the `n`-element sequence whose value is `w` (00_scope.md R12). -/
def seq : Nat → Nat → BitSeq
  | 0, _ => []
  | n + 1, w => w.testBit n :: seq n w

/-- `s[a..a+w)` (00_scope.md R12). -/
def slice (s : BitSeq) (a w : Nat) : BitSeq := (s.drop a).take w

/-- `s ⊕ t`, element by element. -/
def xorSeq (s t : BitSeq) : BitSeq := List.zipWith xor s t

/-- `wt(e)`: the number of 1 bits of a sequence (00_scope.md R13). -/
def wt (e : BitSeq) : Nat := e.count true

/-- The number of 1 bits among the low `n` bits of a word (00_scope.md R13). -/
def popcount : Nat → Nat → Nat
  | 0, _ => 0
  | n + 1, w => popcount n w + (w.testBit n).toNat

/-- `ham(a, b)` for words of width `n` (00_scope.md R13). -/
def ham (n a b : Nat) : Nat := popcount n (a ^^^ b)

/-- `deg(p)`, the index of the highest set bit, for `p ≠ 0` (00_scope.md R14). -/
def deg (p : Nat) : Nat := Nat.log2 p

/-- The loop of `pmod` (00_scope.md R14), at most `fuel` times round. -/
def pmodLoop (g : Nat) : Nat → Nat → Nat
  | 0, a => a
  | fuel + 1, a =>
    if a ≠ 0 ∧ deg g ≤ deg a then pmodLoop g fuel (a ^^^ (g <<< (deg a - deg g))) else a

/-- `pmod(a, g)`, the remainder over GF(2) (00_scope.md R14). Each turn of the loop lowers the degree, so
`deg(a) + 1` turns are enough. -/
def pmod (a g : Nat) : Nat := pmodLoop g (deg a + 1) a

/-- `poly(s)`: the first received bit is the coefficient of the highest power (00_scope.md R14). -/
def poly (s : BitSeq) : Nat := val s

/-- The error patterns of `n` bits and weight `t` (00_scope.md R9 item 4). -/
def patternsOfWeight : Nat → Nat → List BitSeq
  | 0, 0 => [[]]
  | 0, _ + 1 => []
  | n + 1, 0 => (patternsOfWeight n 0).map (false :: ·)
  | n + 1, t + 1 => (patternsOfWeight n (t + 1)).map (false :: ·) ++ (patternsOfWeight n t).map (true :: ·)

/-- The set `E` of 00_scope.md R9 item 4: the `n`-bit patterns of weight 1 to `t`. -/
def errorPatterns (n : Nat) : Nat → List BitSeq
  | 0 => []
  | t + 1 => errorPatterns n t ++ patternsOfWeight n (t + 1)

/-- The stream bits a byte supplies, bit 7 first (20_memory.md R57). -/
def byteBits (v : BitVec 8) : BitSeq := seq 8 v.toNat

/-- The stream bits a list of bytes supplies (20_memory.md R57). -/
def bytesBits (bs : List (BitVec 8)) : BitSeq := bs.flatMap byteBits

/-- Bits packed into `n` bytes, first bit in bit 7 of byte 0, zeros after the last bit (20_memory.md R57). -/
def packBytes : Nat → BitSeq → List (BitVec 8)
  | 0, _ => []
  | n + 1, s => BitVec.ofNat 8 (val (s.take 8) * 2 ^ (8 - (s.take 8).length)) :: packBytes n (s.drop 8)

/-- The payload bytes of a RECORD (44_service_output.md R192, 20_memory.md R57). -/
def payloadBytes (s : BitSeq) : List (BitVec 8) := packBytes ((s.length + 7) / 8) s

end Sys2Proof.Machine
end

