-- ==== Sys2Proof/Machine/CfgWf.lean ====
section
/-! DEFINITION. `wf(Cfg)` (00_scope.md R9), the check START makes, item by item, and the syndrome it needs. -/

namespace Sys2Proof.Machine

/-- `syn(v) = pmod(poly(v), FEC_G)` (42_block_decoder.md R142). -/
def syn (c : Cfg) (v : BitSeq) : Nat := pmod (poly v) c.fecG

/-- Item 1: the ranges of the table of 00_scope.md R8. -/
def cfgRangesOk (c : Cfg) : Bool :=
  decide (1 ≤ c.wBic) && decide (1 ≤ c.wInfo) && decide (1 ≤ c.wPar) && decide (c.blockLen ≤ 65535) &&
  decide (1 ≤ c.bicTab.length) && decide (2 * c.bicTol < c.wBic) &&
  decide (1 ≤ c.wSi) && decide (c.wSi ≤ 11) && decide (1 ≤ c.wGseq) && decide (c.wGseq ≤ 16) &&
  decide (1 ≤ c.wPos) && decide (c.wPos ≤ 16) && decide (1 ≤ c.nAcc) && decide (c.nAcc ≤ 65535)

/-- Item 2: table values fit in `W_BIC` bits and are pairwise more than `2·BIC_TOL` apart. -/
def cfgBicTabOk (c : Cfg) : Bool :=
  c.bicTab.all (fun e => decide (e.value < 2 ^ c.wBic)) &&
  decide (c.bicTab.Pairwise fun e f => 2 * c.bicTol + 1 ≤ ham c.wBic e.value f.value)

/-- Item 3: `FEC_G` has degree `W_PAR` and a constant term. -/
def cfgFecGenOk (c : Cfg) : Bool :=
  decide (c.fecG < 2 ^ (c.wPar + 1)) && c.fecG.testBit c.wPar && c.fecG.testBit 0

/-- Item 4: the syndromes of the error patterns of weight 1 to `FEC_T` are distinct and not 0. -/
def cfgFecRadiusOk (c : Cfg) : Bool :=
  let syndromes := (errorPatterns c.codeLen c.fecT).map (syn c)
  decide (0 ∉ syndromes) && decide syndromes.Nodup

/-- Item 5: where there is a checksum field, `CRC_P` has degree `W_CRC` and a constant term. -/
def cfgCrcOk (c : Cfg) : Bool :=
  c.wCrc == 0 || (decide (c.crcP < 2 ^ (c.wCrc + 1)) && c.crcP.testBit c.wCrc && c.crcP.testBit 0)

/-- The intervals `[a, a+v)` and `[b, b+w)` have no element in common. -/
def disjointIntervals (a v b w : Nat) : Bool := decide (a + v ≤ b) || decide (b + w ≤ a)

/-- Item 6: the header fields lie inside the information field and are pairwise disjoint. (Item 1 makes none empty.) -/
def cfgHeaderOk (c : Cfg) : Bool :=
  decide (c.siOff + c.wSi ≤ c.wInfo) && decide (c.gseqOff + c.wGseq ≤ c.wInfo) &&
  decide (c.posOff + c.wPos ≤ c.wInfo) &&
  disjointIntervals c.siOff c.wSi c.gseqOff c.wGseq && disjointIntervals c.siOff c.wSi c.posOff c.wPos &&
  disjointIntervals c.gseqOff c.wGseq c.posOff c.wPos

/-- `wf(Cfg)` (00_scope.md R9). -/
def cfgWf (c : Cfg) : Bool :=
  cfgRangesOk c && cfgBicTabOk c && cfgFecGenOk c && cfgFecRadiusOk c && cfgCrcOk c && cfgHeaderOk c

end Sys2Proof.Machine
end

