-- ==== Sys2Proof/Machine/Flags.lean ====
section
/-! DEFINITION. Every flag computation of 10_state.md R28: the FEC outcome (42_block_decoder.md R142 to R145), the
checksum (R146), validity (R147), and the flags a group carries (43_group_assembler.md R172). -/

namespace Sys2Proof.Machine

/-- `fec` (42_block_decoder.md R144). -/
inductive FecOutcome where
  | none
  | corrected
  | uncorrectable
  deriving DecidableEq, Repr

/-- The codes of `fec` (30_encoding.md R87). -/
def FecOutcome.code : FecOutcome → Nat
  | .none => 0
  | .corrected => 1
  | .uncorrectable => 2

/-- `CORR(s)`: the error pattern of weight 1 to `FEC_T` whose syndrome is `s`, if there is one (42_block_decoder.md R143). -/
def corr (c : Cfg) (s : Nat) : Option BitSeq :=
  (errorPatterns c.codeLen c.fecT).find? fun e => syn c e == s

/-- What step 2 of the decoder gives: the outcome, `r'` and `nflips` (42_block_decoder.md R144). -/
structure FecResult where
  outcome : FecOutcome
  word : BitSeq
  nflips : Nat
  deriving DecidableEq, Repr

/-- The FEC step on the received word `r` (42_block_decoder.md R144, R145). -/
def fecDecode (c : Cfg) (r : BitSeq) : FecResult :=
  if syn c r = 0 then ⟨.none, r, 0⟩
  else
    match corr c (syn c r) with
    | some e => ⟨.corrected, xorSeq r e, wt e⟩
    | none => ⟨.uncorrectable, r, 0⟩

/-- `crc_ok`, from `r'` alone (42_block_decoder.md R146). -/
def crcOk (c : Cfg) (r' : BitSeq) : Bool :=
  c.wCrc == 0 || pmod (poly (slice r' 0 c.msgLen)) c.crcP == 0

/-- `valid` (42_block_decoder.md R147). -/
def blockValid (fec : FecOutcome) (crc : Bool) : Bool := fec != .uncorrectable && crc

/-- The `degraded` flag after a block is taken (43_group_assembler.md R172). -/
def degradedAfter (before valid : Bool) : Bool := before || !valid

/-- The `corrected` flag after a block is taken (43_group_assembler.md R172). -/
def correctedAfter (before : Bool) (fec : FecOutcome) : Bool := before || fec == .corrected

end Sys2Proof.Machine
end

