-- ==== Sys2Proof/Machine/Operands.lean ====
section
/-! DEFINITION. Operand forms: the fields of a block (30_encoding.md R80), the BIC match that gives its role (R81,
41_frame_sync.md R122), the header fields (R82), and the register address map (10_state.md R29). -/

namespace Sys2Proof.Machine

/-- The split of `L` stream bits into the fields BIC, INFO, CRC, PAR (30_encoding.md R80). -/
def splitBlock (c : Cfg) (bits : BitSeq) : BlockFields :=
  { bic := slice bits 0 c.wBic
    info := slice bits c.wBic c.wInfo
    crc := slice bits (c.wBic + c.wInfo) c.wCrc
    par := slice bits (c.wBic + c.msgLen) c.wPar }

/-- The stream bits of a block, in reception order (30_encoding.md R80). -/
def joinBlock (f : BlockFields) : BitSeq := f.bic ++ f.info ++ f.crc ++ f.par

/-- The FEC codeword `CW = INFO ++ CRC ++ PAR` (30_encoding.md R80). The BIC is not protected. -/
def codeword (f : BlockFields) : BitSeq := f.info ++ f.crc ++ f.par

/-- `bic_match(w)`: the index of the table entry within distance `BIC_TOL` of `w`, or none for NOMATCH
(41_frame_sync.md R122). For a well-formed `Cfg` there is at most one; log 7 for the others. -/
def bicMatch (c : Cfg) (w : Nat) : Option Nat :=
  c.bicTab.findIdx? fun e => decide (ham c.wBic w e.value ≤ c.bicTol)

/-- The role of BIC table entry `i` (30_encoding.md R81). -/
def roleAt (c : Cfg) (i : Nat) : Role :=
  match c.bicTab[i]? with
  | some e => e.role.toRole
  | none => .none

/-- The role of a block whose BIC field is `bic` (30_encoding.md R81): NONE where no entry matches. -/
def roleOfBic (c : Cfg) (bic : BitSeq) : Role :=
  match bicMatch c (val bic) with
  | some i => roleAt c i
  | none => .none

/-- `si`, read from the corrected information field (30_encoding.md R82). -/
def siOf (c : Cfg) (info : BitSeq) : Nat := val (slice info c.siOff c.wSi)

/-- `gseq`, read from the corrected information field (30_encoding.md R82). -/
def gseqOf (c : Cfg) (info : BitSeq) : Nat := val (slice info c.gseqOff c.wGseq)

/-- `pos`, read from the corrected information field (30_encoding.md R82). -/
def posOf (c : Cfg) (info : BitSeq) : Nat := val (slice info c.posOff c.wPos)

/-- The registers of 10_state.md R29, `allowMask j` being `ALLOW_MASK[j]`. -/
inductive RegName where
  | status
  | missTol
  | grpTimeout
  | srcSel
  | allowCtrl
  | missCnt
  | fill
  | openCnt
  | allowMask (j : Nat)
  deriving DecidableEq, Repr

/-- The register mapped at an address, none where the address is unmapped (10_state.md R29, 20_memory.md R52). -/
def regAt (c : Cfg) (a : Addr) : Option RegName :=
  match a.toNat with
  | 0 => some .status
  | 1 => some .missTol
  | 2 => some .grpTimeout
  | 3 => some .srcSel
  | 4 => some .allowCtrl
  | 5 => some .missCnt
  | 6 => some .fill
  | 7 => some .openCnt
  | n => if 0x10 ≤ n ∧ n < 0x10 + c.numAllow then some (.allowMask (n - 0x10)) else none

/-- The address of a register (10_state.md R29). `ALLOW_MASK[j]` exists for `j` below NAM, at most 128; DESIGN CHOICE
(log 14): for a `j` of 240 or more, a name no well-formed `Cfg` has, the address is taken modulo 256. -/
def regAddr : RegName → Addr
  | .status => 0x00
  | .missTol => 0x01
  | .grpTimeout => 0x02
  | .srcSel => 0x03
  | .allowCtrl => 0x04
  | .missCnt => 0x05
  | .fill => 0x06
  | .openCnt => 0x07
  | .allowMask j => BitVec.ofNat 8 (0x10 + j)

/-- The access column of 10_state.md R29: false for RO. -/
def regWritable : RegName → Bool
  | .status => false
  | .missTol => true
  | .grpTimeout => true
  | .srcSel => true
  | .allowCtrl => true
  | .missCnt => false
  | .fill => false
  | .openCnt => false
  | .allowMask _ => true

/-- The register a CFGWR to address `a` writes; none where `a` is unmapped or the register is read-only
(20_memory.md R53). -/
def writableAt (c : Cfg) (a : Addr) : Option RegName :=
  match regAt c a with
  | some r => if regWritable r then some r else none
  | none => none

/-- The bits of `ALLOW_MASK[j]` that are not reserved: those of an SI below `2^W_SI` (10_state.md R29, R38). -/
def allowBits (c : Cfg) (j : Nat) : Reg16 := BitVec.ofNat 16 (2 ^ min 16 (2 ^ c.wSi - 16 * j) - 1)

end Sys2Proof.Machine
end

