-- ==== Sys2Proof/Machine/State.lean ====
section
/-! DEFINITION. The state of a device (10_state.md R20), the output items (30_encoding.md R86), the reasons a step
could stop, and the reset state (10_state.md R45). -/

namespace Sys2Proof.Machine

/-- `PHASE` (10_state.md R21). -/
inductive Phase where
  | config
  | run
  | drained
  | halted
  | fault
  deriving DecidableEq, Repr

/-- The codes of `PHASE` (10_state.md R21). -/
def Phase.code : Phase → Nat
  | .config => 0
  | .run => 1
  | .drained => 2
  | .halted => 3
  | .fault => 4

/-- The causes of the device's own faults (60_exceptions.md R205). -/
inductive FaultCause where
  | cfgInvalid
  | illegalCmd
  | badPhase
  | badAddr
  deriving DecidableEq, Repr

/-- The codes of the causes (60_exceptions.md R205). -/
def FaultCause.code : FaultCause → Nat
  | .cfgInvalid => 1
  | .illegalCmd => 2
  | .badPhase => 3
  | .badAddr => 4

/-- `SYNC` (10_state.md R25). -/
inductive Sync where
  | unsynchronized
  | synchronized
  deriving DecidableEq, Repr

/-- The codes of `SYNC` (10_state.md R25). -/
def Sync.code : Sync → Nat
  | .unsynchronized => 0
  | .synchronized => 1

/-- The state of an accumulator slot (10_state.md R40): FREE or OPEN. -/
inductive SlotState where
  | free
  | opened
  deriving DecidableEq, Repr

/-- An accumulator slot (10_state.md R40). -/
structure Slot where
  state : SlotState
  si : Nat
  gseq : Nat
  /-- `next_pos`, the position the slot waits for. -/
  nextPos : Nat
  /-- Blocks delivered to the assembler since this slot last took one. -/
  idle : Nat
  degraded : Bool
  corrected : Bool
  /-- The stored information fields, `blocks[p]` at position `p`. -/
  blocks : List BitSeq
  deriving DecidableEq, Repr

/-- The slot is OPEN. -/
def Slot.isOpen (t : Slot) : Bool := t.state == .opened

/-- A slot after reset (10_state.md R45). -/
def Slot.reset : Slot :=
  { state := .free, si := 0, gseq := 0, nextPos := 1, idle := 0, degraded := false, corrected := false, blocks := [] }

/-- The eight events (44_service_output.md R196). -/
inductive EventKind where
  | syncLost
  | syncAcquired
  | blockCorrected
  | blockUncorrectable
  | checksumMismatch
  | groupAbandoned
  | degradedGroupEmitted
  | outOfSequenceBlock
  deriving DecidableEq, Repr

/-- Event codes (44_service_output.md R196). -/
def EventKind.code : EventKind → Nat
  | .syncLost => 1
  | .syncAcquired => 2
  | .blockCorrected => 3
  | .blockUncorrectable => 4
  | .checksumMismatch => 5
  | .groupAbandoned => 6
  | .degradedGroupEmitted => 7
  | .outOfSequenceBlock => 8

/-- Why a group was abandoned (43_group_assembler.md R169). -/
inductive AbandonReason where
  | timeout
  | restart
  | evicted
  | endOfStream
  deriving DecidableEq, Repr

/-- Reason codes (43_group_assembler.md R169, 30_encoding.md R87). -/
def AbandonReason.code : AbandonReason → Nat
  | .timeout => 0
  | .restart => 1
  | .evicted => 2
  | .endOfStream => 3

/-- An output item (30_encoding.md R86), a value of a tagged type: no wire format is specified. -/
inductive Item where
  /-- EVENT: its code and four arguments. -/
  | event (kind : EventKind) (a b c d : Reg16)
  /-- RECORD: service identification, group sequence, the two flags, the number of blocks, the payload bits. -/
  | record (si gseq : Nat) (degraded corrected : Bool) (nblocks : Nat) (payload : BitSeq)
  /-- REGVAL: the answer to RDREG. -/
  | regval (addr : Addr) (value : Reg16)
  /-- FAULT: entry to the FAULT phase. -/
  | fault (cause : FaultCause)
  /-- END: the end-of-stream marker. -/
  | endOfStream
  deriving DecidableEq, Repr

/-- Kind codes (30_encoding.md R86). -/
def Item.kindCode : Item → Nat
  | .event _ _ _ _ _ => 1
  | .record _ _ _ _ _ _ => 2
  | .regval _ _ => 3
  | .fault _ => 4
  | .endOfStream => 5

/-- The state of a device (10_state.md R20), its build parameters, the words written to it and the items it output. -/
structure State where
  /-- The build-time parameters `Cfg` (00_scope.md R8); no step writes them (log 1). -/
  cfg : Cfg
  /-- `PHASE`. -/
  phase : Phase
  /-- `FAULT_CAUSE`; `none` is the spec's value 0. -/
  faultCause : Option FaultCause
  /-- `MISS_TOL`. -/
  missTol : Reg16
  /-- `GRP_TIMEOUT`. -/
  grpTimeout : Reg16
  /-- `SRC_SEL`. -/
  srcSel : Reg16
  /-- `ALLOW_EN`. -/
  allowEn : Bool
  /-- `ALLOW_MASK[0]` to `ALLOW_MASK[NAM-1]`. -/
  allowMask : List Reg16
  /-- `WIN`, oldest bit first. -/
  win : BitSeq
  /-- `FILL`. -/
  fill : Nat
  /-- `SYNC`. -/
  sync : Sync
  /-- `MISS_CNT`. -/
  missCnt : Nat
  /-- `SLOT[0]` to `SLOT[NACC-1]`. -/
  slots : List Slot
  /-- Command words written by the host and not yet executed, oldest first (00_scope.md R6; log 2). -/
  port : List Word
  /-- The output items so far, oldest first: the recorded history of the run (10_state.md R43; log 3). -/
  out : List Item
  deriving DecidableEq, Repr

/-- Why a step would stop the machine. There is NO reason: every command of the spec completes (70_reset_and_hazards.md
R236) and the device's own faults are next states (60_exceptions.md R206). Nothing raises it; safe (log 6). -/
inductive Fault where
  deriving DecidableEq, Repr

/-- Why an instruction would be refused. -/
inductive Refusal where
  /-- Raised by an arm of `exec` for an instruction that has no meaning yet; no arm does. Safe: the machine stops. -/
  | notModelled (mnemonic : String)
  deriving DecidableEq, Repr

/-- The reset state of a device built with `c` (10_state.md R45, 70_reset_and_hazards.md R231), with no command word
pending and no item output yet. -/
def State.resetWith (c : Cfg) : State :=
  { cfg := c
    phase := .config
    faultCause := none
    missTol := 3
    grpTimeout := 16
    srcSel := 0
    allowEn := false
    allowMask := List.replicate c.numAllow 0
    win := List.replicate c.blockLen false
    fill := 0
    sync := .unsynchronized
    missCnt := 0
    slots := List.replicate c.nAcc Slot.reset
    port := []
    out := [] }

/-- The machine right after power-on reset (70_reset_and_hazards.md R230), for the profile of log 1. -/
def State.reset : State := State.resetWith Config.device

end Sys2Proof.Machine
end

