-- ==== Sys2Proof/Machine/Ops.lean ====
section
/-! DEFINITION. The named operations shared by the instructions: output (00_scope.md R15), taking a fault
(60_exceptions.md R206) and leaving it (R215), the phase check (40_commands.md R100), the register file (10_state.md
R29 to R39), the window (R23, R24), the slots (43_group_assembler.md R161, R168 to R170) and the command port. -/

namespace Sys2Proof.Machine

/-- `out(item)` (00_scope.md R15). -/
def State.emit (s : State) (i : Item) : State := { s with out := s.out ++ [i] }

/-- `out` of several items, in order. -/
def State.emitAll (s : State) (is : List Item) : State := { s with out := s.out ++ is }

/-- An event argument: the count, 16 bits (44_service_output.md R195). Where it does not fit, the free value of log 4. -/
def eventArg (n : Nat) : Reg16 := if n < 65536 then BitVec.ofNat 16 n else Config.wideArg n

/-- An EVENT item; an argument a code does not use is 0 (44_service_output.md R195). -/
def mkEvent (k : EventKind) (a b c d : Nat) : Item := .event k (eventArg a) (eventArg b) (eventArg c) (eventArg d)

/-! ### Faults and reset -/

/-- `raise Fault(c)` (60_exceptions.md R206): nothing else changes. -/
def raiseFault (c : FaultCause) (s : State) : State :=
  { s with phase := .fault, faultCause := some c, out := s.out ++ [.fault c] }

/-- RESET, the only way out of FAULT (60_exceptions.md R215): every element of 10_state.md R20 takes its reset value.
The build parameters stay, the items already output are not retracted (40_commands.md R107), and the words the host has
written stay pending (log 3). -/
def resetDevice (s : State) : State := { State.resetWith s.cfg with port := s.port, out := s.out }

/-- The phase check of 40_commands.md R100 for a command that is legal in one phase only: in FAULT it is ignored
(60_exceptions.md R216), in any other phase but its own it raises BAD_PHASE. -/
def inPhase (legal : Phase) (body : State → State) (s : State) : State :=
  if s.phase = .fault then s else if s.phase = legal then body s else raiseFault .badPhase s

/-- An ILLEGAL word: ILLEGAL_CMD in every phase but FAULT, where it is ignored (30_encoding.md R77). -/
def illegalWord (s : State) : State := if s.phase = .fault then s else raiseFault .illegalCmd s

/-! ### Registers -/

/-- The code `FAULT_CAUSE` holds, 0 for none (10_state.md R22). -/
def causeCode : Option FaultCause → Nat
  | none => 0
  | some c => c.code

/-- The number of OPEN slots (10_state.md R37). -/
def openCount (slots : List Slot) : Nat := slots.countP Slot.isOpen

/-- The `STATUS` view (10_state.md R30): `[15:8]` zero, `[7:4]` FAULT_CAUSE, `[3]` SYNC, `[2:0]` PHASE. -/
def statusView (s : State) : Reg16 :=
  0#8 ++ BitVec.ofNat 4 (causeCode s.faultCause) ++ BitVec.ofNat 1 s.sync.code ++ BitVec.ofNat 3 s.phase.code

/-- `RegRead` (20_memory.md R52): reserved bits read 0, no side effect. -/
def regRead (s : State) : RegName → Reg16
  | .status => statusView s
  | .missTol => s.missTol
  | .grpTimeout => s.grpTimeout
  | .srcSel => s.srcSel
  | .allowCtrl => 0#15 ++ BitVec.ofBool s.allowEn
  | .missCnt => BitVec.ofNat 16 s.missCnt
  | .fill => BitVec.ofNat 16 s.fill
  | .openCnt => BitVec.ofNat 16 (openCount s.slots)
  | .allowMask j => s.allowMask.getD j 0

/-- `RegWrite` (20_memory.md R52): the writable, not reserved bits take those of `v` (10_state.md R39). A read-only
register has none. -/
def regWrite (s : State) (r : RegName) (v : Reg16) : State :=
  match r with
  | .status => s
  | .missTol => { s with missTol := v }
  | .grpTimeout => { s with grpTimeout := v }
  | .srcSel => { s with srcSel := v }
  | .allowCtrl => { s with allowEn := v.getLsbD 0 }
  | .missCnt => s
  | .fill => s
  | .openCnt => s
  | .allowMask j => { s with allowMask := s.allowMask.set j (v &&& allowBits s.cfg j) }

/-- `ALLOW_MASK` bit `si` (10_state.md R38). -/
def allowBit (s : State) (si : Nat) : Bool := (s.allowMask.getD (si / 16) 0).getLsbD (si % 16)

/-- The allow-list lets a group of service `si` out (44_service_output.md R193). -/
def allowed (s : State) (si : Nat) : Bool := !s.allowEn || allowBit s si

/-- `start_ok()` (40_commands.md R110). -/
def startOk (s : State) : Bool := cfgWf s.cfg && decide (1 ≤ s.missTol.toNat) && decide (1 ≤ s.grpTimeout.toNat)

/-! ### The window -/

/-- The shift and count of a BIT command (40_commands.md R102, 10_state.md R23, R24). -/
def shiftIn (b : Bool) (s : State) : State :=
  { s with win := s.win.drop 1 ++ [b], fill := if s.fill < s.cfg.blockLen then s.fill + 1 else s.fill }

/-! ### The accumulator slots -/

/-- The GROUP_ABANDONED event of a slot (43_group_assembler.md R169). -/
def abandonEvent (t : Slot) (reason : AbandonReason) : Item :=
  mkEvent .groupAbandoned t.si t.gseq t.nextPos reason.code

/-- The slot made FREE; its other fields are left, and no rule reads them (10_state.md R41; log 8). -/
def Slot.freed (t : Slot) : Slot := { t with state := .free }

/-- Slot `j` replaced. -/
def State.setSlot (s : State) (j : Nat) (t : Slot) : State := { s with slots := s.slots.set j t }

/-- `find(si, gseq)` (43_group_assembler.md R161): the OPEN slot with that key; none is NOSLOT. -/
def findSlot (slots : List Slot) (si gseq : Nat) : Option Nat :=
  slots.findIdx? fun t => t.isOpen && t.si == si && t.gseq == gseq

/-- `abandon(j, reason)` (43_group_assembler.md R169). -/
def abandonSlot (j : Nat) (reason : AbandonReason) (s : State) : State :=
  match s.slots[j]? with
  | some t => (s.emit (abandonEvent t reason)).setSlot j t.freed
  | none => s

/-- `abandon` of the slot `find` gave, if it gave one. -/
def abandonFound (j : Option Nat) (reason : AbandonReason) (s : State) : State :=
  match j with
  | some j => abandonSlot j reason s
  | none => s

/-- The greatest `idle` among the slots (43_group_assembler.md R168). -/
def greatestIdle (slots : List Slot) : Nat := slots.foldl (fun m t => max m t.idle) 0

/-- The lowest index of a slot with the greatest `idle` (43_group_assembler.md R168). -/
def longestIdle (slots : List Slot) : Nat := slots.findIdx fun t => t.idle == greatestIdle slots

/-- The lowest FREE index (43_group_assembler.md R168). -/
def freeSlot (slots : List Slot) : Option Nat := slots.findIdx? fun t => !t.isOpen

/-- `allocate()` (43_group_assembler.md R168): the state after it and the index it returns. -/
def allocate (s : State) : State × Nat :=
  match freeSlot s.slots with
  | some j => (s, j)
  | none => (abandonSlot (longestIdle s.slots) .evicted s, longestIdle s.slots)

/-- One turn of the loop of `tick` (43_group_assembler.md R170): the slot after it and the event it outputs. -/
def tickSlot (timeout : Nat) (touched : Bool) (t : Slot) : Slot × List Item :=
  if t.isOpen && !touched then
    let older := { t with idle := t.idle + 1 }
    if timeout ≤ older.idle then (older.freed, [abandonEvent older .timeout]) else (older, [])
  else (t, [])

/-- `tick(touched)` (43_group_assembler.md R170), the slots in increasing order. -/
def tick (touched : Option Nat) (s : State) : State :=
  let turns := s.slots.zipIdx.map fun (t, j) => tickSlot s.grpTimeout.toNat (touched == some j) t
  { s with slots := turns.map Prod.fst, out := s.out ++ turns.flatMap Prod.snd }

/-- The flush of EOS (40_commands.md R105): every OPEN slot abandoned, in increasing order. -/
def flushSlots (s : State) : State :=
  { s with
    slots := s.slots.map fun t => if t.isOpen then t.freed else t
    out := s.out ++ (s.slots.filter Slot.isOpen).map fun t => abandonEvent t .endOfStream }

/-- STOP frees every slot with no event (40_commands.md R106). -/
def freeAllSlots (s : State) : State := { s with slots := s.slots.map Slot.freed }

/-! ### The command port -/

/-- The oldest pending command word and the state without it (20_memory.md R62); none where there is none (log 2). -/
def fetchWord (s : State) : Option (Word × State) :=
  match s.port with
  | [] => none
  | w :: rest => some (w, { s with port := rest })

end Sys2Proof.Machine
end

