-- ==== Sys2Proof/Machine/BlockDecoder.lean ====
section
/-! DEFINITION. The BlockDecoder: a function from a Block to a DecodedBlock and its events (42_block_decoder.md). -/

namespace Sys2Proof.Machine

/-- A DecodedBlock (42_block_decoder.md R150); it lives inside one command (10_state.md R42). -/
structure DecodedBlock where
  role : Role
  suspect : Bool
  /-- `INFO'`, the information bits after correction. -/
  info : BitSeq
  fec : FecOutcome
  nflips : Nat
  crcOk : Bool
  valid : Bool
  si : Nat
  gseq : Nat
  pos : Nat
  deriving DecidableEq, Repr

/-- `block_decode(B)` less its events (42_block_decoder.md R150): role and suspect mark as given, the received codeword
corrected (R144), the checksum (R146), validity (R147) and the header fields (R149). -/
def blockDecode (c : Cfg) (role : Role) (suspect : Bool) (f : BlockFields) : DecodedBlock :=
  let r := fecDecode c (codeword f)
  let info := slice r.word 0 c.wInfo
  { role := role
    suspect := suspect
    info := info
    fec := r.outcome
    nflips := r.nflips
    crcOk := crcOk c r.word
    valid := blockValid r.outcome (crcOk c r.word)
    si := siOf c info
    gseq := gseqOf c info
    pos := posOf c info }

/-- The events of the decoder, in order (42_block_decoder.md R148). -/
def decoderEvents (d : DecodedBlock) : List Item :=
  (if d.fec = .corrected then [mkEvent .blockCorrected d.nflips 0 0 0] else []) ++
  (if d.fec = .uncorrectable then [mkEvent .blockUncorrectable 0 0 0 0] else []) ++
  (if d.fec ≠ .uncorrectable ∧ d.crcOk = false then [mkEvent .checksumMismatch 0 0 0 0] else [])

end Sys2Proof.Machine
end

