-- ==== Sys2Proof/Machine/Demux.lean ====
section
/-! DEFINITION. The ServiceDemultiplexer: `emit_group` (44_service_output.md R191). -/

namespace Sys2Proof.Machine

/-- A completed DataGroup (43_group_assembler.md R164, R165). -/
structure Group where
  si : Nat
  gseq : Nat
  degraded : Bool
  corrected : Bool
  blocks : List BitSeq
  deriving DecidableEq, Repr

/-- The items of a group that is let out (44_service_output.md R191, R194). -/
def groupItems (g : Group) : List Item :=
  (if g.degraded then [mkEvent .degradedGroupEmitted g.si g.gseq g.blocks.length 0] else []) ++
    [.record g.si g.gseq g.degraded g.corrected g.blocks.length g.blocks.flatten]

/-- `emit_group(G)` (44_service_output.md R191): nothing where the allow-list filters the group out (R193). -/
def emitGroup (g : Group) (s : State) : State := if allowed s g.si then s.emitAll (groupItems g) else s

end Sys2Proof.Machine
end

