-- ==== Sys2Proof/Machine/Assembler.lean ====
section
/-! DEFINITION. The GroupAssembler: the action of each role, then `tick` (43_group_assembler.md R160). An action answers
the state after it and `touched`, the index of the slot that took the block. -/

namespace Sys2Proof.Machine

/-- `drop(D)` (43_group_assembler.md R167). -/
def dropBlock (d : DecodedBlock) (s : State) : State :=
  s.emit (mkEvent .outOfSequenceBlock d.si d.gseq d.pos d.role.code)

/-- The slot a FIRST block opens (43_group_assembler.md R162). -/
def openedSlot (d : DecodedBlock) : Slot :=
  { state := .opened, si := d.si, gseq := d.gseq, nextPos := 1, idle := 0
    degraded := degradedAfter false d.valid, corrected := correctedAfter false d.fec, blocks := [d.info] }

/-- A slot that takes a continuation block (43_group_assembler.md R163). -/
def appendedSlot (t : Slot) (d : DecodedBlock) : Slot :=
  { t with
    blocks := t.blocks ++ [d.info]
    nextPos := t.nextPos + 1
    idle := 0
    degraded := degradedAfter t.degraded d.valid
    corrected := correctedAfter t.corrected d.fec }

/-- The group a last block completes (43_group_assembler.md R164). -/
def completedGroup (t : Slot) (d : DecodedBlock) : Group :=
  { si := d.si, gseq := d.gseq, blocks := t.blocks ++ [d.info]
    degraded := degradedAfter t.degraded d.valid, corrected := correctedAfter t.corrected d.fec }

/-- The group of one block (43_group_assembler.md R165). -/
def singleGroup (d : DecodedBlock) : Group :=
  { si := d.si, gseq := d.gseq, blocks := [d.info]
    degraded := degradedAfter false d.valid, corrected := correctedAfter false d.fec }

/-- The OPEN slot of the block's key that waits for the block's position, with its index (43_group_assembler.md R163, R164). -/
def awaitingSlot (d : DecodedBlock) (s : State) : Option (Nat × Slot) :=
  match findSlot s.slots d.si d.gseq with
  | some j =>
    match s.slots[j]? with
    | some t => if d.pos = t.nextPos then some (j, t) else none
    | none => none
  | none => none

/-- `do_first` (43_group_assembler.md R162). -/
def doFirst (d : DecodedBlock) (s : State) : State × Option Nat :=
  if d.pos = 0 then
    let r := allocate (abandonFound (findSlot s.slots d.si d.gseq) .restart s)
    (r.1.setSlot r.2 (openedSlot d), some r.2)
  else (dropBlock d s, none)

/-- `do_cont` (43_group_assembler.md R163). -/
def doCont (d : DecodedBlock) (s : State) : State × Option Nat :=
  match awaitingSlot d s with
  | some (j, t) => (s.setSlot j (appendedSlot t d), some j)
  | none => (dropBlock d s, none)

/-- `do_last` (43_group_assembler.md R164). -/
def doLast (d : DecodedBlock) (s : State) : State × Option Nat :=
  match awaitingSlot d s with
  | some (j, t) => (emitGroup (completedGroup t d) (s.setSlot j t.freed), none)
  | none => (dropBlock d s, none)

/-- `do_single` (43_group_assembler.md R165). -/
def doSingle (d : DecodedBlock) (s : State) : State × Option Nat :=
  (emitGroup (singleGroup d) (abandonFound (findSlot s.slots d.si d.gseq) .restart s), none)

/-- The action of the block's role (43_group_assembler.md R160). -/
def roleAction (d : DecodedBlock) (s : State) : State × Option Nat :=
  match d.role with
  | .first => doFirst d s
  | .cont => doCont d s
  | .last => if d.pos = 0 then doSingle d s else doLast d s
  | .none => (dropBlock d s, none)

/-- `assemble(D)` (43_group_assembler.md R160). -/
def assemble (d : DecodedBlock) (s : State) : State :=
  let r := roleAction d s
  tick r.2 r.1

end Sys2Proof.Machine
end

