-- ==== Sys2Proof/Machine/Blocks.lean ====
section
/-! DEFINITION. `deliver` (41_frame_sync.md R128) and the meanings of the block instructions, one per role. A block runs
only inside the BIT command that completes it (10_state.md R42), which has made the phase check; a block instruction
makes none of its own (log 9). -/

namespace Sys2Proof.Machine

/-- `deliver(B)` (41_frame_sync.md R128): decode, output the decoder's events, assemble. -/
def deliver (role : Role) (suspect : Bool) (f : BlockFields) (s : State) : State :=
  let d := blockDecode s.cfg role suspect f
  assemble d (s.emitAll (decoderEvents d))

/-- BLK.FIRST (43_group_assembler.md R162). -/
def execBlkFirst (f : BlockFields) (s : State) : Host.Outcome State Fault Refusal := .next (deliver .first false f s)

/-- BLK.CONT (43_group_assembler.md R163). -/
def execBlkCont (f : BlockFields) (s : State) : Host.Outcome State Fault Refusal := .next (deliver .cont false f s)

/-- BLK.LAST (43_group_assembler.md R164, R165). -/
def execBlkLast (f : BlockFields) (s : State) : Host.Outcome State Fault Refusal := .next (deliver .last false f s)

/-- BLK.NONE, a sync-suspect block (43_group_assembler.md R166, 41_frame_sync.md R126). -/
def execBlkNone (f : BlockFields) (s : State) : Host.Outcome State Fault Refusal := .next (deliver .none true f s)

end Sys2Proof.Machine
end

