-- ==== Sys2Proof/Machine/FrameSync.lean ====
section
/-! DEFINITION. The FrameSynchronizer (41_frame_sync.md), the inside of the BIT command. -/

namespace Sys2Proof.Machine

/-- The emission of a block: the rest of the pipeline (41_frame_sync.md R128), then `FILL <- 0` (R129). -/
def emitBlock (role : Role) (suspect : Bool) (f : BlockFields) (s : State) : State :=
  { deliver role suspect f s with fill := 0 }

/-- `lose_lock()` (41_frame_sync.md R127). -/
def loseLock (s : State) : State :=
  { s with sync := .unsynchronized, missCnt := 0, out := s.out ++ [mkEvent .syncLost 0 0 0 0] }

/-- Lock acquired on table entry `i` (41_frame_sync.md R124). -/
def acquireLock (i : Nat) (s : State) : State :=
  { s with sync := .synchronized, missCnt := 0, out := s.out ++ [mkEvent .syncAcquired i 0 0 0] }

/-- The count of a miss, and the loss of lock on the `MISS_TOL`-th in a row (41_frame_sync.md R126). -/
def countMiss (s : State) : State :=
  if s.missCnt + 1 = s.missTol.toNat then loseLock { s with missCnt := s.missCnt + 1 }
  else { s with missCnt := s.missCnt + 1 }

/-- `scan_step(m)` (41_frame_sync.md R124). -/
def scanStep (m : Option Nat) (f : BlockFields) (s : State) : State :=
  match m with
  | none => s
  | some i => emitBlock (roleAt s.cfg i) false f (acquireLock i s)

/-- `lock_step(m)` (41_frame_sync.md R125, R126). -/
def lockStep (m : Option Nat) (f : BlockFields) (s : State) : State :=
  match m with
  | some i => emitBlock (roleAt s.cfg i) false f { s with missCnt := 0 }
  | none => emitBlock .none true f (countMiss s)

/-- `sync_compare()` on the full window (41_frame_sync.md R123). -/
def syncCompare (s : State) : State :=
  let f := splitBlock s.cfg s.win
  let m := bicMatch s.cfg (val f.bic)
  match s.sync with
  | .unsynchronized => scanStep m f s
  | .synchronized => lockStep m f s

/-- The pseudocode of BIT in RUN (40_commands.md R102). -/
def bitStep (b : Bool) (s : State) : State :=
  let s1 := shiftIn b s
  if s1.fill = s1.cfg.blockLen then syncCompare s1 else s1

end Sys2Proof.Machine
end

