-- ==== Sys2Proof/Machine/Commands.lean ====
section
/-! DEFINITION. The meanings of the eight commands (40_commands.md R101 to R110). Each makes the checks of
60_exceptions.md R211 in their order; all checks precede all effects. -/

namespace Sys2Proof.Machine

/-- NOP (40_commands.md R101). -/
def execNop (s : State) : Host.Outcome State Fault Refusal := .next s

/-- BIT b (40_commands.md R102). -/
def execBit (b : Bool) (s : State) : Host.Outcome State Fault Refusal := .next (inPhase .run (bitStep b) s)

/-- START (40_commands.md R103). -/
def startBody (s : State) : State := if startOk s then { s with phase := .run } else raiseFault .cfgInvalid s

/-- START (40_commands.md R103). -/
def execStart (s : State) : Host.Outcome State Fault Refusal := .next (inPhase .config startBody s)

/-- The pseudocode of CFGWR in CONFIG (40_commands.md R104). -/
def cfgwrBody (addr : Addr) (data : Reg16) (s : State) : State :=
  match writableAt s.cfg addr with
  | some r => regWrite s r data
  | none => raiseFault .badAddr s

/-- CFGWR addr, data (40_commands.md R104). -/
def execCfgwr (addr : Addr) (data : Reg16) (s : State) : Host.Outcome State Fault Refusal :=
  .next (inPhase .config (cfgwrBody addr data) s)

/-- The pseudocode of EOS in RUN (40_commands.md R105). -/
def eosBody (s : State) : State :=
  { (flushSlots { s with fill := 0 }).emit .endOfStream with phase := .drained }

/-- EOS (40_commands.md R105). -/
def execEos (s : State) : Host.Outcome State Fault Refusal := .next (inPhase .run eosBody s)

/-- The pseudocode of STOP in RUN (40_commands.md R106). -/
def stopBody (s : State) : State := { freeAllSlots { s with fill := 0 } with phase := .halted }

/-- STOP (40_commands.md R106). -/
def execStop (s : State) : Host.Outcome State Fault Refusal := .next (inPhase .run stopBody s)

/-- RESET (40_commands.md R107), legal in every phase. -/
def execReset (s : State) : Host.Outcome State Fault Refusal := .next (resetDevice s)

/-- The pseudocode of RDREG (40_commands.md R108), legal in every phase. -/
def rdregBody (addr : Addr) (s : State) : State :=
  match regAt s.cfg addr with
  | some r => s.emit (.regval addr (regRead s r))
  | none => if s.phase = .fault then s else raiseFault .badAddr s

/-- RDREG addr (40_commands.md R108). -/
def execRdreg (addr : Addr) (s : State) : Host.Outcome State Fault Refusal := .next (rdregBody addr s)

end Sys2Proof.Machine
end

