-- ==== Sys2Proof/Machine/Dispatch.lean ====
section
/-! DEFINITION. One arm per instruction of spec/opcode_table.json. -/

namespace Sys2Proof.Machine

/-- The effect of an instruction. -/
def exec (i : Instr) (s : State) : Host.Outcome State Fault Refusal :=
  match i with
  | .nop => Sys2Proof.Machine.execNop s
  | .bit b => Sys2Proof.Machine.execBit b s
  | .eos => Sys2Proof.Machine.execEos s
  | .stop => Sys2Proof.Machine.execStop s
  | .reset => Sys2Proof.Machine.execReset s
  | .start => Sys2Proof.Machine.execStart s
  | .cfgwr addr data => Sys2Proof.Machine.execCfgwr addr data s
  | .rdreg addr => Sys2Proof.Machine.execRdreg addr s
  | .blkFirst f => Sys2Proof.Machine.execBlkFirst f s
  | .blkCont f => Sys2Proof.Machine.execBlkCont f s
  | .blkLast f => Sys2Proof.Machine.execBlkLast f s
  | .blkNone f => Sys2Proof.Machine.execBlkNone f s

end Sys2Proof.Machine
end

