-- ==== Sys2Proof/WellFormed.lean ====
section
/-! DEFINITION. When an instruction is well-formed: a command word's operands have the widths of their types, so only
blocks have something to check, that their fields have the widths of 30_encoding.md R80 and that the BIC gives the
role the constructor names (R81). -/

namespace Sys2Proof

/-- The four fields have the widths of 30_encoding.md R80. -/
def BlockFields.widthsOk (c : Cfg) (f : BlockFields) : Bool :=
  f.bic.length == c.wBic && f.info.length == c.wInfo && f.crc.length == c.wCrc && f.par.length == c.wPar

/-- Well-formed instructions of a device built with `c`. -/
def Instr.wf (c : Cfg) : Instr → Bool
  | .nop => true
  | .bit _ => true
  | .eos => true
  | .stop => true
  | .reset => true
  | .start => true
  | .cfgwr _ _ => true
  | .rdreg _ => true
  | .blkFirst f => f.widthsOk c && Machine.roleOfBic c f.bic == .first
  | .blkCont f => f.widthsOk c && Machine.roleOfBic c f.bic == .cont
  | .blkLast f => f.widthsOk c && Machine.roleOfBic c f.bic == .last
  | .blkNone f => f.widthsOk c && Machine.roleOfBic c f.bic == .none

end Sys2Proof
end

