-- ==== Sys2Proof/Decode.lean ====
section
/-! DEFINITION. The decoder of command words (30_encoding.md R78) and of blocks (R81), the encoder, and the form the
host asks the decoder in. Both decoders are total and refuse by name. -/

namespace Sys2Proof

/-- What is decoded (30_encoding.md R70): a command word, or the `L` stream bits of a block. -/
inductive Code where
  | command (w : Word)
  | block (bits : BitSeq)
  deriving DecidableEq, Repr

/-- Why a decoder refuses. -/
inductive DecodeReject where
  /-- Opcode `0x8` to `0xF` (30_encoding.md R77). -/
  | reservedOpcode (op : Nat)
  /-- A bit of a "zero" field of the opcode's format is 1 (30_encoding.md R77). -/
  | zeroFieldNotZero (op : Nat)
  /-- Not `L` bits: no block (30_encoding.md R79). -/
  | blockLength (n : Nat)
  deriving DecidableEq, Repr

/-- `op = c[31:28]` (30_encoding.md R71). -/
def opField (w : Word) : BitVec 4 := w.extractLsb' 28 4

/-- `addr = c[27:20]` of formats W and R (30_encoding.md R74, R75). -/
def addrField (w : Word) : Addr := w.extractLsb' 20 8

/-- `data = c[15:0]` of format W (30_encoding.md R74). -/
def dataField (w : Word) : Reg16 := w.extractLsb' 0 16

/-- The "zero" field of format N, bits 27:0 (30_encoding.md R72), is 0. -/
def zeroN (w : Word) : Bool := w.extractLsb' 0 28 == 0#28

/-- The "zero" field of format B, bits 27:1 (30_encoding.md R73), is 0. -/
def zeroB (w : Word) : Bool := w.extractLsb' 1 27 == 0#27

/-- The "zero" field of format W, bits 19:16 (30_encoding.md R74), is 0. -/
def zeroW (w : Word) : Bool := w.extractLsb' 16 4 == 0#4

/-- The "zero" field of format R, bits 19:0 (30_encoding.md R75), is 0. -/
def zeroR (w : Word) : Bool := w.extractLsb' 0 20 == 0#20

/-- `i` where the zero field is zero, the refusal otherwise (30_encoding.md R78). -/
def ifZero (ok : Bool) (op : Nat) (i : Instr) : Except DecodeReject Instr :=
  if ok then .ok i else .error (.zeroFieldNotZero op)

/-- `decode(c)` (30_encoding.md R78), ILLEGAL being a refusal. -/
def decodeCommand (w : Word) : Except DecodeReject Instr :=
  match (opField w).toNat with
  | 0 => ifZero (zeroN w) 0 .nop
  | 1 => ifZero (zeroB w) 1 (.bit (w.getLsbD 0))
  | 2 => ifZero (zeroN w) 2 .eos
  | 3 => ifZero (zeroN w) 3 .stop
  | 4 => ifZero (zeroN w) 4 .reset
  | 5 => ifZero (zeroN w) 5 .start
  | 6 => ifZero (zeroW w) 6 (.cfgwr (addrField w) (dataField w))
  | 7 => ifZero (zeroR w) 7 (.rdreg (addrField w))
  | op => .error (.reservedOpcode op)

/-- The block instruction of a role. -/
def blockInstr (r : Role) (f : BlockFields) : Instr :=
  match r with
  | .first => .blkFirst f
  | .cont => .blkCont f
  | .last => .blkLast f
  | .none => .blkNone f

/-- A block of `L` stream bits is the instruction of the role its BIC gives (30_encoding.md R81). -/
def decodeBlock (c : Cfg) (bits : BitSeq) : Except DecodeReject Instr :=
  if bits.length = c.blockLen then
    .ok (blockInstr (Machine.roleOfBic c (Machine.splitBlock c bits).bic) (Machine.splitBlock c bits))
  else .error (.blockLength bits.length)

/-- The two decoders (30_encoding.md R70). -/
def decode (c : Cfg) : Code → Except DecodeReject Instr
  | .command w => decodeCommand w
  | .block bits => decodeBlock c bits

/-- Format N (30_encoding.md R72). -/
def encodeN (op : BitVec 4) : Word := op ++ 0#28

/-- Format B (30_encoding.md R73). -/
def encodeB (op : BitVec 4) (b : Bool) : Word := op ++ 0#27 ++ BitVec.ofBool b

/-- Format W (30_encoding.md R74). -/
def encodeW (op : BitVec 4) (addr : Addr) (data : Reg16) : Word := op ++ addr ++ 0#4 ++ data

/-- Format R (30_encoding.md R75). -/
def encodeR (op : BitVec 4) (addr : Addr) : Word := op ++ addr ++ 0#20

/-- The encoding of an instruction (30_encoding.md R76, R80). -/
def encode : Instr → Code
  | .nop => .command (encodeN 0)
  | .bit b => .command (encodeB 1 b)
  | .eos => .command (encodeN 2)
  | .stop => .command (encodeN 3)
  | .reset => .command (encodeN 4)
  | .start => .command (encodeN 5)
  | .cfgwr addr data => .command (encodeW 6 addr data)
  | .rdreg addr => .command (encodeR 7 addr)
  | .blkFirst f => .block (Machine.joinBlock f)
  | .blkCont f => .block (Machine.joinBlock f)
  | .blkLast f => .block (Machine.joinBlock f)
  | .blkNone f => .block (Machine.joinBlock f)

/-- The first `n` bytes of a table word, the byte of bits 7:0 first. -/
def tableBytes : Nat → Nat → List (BitVec 8)
  | 0, _ => []
  | n + 1, w => BitVec.ofNat 8 w :: tableBytes n (w / 256)

/-- The `len` stream bits of a block row's table word: its bytes in order, each most significant bit first (20_memory.md
R57). In profile TOY the first byte is the 8-bit BIC field, over which the table gives a block row's match. -/
def tableBlockBits (len w : Nat) : BitSeq :=
  (Machine.bytesBits (tableBytes ((len + 7) / 8) w)).take len

/-- The instruction the decoder reads from an instruction whose bits are `w`, numbered as spec/opcode_table.json
numbers them (log 5). The table gives a command row 32 bits and a block row its BIC field, in profile TOY. -/
def decodeTableWord (nbits w : Nat) : Option Instr :=
  if nbits = 32 then
    if w < 2 ^ 32 then (decodeCommand (BitVec.ofNat 32 w)).toOption else none
  else
    (decodeBlock Config.toy (tableBlockBits Config.toy.blockLen w)).toOption

end Sys2Proof
end

