-- ==== Sys2Proof/Machine/Fetch.lean ====
section
/-! DEFINITION. Placing an instruction where the next step takes it (log 5): a command word at the head of the port; a
block as the window all but its last bit, with the BIT command of that last bit at the head of the port. -/

namespace Sys2Proof.Machine

/-- A command word that the next step takes (20_memory.md R62). -/
def withCommandWord (s : State) (w : Word) : State := { s with port := w :: s.port }

/-- A block of `L` bits that the next step delivers: a locked synchronizer in RUN that has collected all bits but the
last (10_state.md R23, R24; 41_frame_sync.md R123), and the BIT command of the last bit. -/
def withBlockBits (s : State) (bits : BitSeq) : State :=
  { s with
    phase := .run
    faultCause := none
    sync := .synchronized
    missCnt := 0
    win := false :: bits.dropLast
    fill := bits.length - 1
    port := encodeB 1 (bits.getLastD false) :: s.port }

/-- The placement of a table word (log 5): 32 bits are a command word, any other length is a block row. -/
def placeTableWord (s : State) (nbits w : Nat) : State :=
  if nbits = 32 then withCommandWord s (BitVec.ofNat 32 w)
  else withBlockBits s (tableBlockBits s.cfg.blockLen w)

end Sys2Proof.Machine
end

