-- ==== Sys2Proof/Machine/Step.lean ====
section
/-! DEFINITION. One step: take the oldest pending command word, decode it, execute it (40_commands.md R100). -/

namespace Sys2Proof.Machine

/-- One step of the machine. With no command word pending the device waits: nothing changes (log 2). An illegal word
takes the fault of 30_encoding.md R77. -/
def step (s : State) : Host.Outcome State Fault Refusal :=
  match fetchWord s with
  | none => .next s
  | some (w, t) =>
    match decodeCommand w with
    | .ok i => exec i t
    | .error _ => .next (illegalWord t)

/-- `s` with the instruction of table word `w` placed where the next step takes it (log 5). -/
def State.withFetchWord (s : State) (nbits w : Nat) : State := placeTableWord s nbits w

end Sys2Proof.Machine
end

