-- ==== Sys2Proof/Machine/RefEncoder.lean ====
section
/-! DEFINITION. The reference encoder (30_encoding.md R85) and the pseudo-instructions (R88, R89). They are no part of
the hardware: tests and claims build blocks and command sequences with them. What those rules leave open for operands
outside their ranges is the model's choice (log 14). -/

namespace Sys2Proof.Machine

/-- The checksum of an information field (30_encoding.md R85). -/
def refCrc (c : Cfg) (info : BitSeq) : Nat :=
  if c.wCrc = 0 then 0 else pmod (poly info <<< c.wCrc) c.crcP

/-- `M = INFO ++ CRC` as a word (30_encoding.md R85). -/
def refMsg (c : Cfg) (info : BitSeq) : Nat := (poly info <<< c.wCrc) ^^^ refCrc c info

/-- The parity of a message (30_encoding.md R85). -/
def refPar (c : Cfg) (msg : Nat) : Nat := pmod (msg <<< c.wPar) c.fecG

/-- The codeword of an information field (30_encoding.md R85). -/
def refCodeword (c : Cfg) (info : BitSeq) : BitSeq :=
  seq c.codeLen ((refMsg c info <<< c.wPar) ^^^ refPar c (refMsg c info))

/-- The block of a BIC value and an information field (30_encoding.md R85). -/
def refBlock (c : Cfg) (bicValue : Nat) (info : BitSeq) : BitSeq := seq c.wBic bicValue ++ refCodeword c info

/-- The information field with the header fields `si`, `gseq`, `pos` and the other bits, in stream order, from `data`
(30_encoding.md R89). The offsets are those of the header fields in profile order si, gseq, pos or any other: bit `k`
of the field is the header bit where `k` lies in a header field, the next data bit elsewhere. DESIGN CHOICE (log 14): of
an operand too wide for its field the low bits are taken. -/
def refInfoFrom (c : Cfg) (si gseq pos : Nat) : Nat → Nat → BitSeq → BitSeq
  | 0, _, _ => []
  | n + 1, k, data =>
    if c.siOff ≤ k ∧ k < c.siOff + c.wSi then
      si.testBit (c.wSi - 1 - (k - c.siOff)) :: refInfoFrom c si gseq pos n (k + 1) data
    else if c.gseqOff ≤ k ∧ k < c.gseqOff + c.wGseq then
      gseq.testBit (c.wGseq - 1 - (k - c.gseqOff)) :: refInfoFrom c si gseq pos n (k + 1) data
    else if c.posOff ≤ k ∧ k < c.posOff + c.wPos then
      pos.testBit (c.wPos - 1 - (k - c.posOff)) :: refInfoFrom c si gseq pos n (k + 1) data
    else data.headD false :: refInfoFrom c si gseq pos n (k + 1) data.tail

/-- The information field of `BLK role, si, gseq, pos, data` (30_encoding.md R89). DESIGN CHOICE (log 14): of data too
wide for the bits outside the header fields the low bits are taken. -/
def refInfo (c : Cfg) (si gseq pos data : Nat) : BitSeq :=
  refInfoFrom c si gseq pos c.wInfo 0 (seq (c.wInfo - (c.wSi + c.wGseq + c.wPos)) data)

/-- The BIC value of a role, which 30_encoding.md R85 and R89 take as given. DESIGN CHOICE (log 14): where `BIC_TAB` has
several entries of the role (00_scope.md R8 allows it) it is the first one's, and where it has none there is no value. -/
def bicValueOf (c : Cfg) (r : BicRole) : Option Nat := (c.bicTab.find? fun e => e.role == r).map BicEntry.value

/-- `BITS`: the BIT commands of a bit string (30_encoding.md R89). -/
def pseudoBits (bits : BitSeq) : List Instr := bits.map .bit

/-- `BYTE v` (30_encoding.md R89). -/
def pseudoByte (v : BitVec 8) : List Instr := pseudoBits (byteBits v)

/-- `BLK role, si, gseq, pos, data` (30_encoding.md R89). DESIGN CHOICE (log 14): no command where the table has no entry
of the role. -/
def pseudoBlk (c : Cfg) (r : BicRole) (si gseq pos data : Nat) : List Instr :=
  match bicValueOf c r with
  | some v => pseudoBits (refBlock c v (refInfo c si gseq pos data))
  | none => []

/-- Stream bit `i` inverted (30_encoding.md R89). DESIGN CHOICE (log 14): an index at or beyond the end inverts nothing. -/
def flipBit (bits : BitSeq) (i : Nat) : BitSeq := bits.modify i not

/-- `BLK! role, si, gseq, pos, data, flip i, j, ...` (30_encoding.md R89). DESIGN CHOICE (log 14): an index written twice
inverts its bit twice. -/
def pseudoBlkFlip (c : Cfg) (r : BicRole) (si gseq pos data : Nat) (flips : List Nat) : List Instr :=
  match bicValueOf c r with
  | some v => pseudoBits (flips.foldl flipBit (refBlock c v (refInfo c si gseq pos data)))
  | none => []

/-- `CFGWR reg, data` with a register name (30_encoding.md R88); log 14 for a name no device has. -/
def asmCfgwr (r : RegName) (data : Reg16) : Instr := .cfgwr (regAddr r) data

/-- `RDREG reg` with a register name (30_encoding.md R88); log 14 for a name no device has. -/
def asmRdreg (r : RegName) : Instr := .rdreg (regAddr r)

end Sys2Proof.Machine
end

