-- ==== Sys2Proof/Safety.lean ====
section
/-! DEFINITION. What counts as a good state (10_state.md R40, R44, R47) and an ended run (70_reset_and_hazards.md R237),
and running a sequence of instructions. -/

namespace Sys2Proof.Machine

/-- An OPEN slot is as 10_state.md R40, R44 and R47 (d) say, for a device built with `c` and a timeout. -/
structure SlotOk (c : Cfg) (timeout : Nat) (t : Slot) : Prop where
  si_lt : t.si < 2 ^ c.wSi
  gseq_lt : t.gseq < 2 ^ c.wGseq
  nextPos_ge : 1 ≤ t.nextPos
  nextPos_le : t.nextPos ≤ 2 ^ c.wPos
  idle_lt : t.idle < timeout
  blocks_count : t.blocks.length = t.nextPos
  blocks_width : ∀ b ∈ t.blocks, b.length = c.wInfo

/-- Two OPEN slots have different keys (10_state.md R41, R47 (e)). -/
def KeysDistinct (slots : List Slot) : Prop :=
  slots.Pairwise fun t u => t.isOpen = true → u.isOpen = true → ¬(t.si = u.si ∧ t.gseq = u.gseq)

/-- Two OPEN slots have different `idle` (95_test_vectors.md V11, the remark). -/
def IdlesDistinct (slots : List Slot) : Prop :=
  slots.Pairwise fun t u => t.isOpen = true → u.isOpen = true → t.idle ≠ u.idle

/-- No group is in progress. -/
def AllFree (slots : List Slot) : Prop := ∀ t ∈ slots, t.isOpen = false

/-- The states between commands: the widths of 10_state.md R20, the bounds of R24, R26 and R44 and the invariants of R47. -/
structure State.Inv (s : State) : Prop where
  win_length : s.win.length = s.cfg.blockLen
  slots_length : s.slots.length = s.cfg.nAcc
  mask_length : s.allowMask.length = s.cfg.numAllow
  mask_reserved : ∀ j v, s.allowMask[j]? = some v → v &&& allowBits s.cfg j = v
  fill_le : s.fill ≤ s.cfg.blockLen
  full_unsync : s.fill = s.cfg.blockLen → s.sync = .unsynchronized
  miss_lt : s.missCnt = 0 ∨ s.missCnt < s.missTol.toNat
  miss_unsync : s.sync = .unsynchronized → s.missCnt = 0
  config_idle : s.phase = .config → s.fill = 0 ∧ s.sync = .unsynchronized ∧ AllFree s.slots
  ended_idle : s.phase = .drained ∨ s.phase = .halted → s.fill = 0 ∧ AllFree s.slots
  slot_ok : ∀ t ∈ s.slots, t.isOpen = true → SlotOk s.cfg s.grpTimeout.toNat t
  keys_distinct : KeysDistinct s.slots
  idles_distinct : IdlesDistinct s.slots
  cause_iff : s.faultCause ≠ none ↔ s.phase = .fault
  started : s.phase = .run ∨ s.phase = .drained ∨ s.phase = .halted → startOk s = true

/-- A run has ended (70_reset_and_hazards.md R237): normally in DRAINED or HALTED, abnormally in FAULT. -/
def State.ended (s : State) : Bool := s.phase == .drained || s.phase == .halted || s.phase == .fault

/-- The instructions of a list, one after another (20_memory.md R62), stopping where one does not answer a next state. -/
def execSeq : List Instr → State → Host.Outcome State Fault Refusal
  | [], s => .next s
  | i :: is, s =>
    match exec i s with
    | .next t => execSeq is t
    | .fault r => .fault r
    | .refused r => .refused r

end Sys2Proof.Machine
end

