-- ==== Sys2Proof/Certificates/Slice0/Obligations.lean ====
section
/-! DEFINITION. The statements for the provers. Helpers stand under Sys2Proof.Claim; each says in its own words what the
rule it cites says, so that a statement does not repeat the model's text. -/

namespace Sys2Proof.Claim

open Sys2Proof.Machine

/-- `raise Fault(c)` (60_exceptions.md R206), written out. -/
def taking (c : FaultCause) (s : State) : State :=
  { s with phase := .fault, faultCause := some c, out := s.out ++ [.fault c] }

/-- The opcode map of 30_encoding.md R76, `(match, mask)`. -/
def opcodeMap : List (Word × Word) :=
  [(0x00000000#32, 0xFFFFFFFF#32), (0x10000000#32, 0xFFFFFFFE#32), (0x20000000#32, 0xFFFFFFFF#32),
   (0x30000000#32, 0xFFFFFFFF#32), (0x40000000#32, 0xFFFFFFFF#32), (0x50000000#32, 0xFFFFFFFF#32),
   (0x60000000#32, 0xF00F0000#32), (0x70000000#32, 0xF00FFFFF#32)]

/-- A word matching no row of the opcode map (30_encoding.md R77). -/
def illegal (w : Word) : Prop := ∀ r ∈ opcodeMap, w &&& r.2 ≠ r.1

/-- The bits the format of an opcode calls "zero" (30_encoding.md R72 to R76). -/
def zeroMask : Nat → Word
  | 1 => 0x0FFFFFFE#32
  | 6 => 0x000F0000#32
  | 7 => 0x000FFFFF#32
  | _ => 0x0FFFFFFF#32

/-- The `run` cells of the table of 40_commands.md R100, the FAULT column aside. -/
def legalIn (i : Instr) (p : Phase) : Bool :=
  match i with
  | .cfgwr _ _ => p == .config
  | .start => p == .config
  | .bit _ => p == .run
  | .eos => p == .run
  | .stop => p == .run
  | .nop => true
  | .reset => true
  | .rdreg _ => true
  | .blkFirst _ => true
  | .blkCont _ => true
  | .blkLast _ => true
  | .blkNone _ => true

/-- A mapped address: `0x00` to `0x07` and `0x10` to `0x10 + NAM - 1` (20_memory.md R52). -/
def mapped (c : Cfg) (a : Addr) : Bool :=
  decide (a.toNat ≤ 7) || (decide (0x10 ≤ a.toNat) && decide (a.toNat < 0x10 + c.numAllow))

/-- A mapped address whose register is RW (10_state.md R29). -/
def writable (c : Cfg) (a : Addr) : Bool :=
  (decide (1 ≤ a.toNat) && decide (a.toNat ≤ 4)) || (decide (0x10 ≤ a.toNat) && decide (a.toNat < 0x10 + c.numAllow))

/-- The fault a command raises in its legal phase (40_commands.md R103, R104, R108). -/
def operandFault (s : State) (i : Instr) : Option FaultCause :=
  match i with
  | .cfgwr a _ => if writable s.cfg a then none else some .badAddr
  | .rdreg a => if mapped s.cfg a then none else some .badAddr
  | .start => if cfgWf s.cfg ∧ 1 ≤ s.missTol.toNat ∧ 1 ≤ s.grpTimeout.toNat then none else some .cfgInvalid
  | .nop => none
  | .bit _ => none
  | .eos => none
  | .stop => none
  | .reset => none
  | .blkFirst _ => none
  | .blkCont _ => none
  | .blkLast _ => none
  | .blkNone _ => none

/-- The fault a command word raises outside FAULT, by the order of 60_exceptions.md R211. -/
def faultOf (s : State) (w : Word) : Option FaultCause :=
  match decodeCommand w with
  | .error _ => some .illegalCmd
  | .ok i => if legalIn i s.phase then operandFault s i else some .badPhase

/-- A slot that ages by one delivered block it did not take (43_group_assembler.md R170). -/
def aged (timeout : Nat) (t : Slot) : Slot :=
  if t.isOpen then { t with idle := t.idle + 1, state := if timeout ≤ t.idle + 1 then .free else .opened } else t

/-- The GROUP_ABANDONED event of a slot (43_group_assembler.md R169). -/
def abandoned (t : Slot) (reason : Nat) : Item :=
  .event .groupAbandoned (eventArg t.si) (eventArg t.gseq) (eventArg t.nextPos) (eventArg reason)

/-- The events of the slots that time out (43_group_assembler.md R170), by increasing index. -/
def timeouts (timeout : Nat) (touched : Option Nat) (slots : List Slot) : List Item :=
  slots.zipIdx.flatMap fun (t, j) =>
    if t.isOpen ∧ touched ≠ some j ∧ timeout ≤ t.idle + 1 then [abandoned t 0] else []

/-- The state after a block whose action output `items`, left the slots `slots` and gave the block to `touched`: then
every other OPEN slot ages (43_group_assembler.md R160, R170). Nothing else changes. -/
def afterBlock (s : State) (items : List Item) (slots : List Slot) (touched : Option Nat) : State :=
  { s with
    slots := slots.zipIdx.map fun (t, j) => if touched = some j then t else aged s.grpTimeout.toNat t
    out := s.out ++ items ++ timeouts s.grpTimeout.toNat touched slots }

/-- The OUT_OF_SEQUENCE_BLOCK event (43_group_assembler.md R167). -/
def outOfSequence (d : DecodedBlock) : Item :=
  .event .outOfSequenceBlock (eventArg d.si) (eventArg d.gseq) (eventArg d.pos) (eventArg d.role.code)

/-- Slot `j` holds `t`, OPEN for key `(si, gseq)`, and no lower slot does (43_group_assembler.md R161). -/
def found (slots : List Slot) (si gseq j : Nat) (t : Slot) : Prop :=
  slots[j]? = some t ∧ t.isOpen = true ∧ t.si = si ∧ t.gseq = gseq ∧
    ∀ (i : Nat) (u : Slot), i < j → slots[i]? = some u → ¬(u.isOpen = true ∧ u.si = si ∧ u.gseq = gseq)

/-- No OPEN slot has the key: NOSLOT (43_group_assembler.md R161). -/
def noSlot (slots : List Slot) (si gseq : Nat) : Prop :=
  ∀ t ∈ slots, ¬(t.isOpen = true ∧ t.si = si ∧ t.gseq = gseq)

/-- Slot `j` is the lowest FREE one (43_group_assembler.md R168). -/
def lowestFree (slots : List Slot) (j : Nat) : Prop :=
  (∃ t, slots[j]? = some t ∧ t.isOpen = false) ∧ ∀ (i : Nat) (u : Slot), i < j → slots[i]? = some u → u.isOpen = true

/-- Every slot is OPEN and slot `j`, holding `t`, is the lowest of the longest idle (43_group_assembler.md R168). -/
def victim (slots : List Slot) (j : Nat) (t : Slot) : Prop :=
  (∀ u ∈ slots, u.isOpen = true) ∧ slots[j]? = some t ∧ (∀ u ∈ slots, u.idle ≤ t.idle) ∧
    ∀ (i : Nat) (u : Slot), i < j → slots[i]? = some u → u.idle < t.idle

/-- The slot a FIRST block opens (43_group_assembler.md R162). -/
def freshSlot (d : DecodedBlock) : Slot :=
  { state := .opened, si := d.si, gseq := d.gseq, nextPos := 1, idle := 0
    degraded := !d.valid, corrected := d.fec == .corrected, blocks := [d.info] }

/-- The items of a group that is complete (44_service_output.md R191, R193). -/
def groupOut (s : State) (si gseq : Nat) (degraded corrected : Bool) (blocks : List BitSeq) : List Item :=
  if s.allowEn = true ∧ allowBit s si = false then []
  else
    (if degraded then [Item.event .degradedGroupEmitted (eventArg si) (eventArg gseq) (eventArg blocks.length) 0] else []) ++
      [Item.record si gseq degraded corrected blocks.length blocks.flatten]

/-- The window after the shift of a BIT command (10_state.md R23). -/
def shifted (s : State) (b : Bool) : BitSeq := s.win.drop 1 ++ [b]

/-- The BIT command fills the window, or finds it full (10_state.md R24). -/
def fills (s : State) : Prop := s.fill + 1 = s.cfg.blockLen ∨ s.fill = s.cfg.blockLen

/-- The table entry the BIC field of the shifted window matches (41_frame_sync.md R123). -/
def windowMatch (s : State) (b : Bool) : Option Nat := bicMatch s.cfg (val ((shifted s b).take s.cfg.wBic))

/-- The event is one of the synchronizer's (44_service_output.md R196, codes 1 and 2). -/
def isSyncEvent : Item → Bool
  | .event .syncLost _ _ _ _ => true
  | .event .syncAcquired _ _ _ _ => true
  | _ => false

/-- An error pattern within the correction radius (42_block_decoder.md R143). -/
def inRadius (c : Cfg) (e : BitSeq) : Prop := e.length = c.codeLen ∧ 1 ≤ wt e ∧ wt e ≤ c.fecT

/-- The checksum of a corrected word is right, or there is none (42_block_decoder.md R146). -/
def checksumRight (c : Cfg) (r : BitSeq) : Prop := c.wCrc = 0 ∨ pmod (val (r.take (c.wInfo + c.wCrc))) c.crcP = 0

/-- What the decoder answers when correction gave `outcome`, `word`, `nflips` (42_block_decoder.md R144, R146, R147, R149). -/
def decodedAs (c : Cfg) (d : DecodedBlock) (outcome : FecOutcome) (word : BitSeq) (nflips : Nat) : Prop :=
  d.fec = outcome ∧ d.nflips = nflips ∧ d.info = word.take c.wInfo ∧
    (d.crcOk = true ↔ checksumRight c word) ∧
    (d.valid = true ↔ outcome ≠ .uncorrectable ∧ checksumRight c word) ∧
    d.si = val ((d.info.drop c.siOff).take c.wSi) ∧ d.gseq = val ((d.info.drop c.gseqOff).take c.wGseq) ∧
    d.pos = val ((d.info.drop c.posOff).take c.wPos)

/-- The header fields of an information field (30_encoding.md R82). -/
def headerOf (c : Cfg) (info : BitSeq) : Nat × Nat × Nat :=
  (val ((info.drop c.siOff).take c.wSi), val ((info.drop c.gseqOff).take c.wGseq), val ((info.drop c.posOff).take c.wPos))

/-- Block `f` of role `r` neither takes, frees nor opens slot `i`: a FIRST block at position 0 has another key than an OPEN
slot `i` and does not get slot `i` by allocation (43_group_assembler.md R162, R168), a CONT block is not appended to it
(R163), a LAST block neither completes nor abandons its group (R164, R165). Any other block is dropped (R166, R167). -/
def leavesSlot (s : State) (i : Nat) (r : Role) (f : BlockFields) : Prop :=
  let d := blockDecode s.cfg r (decide (r = .none)) f
  match r with
  | .none => True
  | .first =>
    d.pos = 0 →
      (noSlot s.slots d.si d.gseq → ¬lowestFree s.slots i ∧ ∀ t, ¬victim s.slots i t) ∧
      ∀ (j : Nat) (t : Slot), found s.slots d.si d.gseq j t →
        j ≠ i ∧ ¬lowestFree (s.slots.set j { t with state := .free }) i
  | .cont => ∀ t, found s.slots d.si d.gseq i t → d.pos ≠ t.nextPos
  | .last => ∀ t, found s.slots d.si d.gseq i t → d.pos ≠ 0 ∧ d.pos ≠ t.nextPos

/-- The instructions of a list of blocks. -/
def blockInstrs (blks : List (Role × BlockFields)) : List Instr := blks.map fun (r, f) => blockInstr r f

/-- Each block of the list, in the state it runs in, leaves slot `i` as it is. -/
def allLeaveSlot (s : State) (i : Nat) (blks : List (Role × BlockFields)) : Prop :=
  ∀ (pre post : List (Role × BlockFields)) (r : Role) (f : BlockFields) (u : State), blks = pre ++ (r, f) :: post →
    execSeq (blockInstrs pre) s = .next u → leavesSlot u i r f

/-- The stream bits of a group: its reference blocks back to back, FIRST, then CONT, then LAST (30_encoding.md R85). -/
def groupBits (c : Cfg) (first cont last : Nat) (infos : List BitSeq) : BitSeq :=
  (infos.zipIdx.map fun (info, p) =>
    refBlock c (if p = 0 then first else if p + 1 = infos.length then last else cont) info).flatten

/-- Bit `k` of a register is reserved (10_state.md R34, R38). -/
def reservedBit (c : Cfg) : RegName → Nat → Bool
  | .allowCtrl, k => decide (1 ≤ k)
  | .allowMask j, k => decide (2 ^ c.wSi ≤ 16 * j + k)
  | _, _ => false

/-- Two slot lists that differ only in fields of FREE slots other than `state` (10_state.md R41). -/
def sameOpen (xs ys : List Slot) : Prop :=
  xs.length = ys.length ∧
    ∀ (i : Nat) (t u : Slot), xs[i]? = some t → ys[i]? = some u → (t.isOpen = false ∧ u.isOpen = false) ∨ t = u

end Sys2Proof.Claim

open Sys2Proof Sys2Proof.Machine Sys2Proof.Claim

/-! ### Encoding -/

/-- Decoding an encoded well-formed instruction gives it back (30_encoding.md R70 to R84), for every `Cfg`. -/
def Obligations.DecodeOfEncodeGivesInstruction : Prop :=
  ∀ (c : Cfg) (i : Instr), i.wf c = true → decode c (encode i) = .ok i

/-- What decodes is the encoding of a well-formed instruction: each word has one meaning (30_encoding.md R78). -/
def Obligations.EncodeOfDecodeGivesCode : Prop :=
  ∀ (c : Cfg) (k : Code) (i : Instr), decode c k = .ok i → encode i = k ∧ i.wf c = true

/-- 30_encoding.md R71 to R76: a word is the instruction of a row, with the fields of its format, exactly when
`c & mask = match`, and refused (ILLEGAL, R78) exactly when it matches no row. -/
def Obligations.WordDecodesByMatchAndMask : Prop :=
  ∀ w : Word,
    (decodeCommand w = .ok .nop ↔ w &&& 0xFFFFFFFF#32 = 0x00000000#32) ∧
    (decodeCommand w = .ok (.bit (w.getLsbD 0)) ↔ w &&& 0xFFFFFFFE#32 = 0x10000000#32) ∧
    (decodeCommand w = .ok .eos ↔ w &&& 0xFFFFFFFF#32 = 0x20000000#32) ∧
    (decodeCommand w = .ok .stop ↔ w &&& 0xFFFFFFFF#32 = 0x30000000#32) ∧
    (decodeCommand w = .ok .reset ↔ w &&& 0xFFFFFFFF#32 = 0x40000000#32) ∧
    (decodeCommand w = .ok .start ↔ w &&& 0xFFFFFFFF#32 = 0x50000000#32) ∧
    (decodeCommand w = .ok (.cfgwr (w.extractLsb' 20 8) (w.extractLsb' 0 16)) ↔
      w &&& 0xF00F0000#32 = 0x60000000#32) ∧
    (decodeCommand w = .ok (.rdreg (w.extractLsb' 20 8)) ↔ w &&& 0xF00FFFFF#32 = 0x70000000#32) ∧
    ((∃ e, decodeCommand w = .error e) ↔ illegal w)

/-- 30_encoding.md R77: which words are illegal, and what an illegal word does in every phase. -/
def Obligations.IllegalWordFaultsOrIsIgnored : Prop :=
  (∀ w : Word, illegal w ↔ 8 ≤ (w >>> 28).toNat ∨ w &&& zeroMask (w >>> 28).toNat ≠ 0#32) ∧
  ∀ (s : State) (w : Word) (rest : List Word), s.port = w :: rest → illegal w →
    step s = .next (if s.phase = .fault then { s with port := rest } else taking .illegalCmd { s with port := rest })

/-- 30_encoding.md R90: the example words, and the example block in profile TOY. -/
def Obligations.ExampleWordsDecode : Prop :=
  decodeCommand 0x10000001#32 = .ok (.bit true) ∧
  decodeCommand 0x60100002#32 = .ok (asmCfgwr .missTol 2) ∧
  decodeCommand 0x61000080#32 = .ok (asmCfgwr (.allowMask 0) 0x0080) ∧
  decodeCommand 0x70000000#32 = .ok (asmRdreg .status) ∧
  decodeCommand 0x70600000#32 = .ok (asmRdreg .fill) ∧
  pseudoBlk Config.toy .first 7 2 0 0xA = pseudoBits (seq 33 0x0B4E415CD) ∧
  decodeBlock Config.toy (seq 33 0x0B4E415CD) =
    .ok (.blkFirst ⟨seq 8 0x5A, seq 16 0x720A, seq 4 0xE, seq 5 0b01101⟩)

/-! ### The step, faults and phases -/

/-- The oldest pending command word is decoded and executed, and is no longer pending (20_memory.md R62). -/
def Obligations.StepRunsDecodedCommand : Prop :=
  ∀ (s : State) (w : Word) (rest : List Word) (i : Instr), s.port = w :: rest → decodeCommand w = .ok i →
    step s = exec i { s with port := rest }

/-- With no pending word nothing changes. The model's choice: log 2. -/
def Obligations.StepWithNoPendingWordWaits : Prop :=
  ∀ s : State, s.port = [] → step s = .next s

/-- 70_reset_and_hazards.md R236: every command completes. -/
def Obligations.EveryStepCompletes : Prop :=
  ∀ s : State, ∃ t, step s = .next t

/-- 60_exceptions.md R211: the first check that fails decides the fault, all checks precede all effects, a word that
passes them raises no fault, and no fault is raised in FAULT. -/
def Obligations.FirstFailingCheckDecidesFault : Prop :=
  ∀ (s : State) (w : Word) (rest : List Word), s.port = w :: rest →
    (s.phase = .fault → ∃ t, step s = .next t ∧ ∀ c, .fault c ∉ t.out.drop s.out.length) ∧
    (∀ c, s.phase ≠ .fault → faultOf s w = some c → step s = .next (taking c { s with port := rest })) ∧
    (s.phase ≠ .fault → faultOf s w = none → ∃ t, step s = .next t ∧ t.phase ≠ .fault)

/-- 60_exceptions.md R216: in FAULT only NOP, RESET and RDREG of a mapped address run. -/
def Obligations.FaultPhaseIgnoresOtherWords : Prop :=
  ∀ (s : State) (w : Word) (rest : List Word), s.port = w :: rest → s.phase = .fault →
    step s = .next
      (match decodeCommand w with
       | .ok .reset => { State.resetWith s.cfg with port := rest, out := s.out }
       | .ok (.rdreg a) =>
         match regAt s.cfg a with
         | some r => { s with port := rest, out := s.out ++ [.regval a (regRead s r)] }
         | none => { s with port := rest }
       | _ => { s with port := rest })

/-- 60_exceptions.md R215: only RESET leaves FAULT, and nothing is restored. -/
def Obligations.OnlyResetLeavesFault : Prop :=
  ∀ s t : State, s.phase = .fault → step s = .next t → t.phase ≠ .fault →
    ∃ w rest, s.port = w :: rest ∧ decodeCommand w = .ok .reset ∧
      t = { State.resetWith s.cfg with port := rest, out := s.out }

/-- 60_exceptions.md R206: a step that enters FAULT changes `PHASE` and `FAULT_CAUSE`, outputs FAULT, and nothing else. -/
def Obligations.FaultEntryIsPrecise : Prop :=
  ∀ s t : State, s.phase ≠ .fault → step s = .next t → t.phase = .fault →
    ∃ c w rest, s.port = w :: rest ∧ t = taking c { s with port := rest }

/-- Which commands change the phase, and how (10_state.md R21, 40_commands.md R103, R105 to R107, 60_exceptions.md R206). -/
def Obligations.PhaseChangesOnlyByItsCommands : Prop :=
  ∀ s t : State, step s = .next t → t.phase ≠ s.phase →
    (s.phase = .config ∧ t.phase = .run ∧ s.port.head?.map decodeCommand = some (.ok .start)) ∨
    (s.phase = .run ∧ t.phase = .drained ∧ s.port.head?.map decodeCommand = some (.ok .eos)) ∨
    (s.phase = .run ∧ t.phase = .halted ∧ s.port.head?.map decodeCommand = some (.ok .stop)) ∨
    (t.phase = .config ∧ s.port.head?.map decodeCommand = some (.ok .reset)) ∨
    (s.phase ≠ .fault ∧ t.phase = .fault)

/-- 20_memory.md R65: `Cfg` never changes, and a configuration register changes only by CFGWR in CONFIG or by RESET. -/
def Obligations.ConfigurationChangesOnlyInConfig : Prop :=
  ∀ s t : State, step s = .next t →
    t.cfg = s.cfg ∧
    (¬(t.missTol = s.missTol ∧ t.grpTimeout = s.grpTimeout ∧ t.srcSel = s.srcSel ∧ t.allowEn = s.allowEn ∧
        t.allowMask = s.allowMask) →
      s.port.head?.map decodeCommand = some (.ok .reset) ∨
      (s.phase = .config ∧ ∃ a d, s.port.head?.map decodeCommand = some (.ok (.cfgwr a d))))

/-- 20_memory.md R55: a step appends items to the output stream and never reads it. -/
def Obligations.OutputIsAppendedAndNeverRead : Prop :=
  ∀ s : State, ∃ (items : List Item) (t : State), ∀ o : List Item, step { s with out := o } = .next { t with out := o ++ items }

/-- 10_state.md R33: no rule of the device reads `SRC_SEL`; only RDREG of its address shows it. -/
def Obligations.SrcSelIsNeverRead : Prop :=
  ∀ (s t : State) (v : Reg16), step s = .next t → s.port.head?.map decodeCommand ≠ some (.ok (.rdreg 0x03)) →
    ∃ v', step { s with srcSel := v } = .next { t with srcSel := v' }

/-- 10_state.md R41: a slot that became FREE keeps nothing that a later rule reads. -/
def Obligations.FreeSlotFieldsAreNeverRead : Prop :=
  ∀ (s t : State) (slots : List Slot), sameOpen s.slots slots → step s = .next t →
    ∃ slots', sameOpen t.slots slots' ∧ step { s with slots := slots } = .next { t with slots := slots' }

/-! ### Reset and the invariants -/

/-- 10_state.md R45: the reset value of every element, at power-on and after the RESET command, for every `Cfg`. -/
def Obligations.ResetValues : Prop :=
  ∀ (c : Cfg) (before s : State), s = State.resetWith c ∨ (before.cfg = c ∧ exec .reset before = .next s) →
    s.cfg = c ∧ s.phase = .config ∧ s.faultCause = none ∧ s.missTol = 3 ∧ s.grpTimeout = 16 ∧ s.srcSel = 0 ∧
      s.allowEn = false ∧ s.allowMask = List.replicate c.numAllow 0 ∧ s.win = List.replicate c.blockLen false ∧
      s.fill = 0 ∧ s.sync = .unsynchronized ∧ s.missCnt = 0 ∧
      s.slots = List.replicate c.nAcc ⟨.free, 0, 0, 1, 0, false, false, []⟩

/-- 40_commands.md R107: RESET gives the reset state in every phase; the output already produced is not retracted. That
the pending words stay is the model's choice: log 3. -/
def Obligations.ResetCommandGivesResetState : Prop :=
  ∀ s : State, exec .reset s = .next { State.resetWith s.cfg with port := s.port, out := s.out }

/-- The reset state of every `Cfg` satisfies the invariant. -/
def Obligations.InvariantHoldsAtReset : Prop :=
  ∀ c : Cfg, (State.resetWith c).Inv

/-- 10_state.md R47: the invariants hold after reset and every step keeps them. -/
def Obligations.EveryStepKeepsInvariant : Prop :=
  (∀ c : Cfg, (State.resetWith c).Inv) ∧ ∀ s t : State, s.Inv → step s = .next t → t.Inv

/-- 70_reset_and_hazards.md R232: START straight after reset succeeds for every well-formed `Cfg`. -/
def Obligations.StartAfterResetSucceeds : Prop :=
  ∀ c : Cfg, cfgWf c = true → exec .start (State.resetWith c) = .next { State.resetWith c with phase := .run }

/-! ### Commands -/

/-- 40_commands.md R101: NOP leaves the state and the output stream unchanged, in every phase. -/
def Obligations.NopChangesNothing : Prop :=
  encode .nop = .command 0x00000000#32 ∧ ∀ s : State, exec .nop s = .next s

/-- 40_commands.md R103, R110: START in every phase. -/
def Obligations.StartChecksConfigurationAndRuns : Prop :=
  encode .start = .command 0x50000000#32 ∧ ∀ s : State,
    (s.phase = .config → cfgWf s.cfg = true → 1 ≤ s.missTol.toNat → 1 ≤ s.grpTimeout.toNat →
      exec .start s = .next { s with phase := .run }) ∧
    (s.phase = .config → ¬(cfgWf s.cfg = true ∧ 1 ≤ s.missTol.toNat ∧ 1 ≤ s.grpTimeout.toNat) →
      exec .start s = .next (taking .cfgInvalid s)) ∧
    (s.phase ≠ .config → s.phase ≠ .fault → exec .start s = .next (taking .badPhase s)) ∧
    (s.phase = .fault → exec .start s = .next s)

/-- 00_scope.md R9: what `wf(Cfg)` says, item by item, and that START faults where it does not hold. -/
def Obligations.WellFormedCfgMeansItsSixItems : Prop :=
  ∀ c : Cfg,
    (∀ s : State, s.cfg = c → s.phase = .config → cfgWf c = false → exec .start s = .next (taking .cfgInvalid s)) ∧
    (cfgWf c = true ↔
    (1 ≤ c.wBic ∧ 1 ≤ c.wInfo ∧ 1 ≤ c.wPar ∧ c.wBic + c.wInfo + c.wCrc + c.wPar ≤ 65535 ∧ c.bicTab ≠ [] ∧
      2 * c.bicTol < c.wBic ∧ c.wSi ∈ Set.Icc 1 11 ∧ c.wGseq ∈ Set.Icc 1 16 ∧ c.wPos ∈ Set.Icc 1 16 ∧
      c.nAcc ∈ Set.Icc 1 65535) ∧
    ((∀ e ∈ c.bicTab, e.value < 2 ^ c.wBic) ∧
      ∀ (i j : Nat) (e f : BicEntry), i < j → c.bicTab[i]? = some e → c.bicTab[j]? = some f →
        2 * c.bicTol + 1 ≤ ham c.wBic e.value f.value) ∧
    (c.fecG < 2 ^ (c.wPar + 1) ∧ c.fecG.testBit c.wPar = true ∧ c.fecG.testBit 0 = true) ∧
    (∀ e, inRadius c e → syn c e ≠ 0 ∧ ∀ e', inRadius c e' → syn c e = syn c e' → e = e') ∧
    (0 < c.wCrc → c.crcP < 2 ^ (c.wCrc + 1) ∧ c.crcP.testBit c.wCrc = true ∧ c.crcP.testBit 0 = true) ∧
    ((c.siOff + c.wSi ≤ c.wInfo ∧ c.gseqOff + c.wGseq ≤ c.wInfo ∧ c.posOff + c.wPos ≤ c.wInfo) ∧
      ∀ k, ¬(k ∈ Set.Ico c.siOff (c.siOff + c.wSi) ∧ k ∈ Set.Ico c.gseqOff (c.gseqOff + c.wGseq)) ∧
        ¬(k ∈ Set.Ico c.siOff (c.siOff + c.wSi) ∧ k ∈ Set.Ico c.posOff (c.posOff + c.wPos)) ∧
        ¬(k ∈ Set.Ico c.gseqOff (c.gseqOff + c.wGseq) ∧ k ∈ Set.Ico c.posOff (c.posOff + c.wPos))))

/-- 10_state.md R29, 20_memory.md R52: exactly these addresses are mapped, each to its register. -/
def Obligations.AddressMapIsTheRegisterTable : Prop :=
  ∀ (c : Cfg) (a : Addr) (r : RegName), regAt c a = some r ↔
    (a = 0x00 ∧ r = .status) ∨ (a = 0x01 ∧ r = .missTol) ∨ (a = 0x02 ∧ r = .grpTimeout) ∨ (a = 0x03 ∧ r = .srcSel) ∨
    (a = 0x04 ∧ r = .allowCtrl) ∨ (a = 0x05 ∧ r = .missCnt) ∨ (a = 0x06 ∧ r = .fill) ∨ (a = 0x07 ∧ r = .openCnt) ∨
    (∃ j, j < c.numAllow ∧ a.toNat = 0x10 + j ∧ r = .allowMask j)

/-- 40_commands.md R104: CFGWR in every phase and at every address. -/
def Obligations.CfgwrWritesItsRegister : Prop :=
  ∀ (s : State) (a : Addr) (d : Reg16),
    encode (.cfgwr a d) = .command (0x60000000#32 ||| a.setWidth 32 <<< 20 ||| d.setWidth 32) ∧
    (s.phase = .config → a = 0x01 → exec (.cfgwr a d) s = .next { s with missTol := d }) ∧
    (s.phase = .config → a = 0x02 → exec (.cfgwr a d) s = .next { s with grpTimeout := d }) ∧
    (s.phase = .config → a = 0x03 → exec (.cfgwr a d) s = .next { s with srcSel := d }) ∧
    (s.phase = .config → a = 0x04 → exec (.cfgwr a d) s = .next { s with allowEn := d.getLsbD 0 }) ∧
    (∀ j, s.phase = .config → j < s.cfg.numAllow → a.toNat = 0x10 + j →
      ∃ v, exec (.cfgwr a d) s = .next { s with allowMask := s.allowMask.set j v } ∧
        ∀ k, k < 16 → v.getLsbD k = (d.getLsbD k && decide (16 * j + k < 2 ^ s.cfg.wSi))) ∧
    (s.phase = .config → writable s.cfg a = false → exec (.cfgwr a d) s = .next (taking .badAddr s)) ∧
    (s.phase ≠ .config → s.phase ≠ .fault → exec (.cfgwr a d) s = .next (taking .badPhase s)) ∧
    (s.phase = .fault → exec (.cfgwr a d) s = .next s)

/-- 10_state.md R39, 20_memory.md R52: a reserved bit reads 0; what is read back after a CFGWR, bit by bit; every other
register reads as before. -/
def Obligations.CfgwrThenReadGivesWritableBits : Prop :=
  ∀ s : State, s.Inv →
    (∀ (r : RegName) (k : Nat), k < 16 → reservedBit s.cfg r k = true → (regRead s r).getLsbD k = false) ∧
    ∀ (a : Addr) (d : Reg16) (r : RegName), s.phase = .config → writable s.cfg a = true → regAt s.cfg a = some r →
      ∃ t, exec (.cfgwr a d) s = .next t ∧ t.phase = .config ∧
        (∀ k, k < 16 → (regRead t r).getLsbD k = (d.getLsbD k && !reservedBit s.cfg r k)) ∧
        ∀ r', r' ≠ r → regRead t r' = regRead s r'

/-- 40_commands.md R105: EOS in every phase. -/
def Obligations.EosFlushesOpenGroups : Prop :=
  encode .eos = .command 0x20000000#32 ∧ ∀ s : State,
    (s.phase = .run →
      exec .eos s = .next
        { s with
          fill := 0
          phase := .drained
          slots := s.slots.map fun t => if t.isOpen then { t with state := .free } else t
          out := s.out ++ ((s.slots.filter Slot.isOpen).map fun t => abandoned t 3) ++ [.endOfStream] }) ∧
    (s.phase ≠ .run → s.phase ≠ .fault → exec .eos s = .next (taking .badPhase s)) ∧
    (s.phase = .fault → exec .eos s = .next s)

/-- 40_commands.md R106: STOP in every phase. -/
def Obligations.StopDiscardsSilently : Prop :=
  encode .stop = .command 0x30000000#32 ∧ ∀ s : State,
    (s.phase = .run →
      exec .stop s = .next
        { s with fill := 0, phase := .halted, slots := s.slots.map fun t => { t with state := .free } }) ∧
    (s.phase ≠ .run → s.phase ≠ .fault → exec .stop s = .next (taking .badPhase s)) ∧
    (s.phase = .fault → exec .stop s = .next s)

/-- 40_commands.md R108: RDREG in every phase and at every address. -/
def Obligations.RdregAnswersRegisterValue : Prop :=
  ∀ (s : State) (a : Addr),
    encode (.rdreg a) = .command (0x70000000#32 ||| a.setWidth 32 <<< 20) ∧
    (∀ r, regAt s.cfg a = some r → exec (.rdreg a) s = .next { s with out := s.out ++ [.regval a (regRead s r)] }) ∧
    (mapped s.cfg a = false → s.phase ≠ .fault → exec (.rdreg a) s = .next (taking .badAddr s)) ∧
    (mapped s.cfg a = false → s.phase = .fault → exec (.rdreg a) s = .next s)

/-- 10_state.md R30, R35 to R37: the read-only views, in every state that satisfies the invariant of a well-formed `Cfg`
none of the counters is truncated. -/
def Obligations.StatusViewsShowState : Prop :=
  (∀ c : Cfg, regRead (State.resetWith c) .status = 0x0000#16) ∧
  ∀ s : State, s.Inv → cfgWf s.cfg = true →
    (regRead s .status).extractLsb' 0 3 = BitVec.ofNat 3 s.phase.code ∧
    (regRead s .status).getLsbD 3 = (s.sync == .synchronized) ∧
    ((regRead s .status).extractLsb' 4 4).toNat = causeCode s.faultCause ∧
    (regRead s .status).extractLsb' 8 8 = 0#8 ∧
    (regRead s .missCnt).toNat = s.missCnt ∧
    (regRead s .fill).toNat = s.fill ∧
    (regRead s .openCnt).toNat = (s.slots.filter Slot.isOpen).length

/-- 44_service_output.md R195: an event argument is the 16-bit number, wherever it fits. -/
def Obligations.EventArgumentIsTheNumber : Prop :=
  ∀ n, n < 65536 → (eventArg n).toNat = n

/-! ### BIT: the frame synchronizer -/

/-- 40_commands.md R102 outside RUN: BAD_PHASE, ignored in FAULT. -/
def Obligations.BitOutsideRunFaults : Prop :=
  ∀ (s : State) (b : Bool),
    (s.phase ≠ .run → s.phase ≠ .fault → exec (.bit b) s = .next (taking .badPhase s)) ∧
    (s.phase = .fault → exec (.bit b) s = .next s)

/-- 10_state.md R23, R24, 41_frame_sync.md R123: while the window is not full a BIT command shifts and counts. -/
def Obligations.BitCollectsBelowFullWindow : Prop :=
  ∀ (s : State) (b : Bool), s.phase = .run → s.fill + 1 < s.cfg.blockLen →
    exec (.bit b) s = .next { s with win := shifted s b, fill := s.fill + 1 }

/-- 41_frame_sync.md R124: while scanning, the full window slides and nothing is output where no table entry matches; on
a match lock is acquired and the block runs as the instruction of the entry's role. -/
def Obligations.ScanStepFollowsItsRule : Prop :=
  ∀ (s : State) (b : Bool), s.phase = .run → fills s → s.sync = .unsynchronized →
    (windowMatch s b = none → exec (.bit b) s = .next { s with win := shifted s b, fill := s.cfg.blockLen }) ∧
    (∀ i, windowMatch s b = some i →
      ∃ t, exec (blockInstr (roleAt s.cfg i) (splitBlock s.cfg (shifted s b)))
          { s with
            win := shifted s b, fill := s.cfg.blockLen, sync := .synchronized, missCnt := 0
            out := s.out ++ [.event .syncAcquired (eventArg i) 0 0 0] } = .next t ∧
        exec (.bit b) s = .next { t with fill := 0 })

/-- 41_frame_sync.md R125: a hit in lock clears the miss counter and runs the block. -/
def Obligations.LockedHitRunsBlock : Prop :=
  ∀ (s : State) (b : Bool) (i : Nat), s.phase = .run → fills s → s.sync = .synchronized →
    windowMatch s b = some i →
    ∃ t, exec (blockInstr (roleAt s.cfg i) (splitBlock s.cfg (shifted s b)))
        { s with win := shifted s b, fill := s.cfg.blockLen, missCnt := 0 } = .next t ∧
      exec (.bit b) s = .next { t with fill := 0 }

/-- 41_frame_sync.md R126, R127: a miss in lock counts, drops lock on the `MISS_TOL`-th, and runs the block as NONE. -/
def Obligations.LockedMissCountsOrLosesLock : Prop :=
  ∀ (s : State) (b : Bool), s.phase = .run → fills s → s.sync = .synchronized → windowMatch s b = none →
    ∃ t, exec (.blkNone (splitBlock s.cfg (shifted s b)))
        (if s.missCnt + 1 = s.missTol.toNat then
          { s with
            win := shifted s b, fill := s.cfg.blockLen, sync := .unsynchronized, missCnt := 0
            out := s.out ++ [.event .syncLost 0 0 0 0] }
         else { s with win := shifted s b, fill := s.cfg.blockLen, missCnt := s.missCnt + 1 }) = .next t ∧
      exec (.bit b) s = .next { t with fill := 0 }

/-- 41_frame_sync.md R130: the table of the state machine. `ev` is the synchronizer's own event, before the items of the
block. -/
def Obligations.SynchronizerFollowsItsTable : Prop :=
  ∀ (s : State) (b : Bool), s.Inv → s.phase = .run → fills s →
    ∃ (t : State) (ev items : List Item), exec (.bit b) s = .next t ∧ t.out = s.out ++ ev ++ items ∧
      (∀ x ∈ items, isSyncEvent x = false) ∧
      match s.sync, windowMatch s b with
      | .unsynchronized, none =>
        ev = [] ∧ items = [] ∧ t.slots = s.slots ∧ t.sync = .unsynchronized ∧ t.missCnt = 0 ∧ t.fill = s.cfg.blockLen
      | .unsynchronized, some i =>
        ev = [.event .syncAcquired (eventArg i) 0 0 0] ∧ t.sync = .synchronized ∧ t.missCnt = 0 ∧ t.fill = 0
      | .synchronized, some _ => ev = [] ∧ t.sync = .synchronized ∧ t.missCnt = 0 ∧ t.fill = 0
      | .synchronized, none =>
        if s.missCnt < s.missTol.toNat - 1 then
          ev = [] ∧ t.sync = .synchronized ∧ t.missCnt = s.missCnt + 1 ∧ t.fill = 0
        else
          s.missCnt = s.missTol.toNat - 1 ∧ ev = [.event .syncLost 0 0 0 0] ∧ t.sync = .unsynchronized ∧
            t.missCnt = 0 ∧ t.fill = 0

/-- The frame of BIT in RUN (40_commands.md R102, 41_frame_sync.md R132): it completes, whatever the bits, and changes
the window, the synchronizer, the slots and the output only. -/
def Obligations.BitFrame : Prop :=
  ∀ (s : State) (b : Bool), s.phase = .run →
    ∃ t, exec (.bit b) s = .next t ∧
      t = { s with
            win := shifted s b, fill := t.fill, sync := t.sync, missCnt := t.missCnt, slots := t.slots, out := t.out } ∧
      t.slots.length = s.slots.length

/-- 41_frame_sync.md R122: `bic_match` gives the one entry within `BIC_TOL`; with `BIC_TOL = 0` the one that is equal. -/
def Obligations.BicMatchIsTheUniqueEntryInTolerance : Prop :=
  ∀ (c : Cfg) (w : Nat), cfgWf c = true → w < 2 ^ c.wBic →
    (∀ (i j : Nat) (e f : BicEntry), c.bicTab[i]? = some e → c.bicTab[j]? = some f → ham c.wBic w e.value ≤ c.bicTol →
      ham c.wBic w f.value ≤ c.bicTol → i = j) ∧
    (∀ i, bicMatch c w = some i ↔ ∃ e : BicEntry, c.bicTab[i]? = some e ∧ ham c.wBic w e.value ≤ c.bicTol) ∧
    (c.bicTol = 0 → ∀ i, bicMatch c w = some i ↔ ∃ e : BicEntry, c.bicTab[i]? = some e ∧ w = e.value)

/-- 41_frame_sync.md R131, the recovery bound: from `FILL = 0` without lock, `pre` (fewer than `L` bits) and then a block
whose BIC matches, with no earlier window matching: lock is regained at the last bit of the block, within `2L - 1` bits. -/
def Obligations.LockIsRegainedWithinTwoBlocks : Prop :=
  ∀ (s : State) (pre blk : BitSeq) (i : Nat), s.Inv → s.phase = .run → s.sync = .unsynchronized → s.fill = 0 →
    pre.length < s.cfg.blockLen → blk.length = s.cfg.blockLen →
    bicMatch s.cfg (val (blk.take s.cfg.wBic)) = some i →
    (∀ k, k < pre.length → bicMatch s.cfg (val (((pre ++ blk).drop k).take s.cfg.wBic)) = none) →
    (pre ++ blk).length ≤ 2 * s.cfg.blockLen - 1 ∧
    ∃ u t, execSeq (pseudoBits (pre ++ blk).dropLast) s = .next u ∧ u.sync = .unsynchronized ∧ u.out = s.out ∧
      execSeq (pseudoBits (pre ++ blk)) s = .next t ∧ t.sync = .synchronized ∧ t.fill = 0 ∧ t.win = blk

/-! ### The block decoder -/

/-- 00_scope.md R14: `pmod` is the unique small word congruent to the dividend modulo the multiples of `g`, the sums of
shifted copies of `g`. -/
def Obligations.PmodIsTheRemainder : Prop :=
  ∀ a g : Nat, g ≠ 0 → ∀ r : Nat,
    pmod a g = r ↔
      (r < 2 ^ deg g ∧ ∃ shifts : List Nat, a ^^^ r = shifts.foldr (fun k acc => (g <<< k) ^^^ acc) 0)

/-- 42_block_decoder.md R142: the syndrome is a `W_PAR`-bit remainder, it is linear, and that of a single error at position
`i`. -/
def Obligations.SyndromeIsLinear : Prop :=
  ∀ c : Cfg, cfgWf c = true →
    (∀ v : BitSeq, syn c v = pmod (val v) c.fecG ∧ syn c v < 2 ^ c.wPar) ∧
    (∀ u v : BitSeq, u.length = v.length → syn c (xorSeq u v) = syn c u ^^^ syn c v) ∧
    ∀ i, i < c.codeLen →
      syn c (List.replicate i false ++ true :: List.replicate (c.codeLen - 1 - i) false) =
        pmod (2 ^ (c.codeLen - 1 - i)) c.fecG

/-- 30_encoding.md R83, R84: a codeword is a message with its parity, a checksum-correct message an information field
with its checksum. -/
def Obligations.CodewordAndChecksumByRemainder : Prop :=
  ∀ (c : Cfg) (msg par info crc : BitSeq), cfgWf c = true →
    (msg.length = c.msgLen → par.length = c.wPar →
      (syn c (msg ++ par) = 0 ↔ val par = pmod (val msg <<< c.wPar) c.fecG)) ∧
    (0 < c.wCrc → crc.length = c.wCrc →
      (pmod (val (info ++ crc)) c.crcP = 0 ↔ val crc = pmod (val info <<< c.wCrc) c.crcP))

/-- 42_block_decoder.md R144 to R147, R149: the outcome of decoding, in the three cases of the syndrome. -/
def Obligations.DecoderOutcomeFollowsSyndrome : Prop :=
  ∀ (c : Cfg) (role : Role) (suspect : Bool) (f : BlockFields), cfgWf c = true → f.widthsOk c = true →
    (syn c (codeword f) = 0 → decodedAs c (blockDecode c role suspect f) .none (codeword f) 0) ∧
    (∀ e, inRadius c e → syn c (codeword f) = syn c e →
      decodedAs c (blockDecode c role suspect f) .corrected (xorSeq (codeword f) e) (wt e)) ∧
    (syn c (codeword f) ≠ 0 → (∀ e, inRadius c e → syn c (codeword f) ≠ syn c e) →
      decodedAs c (blockDecode c role suspect f) .uncorrectable (codeword f) 0)

/-- 42_block_decoder.md R148: the decoder's events, in order. -/
def Obligations.DecoderEventsInOrder : Prop :=
  ∀ d : DecodedBlock, d.nflips < 65536 →
    decoderEvents d =
      match d.fec, d.crcOk with
      | .none, true => []
      | .none, false => [.event .checksumMismatch 0 0 0 0]
      | .corrected, true => [.event .blockCorrected (BitVec.ofNat 16 d.nflips) 0 0 0]
      | .corrected, false =>
        [.event .blockCorrected (BitVec.ofNat 16 d.nflips) 0 0 0, .event .checksumMismatch 0 0 0 0]
      | .uncorrectable, _ => [.event .blockUncorrectable 0 0 0 0]

/-- 42_block_decoder.md R151 (a), (b): a codeword with a right checksum is accepted, and within the correction radius it
is recovered, marked corrected and valid. -/
def Obligations.ErrorsWithinRadiusAreCorrected : Prop :=
  ∀ (c : Cfg) (role : Role) (suspect : Bool) (f : BlockFields) (sent : BitSeq), cfgWf c = true →
    sent.length = c.codeLen → syn c sent = 0 → checksumRight c sent →
    (codeword f = sent →
      (blockDecode c role suspect f).fec = .none ∧ (blockDecode c role suspect f).valid = true ∧
        (blockDecode c role suspect f).info = sent.take c.wInfo) ∧
    (∀ e, inRadius c e → codeword f = xorSeq sent e →
      (blockDecode c role suspect f).fec = .corrected ∧ (blockDecode c role suspect f).nflips = wt e ∧
        (blockDecode c role suspect f).info = sent.take c.wInfo ∧ (blockDecode c role suspect f).crcOk = true ∧
        (blockDecode c role suspect f).valid = true)

/-- 30_encoding.md R85: a block of the reference encoder decodes to the instruction of its table entry's role, and its
codeword is a codeword with a right checksum that carries the information field. -/
def Obligations.ReferenceBlockIsAccepted : Prop :=
  ∀ (c : Cfg) (info : BitSeq) (e : BicEntry), cfgWf c = true → info.length = c.wInfo → e ∈ c.bicTab →
    ∃ f, decodeBlock c (refBlock c e.value info) = .ok (blockInstr e.role.toRole f) ∧ f.info = info ∧
      codeword f = refCodeword c info ∧ syn c (codeword f) = 0 ∧ checksumRight c (codeword f)

/-! ### The group assembler and the output -/

/-- 43_group_assembler.md R162, R168: a FIRST block. At a position other than 0 it is dropped. At 0 it opens a slot: where
its key is OPEN that group is abandoned first (RESTART); the slot is the lowest FREE one; where none is FREE the longest idle
group is abandoned (EVICTED) and its slot is taken. -/
def Obligations.FirstBlockFollowsItsRule : Prop :=
  ∀ (s : State) (f : BlockFields) (d : DecodedBlock), d = blockDecode s.cfg .first false f →
    (d.pos ≠ 0 → exec (.blkFirst f) s = .next (afterBlock s (decoderEvents d ++ [outOfSequence d]) s.slots none)) ∧
    (∀ j, d.pos = 0 → noSlot s.slots d.si d.gseq → lowestFree s.slots j →
      exec (.blkFirst f) s = .next (afterBlock s (decoderEvents d) (s.slots.set j (freshSlot d)) (some j))) ∧
    (∀ (j : Nat) (t : Slot), d.pos = 0 → noSlot s.slots d.si d.gseq → victim s.slots j t →
      exec (.blkFirst f) s = .next
        (afterBlock s (decoderEvents d ++ [abandoned t 2]) (s.slots.set j (freshSlot d)) (some j))) ∧
    (∀ (j k : Nat) (t : Slot), d.pos = 0 → found s.slots d.si d.gseq j t →
      lowestFree (s.slots.set j { t with state := .free }) k →
      exec (.blkFirst f) s = .next
        (afterBlock s (decoderEvents d ++ [abandoned t 1])
          ((s.slots.set j { t with state := .free }).set k (freshSlot d)) (some k)))

/-- 43_group_assembler.md R163: a CONT block at the position its group waits for is appended; any other is dropped. -/
def Obligations.ContBlockFollowsItsRule : Prop :=
  ∀ (s : State) (f : BlockFields) (d : DecodedBlock), d = blockDecode s.cfg .cont false f →
    (∀ (j : Nat) (t : Slot), found s.slots d.si d.gseq j t → d.pos = t.nextPos →
      exec (.blkCont f) s = .next
        (afterBlock s (decoderEvents d)
          (s.slots.set j
            { t with
              blocks := t.blocks ++ [d.info], nextPos := t.nextPos + 1, idle := 0
              degraded := t.degraded || !d.valid, corrected := t.corrected || (d.fec == .corrected) })
          (some j))) ∧
    ((noSlot s.slots d.si d.gseq ∨ ∃ (j : Nat) (t : Slot), found s.slots d.si d.gseq j t ∧ d.pos ≠ t.nextPos) →
      exec (.blkCont f) s = .next (afterBlock s (decoderEvents d ++ [outOfSequence d]) s.slots none))

/-- 43_group_assembler.md R164, 44_service_output.md R191, R193, R194: a LAST block not at position 0, at the position its
group waits for, completes the group, which is output unless the allow-list filters it; any other is dropped. -/
def Obligations.LastBlockFollowsItsRule : Prop :=
  ∀ (s : State) (f : BlockFields) (d : DecodedBlock), d = blockDecode s.cfg .last false f → 1 ≤ d.pos →
    (∀ (j : Nat) (t : Slot), found s.slots d.si d.gseq j t → d.pos = t.nextPos →
      exec (.blkLast f) s = .next
        (afterBlock s
          (decoderEvents d ++
            groupOut s d.si d.gseq (t.degraded || !d.valid) (t.corrected || (d.fec == .corrected)) (t.blocks ++ [d.info]))
          (s.slots.set j { t with state := .free }) none)) ∧
    ((noSlot s.slots d.si d.gseq ∨ ∃ (j : Nat) (t : Slot), found s.slots d.si d.gseq j t ∧ d.pos ≠ t.nextPos) →
      exec (.blkLast f) s = .next (afterBlock s (decoderEvents d ++ [outOfSequence d]) s.slots none))

/-- 43_group_assembler.md R165: a LAST block at position 0 is a group of one block; an OPEN group of its key is
abandoned first. -/
def Obligations.LastAtPositionZeroIsSingleBlockGroup : Prop :=
  ∀ (s : State) (f : BlockFields) (d : DecodedBlock), d = blockDecode s.cfg .last false f → d.pos = 0 →
    (noSlot s.slots d.si d.gseq →
      exec (.blkLast f) s = .next
        (afterBlock s
          (decoderEvents d ++ groupOut s d.si d.gseq (!d.valid) (d.fec == .corrected) [d.info]) s.slots none)) ∧
    (∀ (j : Nat) (t : Slot), found s.slots d.si d.gseq j t →
      exec (.blkLast f) s = .next
        (afterBlock s
          (decoderEvents d ++ [abandoned t 1] ++ groupOut s d.si d.gseq (!d.valid) (d.fec == .corrected) [d.info])
          (s.slots.set j { t with state := .free }) none))

/-- 43_group_assembler.md R166: a sync-suspect block is decoded, dropped whatever its header says, and ages every group. -/
def Obligations.SuspectBlockIsDropped : Prop :=
  ∀ (s : State) (f : BlockFields) (d : DecodedBlock), d = blockDecode s.cfg .none true f →
    exec (.blkNone f) s = .next (afterBlock s (decoderEvents d ++ [outOfSequence d]) s.slots none)

/-- The frame of the four block instructions (10_state.md R42): only slots and output change, and output only grows. -/
def Obligations.BlockInstructionFrame : Prop :=
  ∀ (r : Role) (f : BlockFields) (s : State),
    ∃ (t : State) (items : List Item), exec (blockInstr r f) s = .next t ∧ t = { s with slots := t.slots, out := s.out ++ items } ∧
      t.slots.length = s.slots.length

/-- 43_group_assembler.md R170, R174, through suspect blocks, which no slot takes: through `n` of them an OPEN slot only
ages, and it is FREE from the block at which `idle` reaches the timeout. For blocks of every role see
`SlotAgesThroughBlocksItDoesNotTake`. -/
def Obligations.SlotsTimeOutByBlockCount : Prop :=
  ∀ (s : State) (blks : List BlockFields), s.Inv →
    ∃ t, execSeq (blks.map .blkNone) s = .next t ∧
      ∀ (i : Nat) (a : Slot), s.slots[i]? = some a → a.isOpen = true →
        ∃ b : Slot, t.slots[i]? = some b ∧
          (b.isOpen = true ↔ a.idle + blks.length < s.grpTimeout.toNat) ∧
          (b.isOpen = true → b = { a with idle := a.idle + blks.length })

/-- 30_encoding.md R86, 44_service_output.md R193, R194: every RECORD a step outputs is allowed by the allow-list, has
`nblocks` from 1 to `2^W_POS` fields of `W_INFO` bits as payload, and, if degraded, stands right after its
DEGRADED_GROUP_EMITTED event. -/
def Obligations.RecordsAreAllowedAndWhole : Prop :=
  ∀ (s t : State) (pre post : List Item) (si gseq : Nat) (degraded corrected : Bool) (nblocks : Nat) (payload : BitSeq),
    s.Inv → step s = .next t →
    t.out = s.out ++ pre ++ [.record si gseq degraded corrected nblocks payload] ++ post →
    (s.allowEn = true → allowBit s si = true) ∧ 1 ≤ nblocks ∧ nblocks ≤ 2 ^ s.cfg.wPos ∧
      payload.length = nblocks * s.cfg.wInfo ∧ si < 2 ^ s.cfg.wSi ∧ gseq < 2 ^ s.cfg.wGseq ∧
      (degraded = true → ∃ pre', pre = pre' ++
        [.event .degradedGroupEmitted (eventArg si) (eventArg gseq) (eventArg nblocks) 0])

/-- 95_test_vectors.md section 1.1 property 1, for one group: in lock, at the start of a block, with no group in progress,
the bits of the reference blocks of a group of `n` blocks (2 to `2^W_POS`) output exactly its RECORD, with the payload that was
encoded, and leave no group in progress. -/
def Obligations.GroupRoundTripGivesItsRecord : Prop :=
  ∀ (s : State) (si gseq : Nat) (infos : List BitSeq) (first cont last : BicEntry), s.Inv → s.phase = .run →
    s.sync = .synchronized → s.fill = 0 → AllFree s.slots → (s.allowEn = true → allowBit s si = true) →
    2 ≤ infos.length → infos.length ≤ 2 ^ s.cfg.wPos →
    (first ∈ s.cfg.bicTab ∧ first.role = .first) → (cont ∈ s.cfg.bicTab ∧ cont.role = .cont) →
    (last ∈ s.cfg.bicTab ∧ last.role = .last) →
    (∀ (p : Nat) (info : BitSeq), infos[p]? = some info →
      info.length = s.cfg.wInfo ∧ headerOf s.cfg info = (si, gseq, p)) →
    ∃ t, execSeq (pseudoBits (groupBits s.cfg first.value cont.value last.value infos)) s = .next t ∧
      t.out = s.out ++ [.record si gseq false false infos.length infos.flatten] ∧ AllFree t.slots ∧ t.fill = 0 ∧
      t.sync = .synchronized

/-- 43_group_assembler.md R170, R174, through blocks of every role: every delivered block counts, dropped or taken by
another slot. Through a list of blocks each of which, in the state it runs in, leaves slot `i` as it is, an OPEN slot `i`
only ages; from the block at which its `idle` reaches the timeout it is FREE, and it was reported as abandoned (TIMEOUT). -/
def Obligations.SlotAgesThroughBlocksItDoesNotTake : Prop :=
  ∀ (s : State) (blks : List (Role × BlockFields)) (i : Nat) (a : Slot), s.Inv → s.slots[i]? = some a → a.isOpen = true →
    allLeaveSlot s i blks →
    ∃ (t : State) (b : Slot), execSeq (blockInstrs blks) s = .next t ∧ t.slots[i]? = some b ∧
      (b.isOpen = true ↔ a.idle + blks.length < s.grpTimeout.toNat) ∧
      (b.isOpen = true → b = { a with idle := a.idle + blks.length }) ∧
      (b.isOpen = false → ∃ before after, t.out = s.out ++ before ++ [abandoned a 0] ++ after)
end

