-- ==== Sys2Proof/Laws/Bits.lean ====
section
/-! SUPPORT. Small laws of bit sequences, words and polynomials (00_scope.md R12 to R14). -/

namespace Sys2Proof.Machine

/-! ### val, seq, slice -/

@[simp] theorem seq_length (n w : Nat) : (seq n w).length = n := by
  induction n with
  | zero => rfl
  | succ n ih => simp [seq, ih]

@[simp] theorem val_nil : val [] = 0 := rfl

theorem val_append_singleton (s : BitSeq) (b : Bool) : val (s ++ [b]) = 2 * val s + b.toNat := by
  simp [val, List.foldl_append]

theorem val_foldl (s : BitSeq) (a : Nat) :
    s.foldl (fun acc b => 2 * acc + b.toNat) a = a * 2 ^ s.length + val s := by
  induction s generalizing a with
  | nil => simp [val]
  | cons b s ih =>
    simp only [val, List.foldl_cons, List.length_cons, Nat.mul_zero, Nat.zero_add]
    rw [ih, ih b.toNat, Nat.pow_succ]
    ring

theorem val_cons (b : Bool) (s : BitSeq) : val (b :: s) = b.toNat * 2 ^ s.length + val s := by
  simp only [val, List.foldl_cons, Nat.mul_zero, Nat.zero_add]
  exact val_foldl s b.toNat

theorem val_append (s t : BitSeq) : val (s ++ t) = val s * 2 ^ t.length + val t := by
  rw [val, List.foldl_append]
  exact val_foldl t (val s)

theorem val_lt (s : BitSeq) : val s < 2 ^ s.length := by
  induction s with
  | nil => simp
  | cons b s ih =>
    rw [val_cons, List.length_cons, Nat.pow_succ]
    cases b <;> simp <;> omega

/-- Bit `i` of `val(s)` is the bit received `i` before the last (00_scope.md R12). -/
theorem testBit_val (s : BitSeq) (i : Nat) (h : i < s.length) :
    (val s).testBit i = s[s.length - 1 - i]'(by omega) := by
  induction s with
  | nil => simp at h
  | cons b s ih =>
    rw [val_cons]
    have hlt := val_lt s
    by_cases hi : i < s.length
    · rw [Nat.mul_comm, Nat.testBit_two_pow_mul_add _ hlt, if_pos hi, ih hi]
      have : s.length - i = (s.length - 1 - i) + 1 := by omega
      simp [this]
    · simp only [List.length_cons] at h
      obtain rfl : i = s.length := by omega
      rw [Nat.mul_comm, Nat.testBit_two_pow_mul_add _ hlt, if_neg (by omega)]
      cases b <;> simp

theorem seq_getElem (n w i : Nat) (h : i < (seq n w).length) : (seq n w)[i] = w.testBit (n - 1 - i) := by
  induction n generalizing i with
  | zero => simp at h
  | succ n ih =>
    cases i with
    | zero => simp [seq]
    | succ i =>
      simp only [seq, List.getElem_cons_succ]
      rw [ih]
      congr 1
      omega

/-- `seq` undoes `val` (00_scope.md R12). -/
theorem seq_val (s : BitSeq) : seq s.length (val s) = s := by
  apply List.ext_getElem (by simp)
  intro i h1 h2
  rw [seq_getElem, testBit_val _ _ (by omega)]
  congr 1
  omega

/-- `val` undoes `seq` on a word of the width (00_scope.md R12). -/
theorem val_seq {n w : Nat} (h : w < 2 ^ n) : val (seq n w) = w := by
  induction n generalizing w with
  | zero => simp [seq]; omega
  | succ n ih =>
    rw [seq, val_cons, seq_length]
    have hseq : seq n w = seq n (w % 2 ^ n) := by
      apply List.ext_getElem (by simp)
      intro i h1 h2
      simp only [seq_length] at h1
      rw [seq_getElem, seq_getElem, Nat.testBit_mod_two_pow]
      simp; omega
    rw [hseq, ih (Nat.mod_lt _ (by positivity))]
    have h2 : w / 2 ^ n = (w.testBit n).toNat := by
      have : w / 2 ^ n < 2 := by
        rw [Nat.div_lt_iff_lt_mul (by positivity)]
        rw [Nat.pow_succ] at h; omega
      rw [Nat.testBit_eq_decide_div_mod_eq, Nat.mod_eq_of_lt this]
      interval_cases w / 2 ^ n <;> rfl
    rw [← h2]
    exact Nat.div_add_mod' w (2 ^ n)

theorem slice_length (s : BitSeq) (a w : Nat) : (slice s a w).length = min w (s.length - a) := by
  simp [slice]

theorem slice_length_le (s : BitSeq) (a w : Nat) : (slice s a w).length ≤ w := by
  rw [slice_length]; exact Nat.min_le_left _ _

theorem val_slice_lt (s : BitSeq) (a w : Nat) : val (slice s a w) < 2 ^ w :=
  lt_of_lt_of_le (val_lt _) (Nat.pow_le_pow_right (by decide) (slice_length_le s a w))

@[simp] theorem xorSeq_length (s t : BitSeq) : (xorSeq s t).length = min s.length t.length := by
  simp [xorSeq]

/-- `val` turns `⊕` of sequences into `⊕` of words. -/
theorem val_xorSeq {s t : BitSeq} (h : s.length = t.length) : val (xorSeq s t) = val s ^^^ val t := by
  apply Nat.eq_of_testBit_eq
  intro i
  rw [Nat.testBit_xor]
  by_cases hi : i < s.length
  · rw [testBit_val _ _ (by simp; omega), testBit_val _ _ hi, testBit_val _ _ (by omega)]
    simp [xorSeq, h]
  · have hs : val s < 2 ^ i := lt_of_lt_of_le (val_lt s) (Nat.pow_le_pow_right (by decide) (by omega))
    have ht : val t < 2 ^ i := lt_of_lt_of_le (val_lt t) (Nat.pow_le_pow_right (by decide) (by omega))
    have hx : val (xorSeq s t) < 2 ^ i :=
      lt_of_lt_of_le (val_lt _) (Nat.pow_le_pow_right (by decide) (by simp; omega))
    rw [Nat.testBit_lt_two_pow hs, Nat.testBit_lt_two_pow ht, Nat.testBit_lt_two_pow hx]
    rfl

/-! ### Error patterns -/

/-- The patterns of `n` bits and weight `t` are exactly those (00_scope.md R9 item 4). -/
theorem mem_patternsOfWeight {n t : Nat} {e : BitSeq} :
    e ∈ patternsOfWeight n t ↔ e.length = n ∧ wt e = t := by
  induction n generalizing t e with
  | zero =>
    cases t with
    | zero => simp [patternsOfWeight]; rintro rfl; rfl
    | succ t => simp [patternsOfWeight]; rintro rfl; simp [wt]
  | succ n ih =>
    cases e with
    | nil => cases t <;> simp [patternsOfWeight]
    | cons b e =>
      cases t <;> cases b <;> simp [patternsOfWeight, ih, wt]

/-- `E` of 00_scope.md R9 item 4: the patterns of `n` bits and weight 1 to `t`. -/
theorem mem_errorPatterns {n t : Nat} {e : BitSeq} :
    e ∈ errorPatterns n t ↔ e.length = n ∧ 1 ≤ wt e ∧ wt e ≤ t := by
  induction t with
  | zero => simp [errorPatterns]; omega
  | succ t ih =>
    rw [errorPatterns, List.mem_append, ih, mem_patternsOfWeight]
    omega

end Sys2Proof.Machine
end

