-- ==== Sys2Proof/Laws/State.lean ====
section
/-! SUPPORT. One lemma per field of State per named update, true by rfl. -/

namespace Sys2Proof.Machine

@[simp] theorem State.emit_cfg (s : State) (i : Item) : (s.emit i).cfg = s.cfg := rfl
@[simp] theorem State.emit_phase (s : State) (i : Item) : (s.emit i).phase = s.phase := rfl
@[simp] theorem State.emit_faultCause (s : State) (i : Item) : (s.emit i).faultCause = s.faultCause := rfl
@[simp] theorem State.emit_missTol (s : State) (i : Item) : (s.emit i).missTol = s.missTol := rfl
@[simp] theorem State.emit_grpTimeout (s : State) (i : Item) : (s.emit i).grpTimeout = s.grpTimeout := rfl
@[simp] theorem State.emit_srcSel (s : State) (i : Item) : (s.emit i).srcSel = s.srcSel := rfl
@[simp] theorem State.emit_allowEn (s : State) (i : Item) : (s.emit i).allowEn = s.allowEn := rfl
@[simp] theorem State.emit_allowMask (s : State) (i : Item) : (s.emit i).allowMask = s.allowMask := rfl
@[simp] theorem State.emit_win (s : State) (i : Item) : (s.emit i).win = s.win := rfl
@[simp] theorem State.emit_fill (s : State) (i : Item) : (s.emit i).fill = s.fill := rfl
@[simp] theorem State.emit_sync (s : State) (i : Item) : (s.emit i).sync = s.sync := rfl
@[simp] theorem State.emit_missCnt (s : State) (i : Item) : (s.emit i).missCnt = s.missCnt := rfl
@[simp] theorem State.emit_slots (s : State) (i : Item) : (s.emit i).slots = s.slots := rfl
@[simp] theorem State.emit_port (s : State) (i : Item) : (s.emit i).port = s.port := rfl
@[simp] theorem State.emit_out (s : State) (i : Item) : (s.emit i).out = s.out ++ [i] := rfl

@[simp] theorem State.emitAll_cfg (s : State) (is : List Item) : (s.emitAll is).cfg = s.cfg := rfl
@[simp] theorem State.emitAll_phase (s : State) (is : List Item) : (s.emitAll is).phase = s.phase := rfl
@[simp] theorem State.emitAll_faultCause (s : State) (is : List Item) : (s.emitAll is).faultCause = s.faultCause := rfl
@[simp] theorem State.emitAll_missTol (s : State) (is : List Item) : (s.emitAll is).missTol = s.missTol := rfl
@[simp] theorem State.emitAll_grpTimeout (s : State) (is : List Item) : (s.emitAll is).grpTimeout = s.grpTimeout := rfl
@[simp] theorem State.emitAll_srcSel (s : State) (is : List Item) : (s.emitAll is).srcSel = s.srcSel := rfl
@[simp] theorem State.emitAll_allowEn (s : State) (is : List Item) : (s.emitAll is).allowEn = s.allowEn := rfl
@[simp] theorem State.emitAll_allowMask (s : State) (is : List Item) : (s.emitAll is).allowMask = s.allowMask := rfl
@[simp] theorem State.emitAll_win (s : State) (is : List Item) : (s.emitAll is).win = s.win := rfl
@[simp] theorem State.emitAll_fill (s : State) (is : List Item) : (s.emitAll is).fill = s.fill := rfl
@[simp] theorem State.emitAll_sync (s : State) (is : List Item) : (s.emitAll is).sync = s.sync := rfl
@[simp] theorem State.emitAll_missCnt (s : State) (is : List Item) : (s.emitAll is).missCnt = s.missCnt := rfl
@[simp] theorem State.emitAll_slots (s : State) (is : List Item) : (s.emitAll is).slots = s.slots := rfl
@[simp] theorem State.emitAll_port (s : State) (is : List Item) : (s.emitAll is).port = s.port := rfl
@[simp] theorem State.emitAll_out (s : State) (is : List Item) : (s.emitAll is).out = s.out ++ is := rfl

@[simp] theorem State.setSlot_cfg (s : State) (j : Nat) (t : Slot) : (s.setSlot j t).cfg = s.cfg := rfl
@[simp] theorem State.setSlot_phase (s : State) (j : Nat) (t : Slot) : (s.setSlot j t).phase = s.phase := rfl
@[simp] theorem State.setSlot_faultCause (s : State) (j : Nat) (t : Slot) : (s.setSlot j t).faultCause = s.faultCause := rfl
@[simp] theorem State.setSlot_missTol (s : State) (j : Nat) (t : Slot) : (s.setSlot j t).missTol = s.missTol := rfl
@[simp] theorem State.setSlot_grpTimeout (s : State) (j : Nat) (t : Slot) : (s.setSlot j t).grpTimeout = s.grpTimeout := rfl
@[simp] theorem State.setSlot_srcSel (s : State) (j : Nat) (t : Slot) : (s.setSlot j t).srcSel = s.srcSel := rfl
@[simp] theorem State.setSlot_allowEn (s : State) (j : Nat) (t : Slot) : (s.setSlot j t).allowEn = s.allowEn := rfl
@[simp] theorem State.setSlot_allowMask (s : State) (j : Nat) (t : Slot) : (s.setSlot j t).allowMask = s.allowMask := rfl
@[simp] theorem State.setSlot_win (s : State) (j : Nat) (t : Slot) : (s.setSlot j t).win = s.win := rfl
@[simp] theorem State.setSlot_fill (s : State) (j : Nat) (t : Slot) : (s.setSlot j t).fill = s.fill := rfl
@[simp] theorem State.setSlot_sync (s : State) (j : Nat) (t : Slot) : (s.setSlot j t).sync = s.sync := rfl
@[simp] theorem State.setSlot_missCnt (s : State) (j : Nat) (t : Slot) : (s.setSlot j t).missCnt = s.missCnt := rfl
@[simp] theorem State.setSlot_slots (s : State) (j : Nat) (t : Slot) : (s.setSlot j t).slots = s.slots.set j t := rfl
@[simp] theorem State.setSlot_port (s : State) (j : Nat) (t : Slot) : (s.setSlot j t).port = s.port := rfl
@[simp] theorem State.setSlot_out (s : State) (j : Nat) (t : Slot) : (s.setSlot j t).out = s.out := rfl

@[simp] theorem raiseFault_cfg (c : FaultCause) (s : State) : (raiseFault c s).cfg = s.cfg := rfl
@[simp] theorem raiseFault_phase (c : FaultCause) (s : State) : (raiseFault c s).phase = .fault := rfl
@[simp] theorem raiseFault_faultCause (c : FaultCause) (s : State) : (raiseFault c s).faultCause = some c := rfl
@[simp] theorem raiseFault_missTol (c : FaultCause) (s : State) : (raiseFault c s).missTol = s.missTol := rfl
@[simp] theorem raiseFault_grpTimeout (c : FaultCause) (s : State) : (raiseFault c s).grpTimeout = s.grpTimeout := rfl
@[simp] theorem raiseFault_srcSel (c : FaultCause) (s : State) : (raiseFault c s).srcSel = s.srcSel := rfl
@[simp] theorem raiseFault_allowEn (c : FaultCause) (s : State) : (raiseFault c s).allowEn = s.allowEn := rfl
@[simp] theorem raiseFault_allowMask (c : FaultCause) (s : State) : (raiseFault c s).allowMask = s.allowMask := rfl
@[simp] theorem raiseFault_win (c : FaultCause) (s : State) : (raiseFault c s).win = s.win := rfl
@[simp] theorem raiseFault_fill (c : FaultCause) (s : State) : (raiseFault c s).fill = s.fill := rfl
@[simp] theorem raiseFault_sync (c : FaultCause) (s : State) : (raiseFault c s).sync = s.sync := rfl
@[simp] theorem raiseFault_missCnt (c : FaultCause) (s : State) : (raiseFault c s).missCnt = s.missCnt := rfl
@[simp] theorem raiseFault_slots (c : FaultCause) (s : State) : (raiseFault c s).slots = s.slots := rfl
@[simp] theorem raiseFault_port (c : FaultCause) (s : State) : (raiseFault c s).port = s.port := rfl
@[simp] theorem raiseFault_out (c : FaultCause) (s : State) : (raiseFault c s).out = s.out ++ [.fault c] := rfl

@[simp] theorem shiftIn_cfg (b : Bool) (s : State) : (shiftIn b s).cfg = s.cfg := rfl
@[simp] theorem shiftIn_phase (b : Bool) (s : State) : (shiftIn b s).phase = s.phase := rfl
@[simp] theorem shiftIn_faultCause (b : Bool) (s : State) : (shiftIn b s).faultCause = s.faultCause := rfl
@[simp] theorem shiftIn_missTol (b : Bool) (s : State) : (shiftIn b s).missTol = s.missTol := rfl
@[simp] theorem shiftIn_grpTimeout (b : Bool) (s : State) : (shiftIn b s).grpTimeout = s.grpTimeout := rfl
@[simp] theorem shiftIn_srcSel (b : Bool) (s : State) : (shiftIn b s).srcSel = s.srcSel := rfl
@[simp] theorem shiftIn_allowEn (b : Bool) (s : State) : (shiftIn b s).allowEn = s.allowEn := rfl
@[simp] theorem shiftIn_allowMask (b : Bool) (s : State) : (shiftIn b s).allowMask = s.allowMask := rfl
@[simp] theorem shiftIn_win (b : Bool) (s : State) : (shiftIn b s).win = s.win.drop 1 ++ [b] := rfl
@[simp] theorem shiftIn_fill (b : Bool) (s : State) : (shiftIn b s).fill = if s.fill < s.cfg.blockLen then s.fill + 1 else s.fill := rfl
@[simp] theorem shiftIn_sync (b : Bool) (s : State) : (shiftIn b s).sync = s.sync := rfl
@[simp] theorem shiftIn_missCnt (b : Bool) (s : State) : (shiftIn b s).missCnt = s.missCnt := rfl
@[simp] theorem shiftIn_slots (b : Bool) (s : State) : (shiftIn b s).slots = s.slots := rfl
@[simp] theorem shiftIn_port (b : Bool) (s : State) : (shiftIn b s).port = s.port := rfl
@[simp] theorem shiftIn_out (b : Bool) (s : State) : (shiftIn b s).out = s.out := rfl

@[simp] theorem loseLock_cfg (s : State) : (loseLock s).cfg = s.cfg := rfl
@[simp] theorem loseLock_phase (s : State) : (loseLock s).phase = s.phase := rfl
@[simp] theorem loseLock_faultCause (s : State) : (loseLock s).faultCause = s.faultCause := rfl
@[simp] theorem loseLock_missTol (s : State) : (loseLock s).missTol = s.missTol := rfl
@[simp] theorem loseLock_grpTimeout (s : State) : (loseLock s).grpTimeout = s.grpTimeout := rfl
@[simp] theorem loseLock_srcSel (s : State) : (loseLock s).srcSel = s.srcSel := rfl
@[simp] theorem loseLock_allowEn (s : State) : (loseLock s).allowEn = s.allowEn := rfl
@[simp] theorem loseLock_allowMask (s : State) : (loseLock s).allowMask = s.allowMask := rfl
@[simp] theorem loseLock_win (s : State) : (loseLock s).win = s.win := rfl
@[simp] theorem loseLock_fill (s : State) : (loseLock s).fill = s.fill := rfl
@[simp] theorem loseLock_sync (s : State) : (loseLock s).sync = .unsynchronized := rfl
@[simp] theorem loseLock_missCnt (s : State) : (loseLock s).missCnt = 0 := rfl
@[simp] theorem loseLock_slots (s : State) : (loseLock s).slots = s.slots := rfl
@[simp] theorem loseLock_port (s : State) : (loseLock s).port = s.port := rfl
@[simp] theorem loseLock_out (s : State) : (loseLock s).out = s.out ++ [mkEvent .syncLost 0 0 0 0] := rfl

@[simp] theorem acquireLock_cfg (i : Nat) (s : State) : (acquireLock i s).cfg = s.cfg := rfl
@[simp] theorem acquireLock_phase (i : Nat) (s : State) : (acquireLock i s).phase = s.phase := rfl
@[simp] theorem acquireLock_faultCause (i : Nat) (s : State) : (acquireLock i s).faultCause = s.faultCause := rfl
@[simp] theorem acquireLock_missTol (i : Nat) (s : State) : (acquireLock i s).missTol = s.missTol := rfl
@[simp] theorem acquireLock_grpTimeout (i : Nat) (s : State) : (acquireLock i s).grpTimeout = s.grpTimeout := rfl
@[simp] theorem acquireLock_srcSel (i : Nat) (s : State) : (acquireLock i s).srcSel = s.srcSel := rfl
@[simp] theorem acquireLock_allowEn (i : Nat) (s : State) : (acquireLock i s).allowEn = s.allowEn := rfl
@[simp] theorem acquireLock_allowMask (i : Nat) (s : State) : (acquireLock i s).allowMask = s.allowMask := rfl
@[simp] theorem acquireLock_win (i : Nat) (s : State) : (acquireLock i s).win = s.win := rfl
@[simp] theorem acquireLock_fill (i : Nat) (s : State) : (acquireLock i s).fill = s.fill := rfl
@[simp] theorem acquireLock_sync (i : Nat) (s : State) : (acquireLock i s).sync = .synchronized := rfl
@[simp] theorem acquireLock_missCnt (i : Nat) (s : State) : (acquireLock i s).missCnt = 0 := rfl
@[simp] theorem acquireLock_slots (i : Nat) (s : State) : (acquireLock i s).slots = s.slots := rfl
@[simp] theorem acquireLock_port (i : Nat) (s : State) : (acquireLock i s).port = s.port := rfl
@[simp] theorem acquireLock_out (i : Nat) (s : State) : (acquireLock i s).out = s.out ++ [mkEvent .syncAcquired i 0 0 0] := rfl

@[simp] theorem freeAllSlots_cfg (s : State) : (freeAllSlots s).cfg = s.cfg := rfl
@[simp] theorem freeAllSlots_phase (s : State) : (freeAllSlots s).phase = s.phase := rfl
@[simp] theorem freeAllSlots_faultCause (s : State) : (freeAllSlots s).faultCause = s.faultCause := rfl
@[simp] theorem freeAllSlots_missTol (s : State) : (freeAllSlots s).missTol = s.missTol := rfl
@[simp] theorem freeAllSlots_grpTimeout (s : State) : (freeAllSlots s).grpTimeout = s.grpTimeout := rfl
@[simp] theorem freeAllSlots_srcSel (s : State) : (freeAllSlots s).srcSel = s.srcSel := rfl
@[simp] theorem freeAllSlots_allowEn (s : State) : (freeAllSlots s).allowEn = s.allowEn := rfl
@[simp] theorem freeAllSlots_allowMask (s : State) : (freeAllSlots s).allowMask = s.allowMask := rfl
@[simp] theorem freeAllSlots_win (s : State) : (freeAllSlots s).win = s.win := rfl
@[simp] theorem freeAllSlots_fill (s : State) : (freeAllSlots s).fill = s.fill := rfl
@[simp] theorem freeAllSlots_sync (s : State) : (freeAllSlots s).sync = s.sync := rfl
@[simp] theorem freeAllSlots_missCnt (s : State) : (freeAllSlots s).missCnt = s.missCnt := rfl
@[simp] theorem freeAllSlots_slots (s : State) : (freeAllSlots s).slots = s.slots.map Slot.freed := rfl
@[simp] theorem freeAllSlots_port (s : State) : (freeAllSlots s).port = s.port := rfl
@[simp] theorem freeAllSlots_out (s : State) : (freeAllSlots s).out = s.out := rfl

@[simp] theorem flushSlots_cfg (s : State) : (flushSlots s).cfg = s.cfg := rfl
@[simp] theorem flushSlots_phase (s : State) : (flushSlots s).phase = s.phase := rfl
@[simp] theorem flushSlots_faultCause (s : State) : (flushSlots s).faultCause = s.faultCause := rfl
@[simp] theorem flushSlots_missTol (s : State) : (flushSlots s).missTol = s.missTol := rfl
@[simp] theorem flushSlots_grpTimeout (s : State) : (flushSlots s).grpTimeout = s.grpTimeout := rfl
@[simp] theorem flushSlots_srcSel (s : State) : (flushSlots s).srcSel = s.srcSel := rfl
@[simp] theorem flushSlots_allowEn (s : State) : (flushSlots s).allowEn = s.allowEn := rfl
@[simp] theorem flushSlots_allowMask (s : State) : (flushSlots s).allowMask = s.allowMask := rfl
@[simp] theorem flushSlots_win (s : State) : (flushSlots s).win = s.win := rfl
@[simp] theorem flushSlots_fill (s : State) : (flushSlots s).fill = s.fill := rfl
@[simp] theorem flushSlots_sync (s : State) : (flushSlots s).sync = s.sync := rfl
@[simp] theorem flushSlots_missCnt (s : State) : (flushSlots s).missCnt = s.missCnt := rfl
@[simp] theorem flushSlots_slots (s : State) : (flushSlots s).slots = s.slots.map fun t => if t.isOpen then t.freed else t := rfl
@[simp] theorem flushSlots_port (s : State) : (flushSlots s).port = s.port := rfl
@[simp] theorem flushSlots_out (s : State) : (flushSlots s).out = s.out ++ (s.slots.filter Slot.isOpen).map fun t => abandonEvent t .endOfStream := rfl

@[simp] theorem resetDevice_cfg (s : State) : (resetDevice s).cfg = s.cfg := rfl
@[simp] theorem resetDevice_phase (s : State) : (resetDevice s).phase = .config := rfl
@[simp] theorem resetDevice_faultCause (s : State) : (resetDevice s).faultCause = none := rfl
@[simp] theorem resetDevice_missTol (s : State) : (resetDevice s).missTol = 3 := rfl
@[simp] theorem resetDevice_grpTimeout (s : State) : (resetDevice s).grpTimeout = 16 := rfl
@[simp] theorem resetDevice_srcSel (s : State) : (resetDevice s).srcSel = 0 := rfl
@[simp] theorem resetDevice_allowEn (s : State) : (resetDevice s).allowEn = false := rfl
@[simp] theorem resetDevice_allowMask (s : State) : (resetDevice s).allowMask = List.replicate s.cfg.numAllow 0 := rfl
@[simp] theorem resetDevice_win (s : State) : (resetDevice s).win = List.replicate s.cfg.blockLen false := rfl
@[simp] theorem resetDevice_fill (s : State) : (resetDevice s).fill = 0 := rfl
@[simp] theorem resetDevice_sync (s : State) : (resetDevice s).sync = .unsynchronized := rfl
@[simp] theorem resetDevice_missCnt (s : State) : (resetDevice s).missCnt = 0 := rfl
@[simp] theorem resetDevice_slots (s : State) : (resetDevice s).slots = List.replicate s.cfg.nAcc Slot.reset := rfl
@[simp] theorem resetDevice_port (s : State) : (resetDevice s).port = s.port := rfl
@[simp] theorem resetDevice_out (s : State) : (resetDevice s).out = s.out := rfl

theorem resetWith_cfg (c : Cfg) : (State.resetWith c).cfg = c := rfl

@[simp] theorem Slot.freed_isOpen (t : Slot) : t.freed.isOpen = false := rfl

@[simp] theorem Slot.reset_isOpen : Slot.reset.isOpen = false := rfl

theorem Slot.isOpen_iff (t : Slot) : t.isOpen = true ↔ t.state = .opened := by simp [Slot.isOpen]

end Sys2Proof.Machine
end

