-- ==== Sys2Proof/Laws/Slots.lean ====
section
/-! SUPPORT. What the operations on accumulator slots do, slot by slot (43_group_assembler.md R161, R168 to R170), and
that each keeps the slot invariants of 10_state.md R47. -/

namespace Sys2Proof.Machine

/-! ### find, allocate -/

theorem findSlot_some {slots : List Slot} {si gseq j : Nat} (h : findSlot slots si gseq = some j) :
    ∃ t, slots[j]? = some t ∧ t.isOpen = true ∧ t.si = si ∧ t.gseq = gseq := by
  obtain ⟨hj, ht, -⟩ := List.findIdx?_eq_some_iff_getElem.mp h
  exact ⟨slots[j], by simp [hj], by simpa [and_assoc] using ht⟩

theorem findSlot_none {slots : List Slot} {si gseq : Nat} (h : findSlot slots si gseq = none) :
    ∀ (j : Nat) (t : Slot), slots[j]? = some t → t.isOpen = true → ¬(t.si = si ∧ t.gseq = gseq) := by
  intro j t hj ho hk
  have := List.findIdx?_eq_none_iff.mp h t (List.mem_of_getElem? hj)
  simp [ho, hk.1, hk.2] at this

theorem freeSlot_some {slots : List Slot} {j : Nat} (h : freeSlot slots = some j) :
    ∃ t, slots[j]? = some t ∧ t.isOpen = false := by
  obtain ⟨hj, ht, -⟩ := List.findIdx?_eq_some_iff_getElem.mp h
  exact ⟨slots[j], by simp [hj], by simpa using ht⟩

theorem freeSlot_none {slots : List Slot} (h : freeSlot slots = none) : ∀ t ∈ slots, t.isOpen = true := by
  intro t ht
  simpa using List.findIdx?_eq_none_iff.mp h t ht

/-! ### tick, slot by slot -/

theorem tick_slots_getElem? (touched : Option Nat) (s : State) (i : Nat) :
    (tick touched s).slots[i]? =
      s.slots[i]?.map fun t => (tickSlot s.grpTimeout.toNat (touched == some i) t).1 := by
  simp [tick, List.getElem?_zipIdx, Option.map_map, Function.comp_def]

theorem tickSlot_cases (timeout : Nat) (touched : Bool) (t : Slot) :
    (tickSlot timeout touched t = (t, []) ∧ (t.isOpen = false ∨ touched = true)) ∨
    (t.isOpen = true ∧ touched = false ∧ timeout ≤ t.idle + 1 ∧
      tickSlot timeout touched t =
        (Slot.freed { t with idle := t.idle + 1 }, [abandonEvent { t with idle := t.idle + 1 } .timeout])) ∨
    (t.isOpen = true ∧ touched = false ∧ t.idle + 1 < timeout ∧
      tickSlot timeout touched t = ({ t with idle := t.idle + 1 }, [])) := by
  unfold tickSlot
  cases ho : t.isOpen
  · exact .inl ⟨by simp, .inl rfl⟩
  · cases touched
    · by_cases h : timeout ≤ t.idle + 1
      · exact .inr (.inl ⟨rfl, rfl, h, by simp [h]⟩)
      · exact .inr (.inr ⟨rfl, rfl, by omega, by simp [h]⟩)
    · exact .inl ⟨by simp, .inr rfl⟩

/-- A slot that is OPEN after `tick` was OPEN before, is the same but for `idle`, and ticked unless it was touched. -/
theorem tickSlot_open {timeout : Nat} {touched : Bool} {t : Slot}
    (h : (tickSlot timeout touched t).1.isOpen = true) :
    t.isOpen = true ∧
      ((touched = true ∧ (tickSlot timeout touched t).1 = t) ∨
       (touched = false ∧ t.idle + 1 < timeout ∧ (tickSlot timeout touched t).1 = { t with idle := t.idle + 1 })) := by
  rcases tickSlot_cases timeout touched t with ⟨he, hc⟩ | ⟨ho, ht, hle, he⟩ | ⟨ho, ht, hlt, he⟩
  · rw [he] at h ⊢
    rcases hc with hc | hc
    · simp [hc] at h
    · exact ⟨h, .inl ⟨hc, rfl⟩⟩
  · rw [he] at h; simp at h
  · rw [he]; exact ⟨ho, .inr ⟨ht, hlt, rfl⟩⟩

/-! ### The slot invariants through an action -/

/-- The slot part of `State.Inv`, by index, while an action is under way: `touched` is the slot that took the block. -/
structure SlotsInv (c : Cfg) (timeout : Nat) (touched : Option Nat) (slots : List Slot) : Prop where
  ok : ∀ (i : Nat) (t : Slot), slots[i]? = some t → t.isOpen = true → SlotOk c timeout t
  keys : ∀ (i j : Nat) (t u : Slot), i ≠ j → slots[i]? = some t → slots[j]? = some u →
    t.isOpen = true → u.isOpen = true → ¬(t.si = u.si ∧ t.gseq = u.gseq)
  idles : ∀ (i j : Nat) (t u : Slot), i ≠ j → touched ≠ some i → touched ≠ some j →
    slots[i]? = some t → slots[j]? = some u → t.isOpen = true → u.isOpen = true → t.idle ≠ u.idle
  zero : ∀ (j : Nat) (t : Slot), touched = some j → slots[j]? = some t → t.idle = 0

theorem pairwise_iff_index {slots : List Slot} {R : Slot → Slot → Prop} (sym : ∀ t u, R t u → R u t) :
    slots.Pairwise R ↔ ∀ (i j : Nat) (t u : Slot), i ≠ j → slots[i]? = some t → slots[j]? = some u → R t u := by
  rw [List.pairwise_iff_getElem]
  constructor
  · intro h i j t u hij hi hj
    obtain ⟨hi', rfl⟩ := List.getElem?_eq_some_iff.mp hi
    obtain ⟨hj', rfl⟩ := List.getElem?_eq_some_iff.mp hj
    rcases Nat.lt_or_gt_of_ne hij with hlt | hlt
    · exact h i j hi' hj' hlt
    · exact sym _ _ (h j i hj' hi' hlt)
  · intro h i j hi hj hlt
    exact h i j _ _ (by omega) (by simp [hi]) (by simp [hj])

theorem slotsInv_iff {c : Cfg} {timeout : Nat} {slots : List Slot} :
    SlotsInv c timeout none slots ↔
      (∀ t ∈ slots, t.isOpen = true → SlotOk c timeout t) ∧ KeysDistinct slots ∧ IdlesDistinct slots := by
  have hk := pairwise_iff_index (slots := slots)
    (R := fun t u => t.isOpen = true → u.isOpen = true → ¬(t.si = u.si ∧ t.gseq = u.gseq))
    (fun t u h hu ht he => h ht hu ⟨he.1.symm, he.2.symm⟩)
  have hi := pairwise_iff_index (slots := slots)
    (R := fun t u => t.isOpen = true → u.isOpen = true → t.idle ≠ u.idle)
    (fun t u h hu ht he => h ht hu he.symm)
  constructor
  · intro h
    refine ⟨fun t ht => ?_, hk.mpr h.keys, hi.mpr fun i j t u hij => h.idles i j t u hij (by simp) (by simp)⟩
    obtain ⟨i, hi⟩ := List.getElem?_of_mem ht
    exact h.ok i t hi
  · rintro ⟨h1, h2, h3⟩
    exact ⟨fun i t ht => h1 t (List.mem_of_getElem? ht), hk.mp h2,
      fun i j t u hij _ _ => hi.mp h3 i j t u hij, fun j t h => by simp at h⟩

theorem SlotsInv.set_freed {c : Cfg} {timeout : Nat} {slots : List Slot} (h : SlotsInv c timeout none slots)
    (j : Nat) (t : Slot) : SlotsInv c timeout none (slots.set j t.freed) := by
  have key : ∀ (i : Nat) (u : Slot), (slots.set j t.freed)[i]? = some u → u.isOpen = true → slots[i]? = some u := by
    intro i u hu ho
    rw [List.getElem?_set] at hu
    split at hu
    · split at hu
      · simp only [Option.some.injEq] at hu; subst hu; simp at ho
      · simp at hu
    · exact hu
  exact ⟨fun i u hu ho => h.ok i u (key i u hu ho) ho,
    fun i k u v hik hu hv ho hp => h.keys i k u v hik (key i u hu ho) (key k v hv hp) ho hp,
    fun i k u v hik h1 h2 hu hv ho hp => h.idles i k u v hik h1 h2 (key i u hu ho) (key k v hv hp) ho hp,
    fun k u hk => by simp at hk⟩

theorem SlotsInv.set_opened {c : Cfg} {timeout : Nat} {slots : List Slot} (h : SlotsInv c timeout none slots)
    {j : Nat} {u : Slot} (hok : SlotOk c timeout u) (hz : u.idle = 0)
    (hkey : ∀ (i : Nat) (t : Slot), i ≠ j → slots[i]? = some t → t.isOpen = true → ¬(t.si = u.si ∧ t.gseq = u.gseq)) :
    SlotsInv c timeout (some j) (slots.set j u) := by
  have key : ∀ (i : Nat) (t : Slot), (slots.set j u)[i]? = some t → (i = j ∧ t = u) ∨ (i ≠ j ∧ slots[i]? = some t) := by
    intro i t ht
    rw [List.getElem?_set] at ht
    split at ht
    · next hij =>
      split at ht
      · simp only [Option.some.injEq] at ht; exact .inl ⟨hij.symm, ht.symm⟩
      · simp at ht
    · next hij => exact .inr ⟨fun e => hij e.symm, ht⟩
  refine ⟨fun i t ht ho => ?_, fun i k t v hik ht hv ho hp => ?_, fun i k t v hik h1 h2 ht hv ho hp => ?_,
    fun k t hk ht => ?_⟩
  · rcases key i t ht with ⟨-, rfl⟩ | ⟨-, ht⟩
    · exact hok
    · exact h.ok i t ht ho
  · rcases key i t ht with ⟨rfl, rfl⟩ | ⟨hi, ht'⟩ <;> rcases key k v hv with ⟨rfl, rfl⟩ | ⟨hk, hv'⟩
    · exact absurd rfl hik
    · exact fun e => hkey k v hk hv' hp ⟨e.1.symm, e.2.symm⟩
    · exact hkey i t hi ht' ho
    · exact h.keys i k t v hik ht' hv' ho hp
  · rcases key i t ht with ⟨rfl, rfl⟩ | ⟨hi, ht'⟩
    · exact absurd rfl h1
    · rcases key k v hv with ⟨rfl, rfl⟩ | ⟨hk, hv'⟩
      · exact absurd rfl h2
      · exact h.idles i k t v hik (by simp) (by simp) ht' hv' ho hp
  · obtain rfl : j = k := by simpa using hk
    rcases key j t ht with ⟨-, rfl⟩ | ⟨hne, -⟩
    · exact hz
    · exact absurd rfl hne

/-- `tick` restores the invariants after an action (43_group_assembler.md R170). -/
theorem SlotsInv.tick {c : Cfg} {touched : Option Nat} {s : State}
    (h : SlotsInv c s.grpTimeout.toNat touched s.slots) :
    SlotsInv c s.grpTimeout.toNat none (Machine.tick touched s).slots := by
  have key : ∀ (i : Nat) (u : Slot), (Machine.tick touched s).slots[i]? = some u → u.isOpen = true →
      ∃ t, s.slots[i]? = some t ∧ t.isOpen = true ∧
        ((touched = some i ∧ u = t) ∨
         (touched ≠ some i ∧ t.idle + 1 < s.grpTimeout.toNat ∧ u = { t with idle := t.idle + 1 })) := by
    intro i u hu ho
    rw [tick_slots_getElem?, Option.map_eq_some_iff] at hu
    obtain ⟨t, ht, rfl⟩ := hu
    obtain ⟨hopen, h⟩ := tickSlot_open ho
    refine ⟨t, ht, hopen, ?_⟩
    simpa using h
  refine ⟨fun i u hu ho => ?_, fun i k u v hik hu hv ho hp => ?_, fun i k u v hik _ _ hu hv ho hp => ?_,
    fun k u hk => by simp at hk⟩
  · obtain ⟨t, ht, hopen, ⟨-, rfl⟩ | ⟨-, hlt, rfl⟩⟩ := key i u hu ho
    · exact h.ok i u ht hopen
    · have := h.ok i t ht hopen
      exact ⟨this.si_lt, this.gseq_lt, this.nextPos_ge, this.nextPos_le, hlt, this.blocks_count, this.blocks_width⟩
  · obtain ⟨t, ht, hto, hu'⟩ := key i u hu ho
    obtain ⟨t', ht', hto', hv'⟩ := key k v hv hp
    have := h.keys i k t t' hik ht ht' hto hto'
    rcases hu' with ⟨-, rfl⟩ | ⟨-, -, rfl⟩ <;> rcases hv' with ⟨-, rfl⟩ | ⟨-, -, rfl⟩ <;> exact this
  · obtain ⟨t, ht, hto, hu'⟩ := key i u hu ho
    obtain ⟨t', ht', hto', hv'⟩ := key k v hv hp
    rcases hu' with ⟨h1, rfl⟩ | ⟨h1, -, rfl⟩ <;> rcases hv' with ⟨h2, rfl⟩ | ⟨h2, -, rfl⟩
    · exact absurd (Option.some.inj (h1.symm.trans h2)) hik
    · have := h.zero i u h1 ht
      simp only
      omega
    · have := h.zero k v h2 ht'
      simp only
      omega
    · have := h.idles i k t t' hik h1 h2 ht ht' hto hto'
      simp only
      omega

end Sys2Proof.Machine
end

