-- ==== Sys2Proof/Laws/Pipeline.lean ====
section
/-! SUPPORT. What the stages behind the synchronizer can do to the state: they write slots and output items and nothing
else (10_state.md R42), and they keep the slot invariants (10_state.md R47). -/

namespace Sys2Proof.Machine

/-- The whole of what a stage behind the synchronizer may do: new slot contents and more output items. -/
structure PipeStep (s t : State) : Prop where
  frame : t = { s with slots := t.slots, out := t.out }
  grows : ∃ is, t.out = s.out ++ is
  length : t.slots.length = s.slots.length

theorem PipeStep.refl (s : State) : PipeStep s s := ⟨rfl, ⟨[], by simp⟩, rfl⟩

theorem PipeStep.trans {s t u : State} (h : PipeStep s t) (k : PipeStep t u) : PipeStep s u := by
  refine ⟨?_, ?_, k.length.trans h.length⟩
  · rw [k.frame, h.frame]
  · obtain ⟨is, hi⟩ := h.grows
    obtain ⟨js, hj⟩ := k.grows
    exact ⟨is ++ js, by rw [hj, hi, List.append_assoc]⟩

theorem PipeStep.emitAll (s : State) (is : List Item) : PipeStep s (s.emitAll is) := ⟨rfl, ⟨is, rfl⟩, rfl⟩

theorem PipeStep.emit (s : State) (i : Item) : PipeStep s (s.emit i) := ⟨rfl, ⟨[i], rfl⟩, rfl⟩

theorem PipeStep.setSlot (s : State) (j : Nat) (t : Slot) : PipeStep s (s.setSlot j t) :=
  ⟨rfl, ⟨[], by simp⟩, by simp⟩

theorem abandonSlot_pipe (j : Nat) (r : AbandonReason) (s : State) : PipeStep s (abandonSlot j r s) := by
  unfold abandonSlot
  split
  · exact (PipeStep.emit s _).trans (PipeStep.setSlot _ _ _)
  · exact PipeStep.refl s

theorem abandonFound_pipe (j : Option Nat) (r : AbandonReason) (s : State) : PipeStep s (abandonFound j r s) := by
  cases j
  · exact PipeStep.refl s
  · exact abandonSlot_pipe _ r s

theorem allocate_pipe (s : State) : PipeStep s (allocate s).1 := by
  unfold allocate
  split
  · exact PipeStep.refl s
  · exact abandonSlot_pipe _ _ s

theorem tick_pipe (touched : Option Nat) (s : State) : PipeStep s (tick touched s) :=
  ⟨rfl, ⟨_, rfl⟩, by simp [tick]⟩

theorem emitGroup_pipe (g : Group) (s : State) : PipeStep s (emitGroup g s) := by
  unfold emitGroup
  split
  · exact PipeStep.emitAll s _
  · exact PipeStep.refl s

theorem dropBlock_pipe (d : DecodedBlock) (s : State) : PipeStep s (dropBlock d s) := PipeStep.emit s _

theorem roleAction_pipe (d : DecodedBlock) (s : State) : PipeStep s (roleAction d s).1 := by
  unfold roleAction doFirst doCont doLast doSingle
  cases d.role <;> simp only
  · exact dropBlock_pipe d s
  · split
    · exact ((abandonFound_pipe _ _ s).trans (allocate_pipe _)).trans (PipeStep.setSlot _ _ _)
    · exact dropBlock_pipe d s
  · split
    · exact PipeStep.setSlot s _ _
    · exact dropBlock_pipe d s
  · split
    · exact (abandonFound_pipe _ _ s).trans (emitGroup_pipe _ _)
    · split
      · exact (PipeStep.setSlot s _ _).trans (emitGroup_pipe _ _)
      · exact dropBlock_pipe d s

theorem assemble_pipe (d : DecodedBlock) (s : State) : PipeStep s (assemble d s) :=
  (roleAction_pipe d s).trans (tick_pipe _ _)

/-- `deliver` writes slots and output only (41_frame_sync.md R128). -/
theorem deliver_pipe (r : Role) (b : Bool) (f : BlockFields) (s : State) : PipeStep s (deliver r b f s) :=
  (PipeStep.emitAll s _).trans (assemble_pipe _ _)

/-! ### The slot invariants -/

/-- What a decoded block of a device built with `c` satisfies: the ranges of its header fields (30_encoding.md R82) and
the width of its information bits (42_block_decoder.md R150). -/
structure DecodedOk (c : Cfg) (d : DecodedBlock) : Prop where
  si_lt : d.si < 2 ^ c.wSi
  gseq_lt : d.gseq < 2 ^ c.wGseq
  pos_lt : d.pos < 2 ^ c.wPos
  info_width : d.info.length = c.wInfo

/-- Correction keeps the length of the codeword (42_block_decoder.md R144). -/
theorem fecDecode_length (c : Cfg) (r : BitSeq) (h : r.length = c.codeLen) :
    (fecDecode c r).word.length = c.codeLen := by
  unfold fecDecode
  split
  · exact h
  · split
    · next e he =>
      have := (mem_errorPatterns.mp (List.mem_of_find?_eq_some he)).1
      simp [h, this]
    · exact h

theorem blockDecode_ok {c : Cfg} {f : BlockFields} (h : (codeword f).length = c.codeLen) (r : Role) (b : Bool) :
    DecodedOk c (blockDecode c r b f) := by
  refine ⟨val_slice_lt _ _ _, val_slice_lt _ _ _, val_slice_lt _ _ _, ?_⟩
  simp only [blockDecode, slice_length, fecDecode_length c _ h]
  simp [Cfg.codeLen, Cfg.msgLen]
  omega

theorem splitBlock_codeword_length {c : Cfg} {bits : BitSeq} (h : bits.length = c.blockLen) :
    (codeword (splitBlock c bits)).length = c.codeLen := by
  simp only [Cfg.blockLen] at h
  simp [codeword, splitBlock, slice_length, Cfg.codeLen, Cfg.msgLen]
  omega

theorem openedSlot_ok {c : Cfg} {d : DecodedBlock} {timeout : Nat} (h : DecodedOk c d) (ht : 1 ≤ timeout) :
    SlotOk c timeout (openedSlot d) := by
  refine ⟨h.si_lt, h.gseq_lt, Nat.le_refl 1, Nat.one_le_two_pow, ht, rfl, ?_⟩
  simpa [openedSlot] using h.info_width

theorem appendedSlot_ok {c : Cfg} {d : DecodedBlock} {t : Slot} {timeout : Nat} (hd : DecodedOk c d)
    (ht : SlotOk c timeout t) (hp : d.pos = t.nextPos) : SlotOk c timeout (appendedSlot t d) := by
  refine ⟨ht.si_lt, ht.gseq_lt, ?_, ?_, Nat.lt_of_le_of_lt (Nat.zero_le _) ht.idle_lt, ?_, ?_⟩
  · simp [appendedSlot]
  · have := hd.pos_lt
    simp only [appendedSlot]
    omega
  · simp [appendedSlot, ht.blocks_count]
  · intro b hb
    simp only [appendedSlot, List.mem_append, List.mem_singleton] at hb
    rcases hb with hb | rfl
    · exact ht.blocks_width b hb
    · exact hd.info_width

theorem awaitingSlot_some {d : DecodedBlock} {s : State} {j : Nat} {t : Slot} (h : awaitingSlot d s = some (j, t)) :
    findSlot s.slots d.si d.gseq = some j ∧ s.slots[j]? = some t ∧ t.isOpen = true ∧ t.si = d.si ∧ t.gseq = d.gseq ∧
      d.pos = t.nextPos := by
  unfold awaitingSlot at h
  split at h
  · next k hk =>
    split at h
    · next u hu =>
      split at h
      · next hp =>
        simp only [Option.some.injEq, Prod.mk.injEq] at h
        obtain ⟨rfl, rfl⟩ := h
        obtain ⟨v, hv, ho, hs, hg⟩ := findSlot_some hk
        rw [hu, Option.some.injEq] at hv
        subst hv
        exact ⟨hk, hu, ho, hs, hg, hp⟩
      · simp at h
    · simp at h
  · simp at h

/-- No block of the key is waited for: the drop condition of 43_group_assembler.md R163 and R164. -/
theorem awaitingSlot_none_iff {d : DecodedBlock} {s : State} :
    awaitingSlot d s = none ↔
      findSlot s.slots d.si d.gseq = none ∨
      ∃ j t, findSlot s.slots d.si d.gseq = some j ∧ s.slots[j]? = some t ∧ d.pos ≠ t.nextPos := by
  unfold awaitingSlot
  cases hf : findSlot s.slots d.si d.gseq with
  | none => simp
  | some j =>
    obtain ⟨t, ht, -⟩ := findSlot_some hf
    simp [ht]

theorem SlotsInv.abandonSlot {c : Cfg} {timeout : Nat} {s : State} (h : SlotsInv c timeout none s.slots)
    (j : Nat) (r : AbandonReason) : SlotsInv c timeout none (Machine.abandonSlot j r s).slots := by
  unfold Machine.abandonSlot
  split
  · exact h.set_freed j _
  · exact h

/-- Abandoning the slot of a key leaves no OPEN slot with that key (43_group_assembler.md R162). -/
theorem abandonFound_key_gone {c : Cfg} {timeout : Nat} {s : State} (h : SlotsInv c timeout none s.slots)
    (si gseq : Nat) (r : AbandonReason) :
    SlotsInv c timeout none (abandonFound (findSlot s.slots si gseq) r s).slots ∧
      ∀ (i : Nat) (t : Slot), (abandonFound (findSlot s.slots si gseq) r s).slots[i]? = some t → t.isOpen = true →
        ¬(t.si = si ∧ t.gseq = gseq) := by
  cases hf : findSlot s.slots si gseq with
  | none => exact ⟨h, findSlot_none hf⟩
  | some j =>
    refine ⟨h.abandonSlot j r, ?_⟩
    obtain ⟨u, hu, huo, hus, hug⟩ := findSlot_some hf
    intro i t ht ho hk
    simp only [abandonFound, Machine.abandonSlot, hu, State.setSlot_slots, State.emit_slots, List.getElem?_set] at ht
    split at ht
    · split at ht
      · simp only [Option.some.injEq] at ht; subst ht; simp at ho
      · simp at ht
    · next hij =>
      exact h.keys i j t u (fun e => hij e.symm) ht hu ho huo ⟨hk.1.trans hus.symm, hk.2.trans hug.symm⟩

theorem allocate_key_gone {c : Cfg} {timeout : Nat} {s : State} (h : SlotsInv c timeout none s.slots) {P : Slot → Prop}
    (hp : ∀ (i : Nat) (t : Slot), s.slots[i]? = some t → t.isOpen = true → ¬P t) :
    SlotsInv c timeout none (allocate s).1.slots ∧
      ∀ (i : Nat) (t : Slot), (allocate s).1.slots[i]? = some t → t.isOpen = true → ¬P t := by
  unfold allocate
  split
  · exact ⟨h, hp⟩
  · refine ⟨h.abandonSlot _ _, ?_⟩
    intro i t ht ho
    unfold Machine.abandonSlot at ht
    split at ht
    · simp only [State.setSlot_slots, State.emit_slots, List.getElem?_set] at ht
      split at ht
      · split at ht
        · simp only [Option.some.injEq] at ht; subst ht; simp at ho
        · simp at ht
      · exact hp i t ht ho
    · exact hp i t ht ho

/-- Each role's action keeps the slot invariants, with the slot it touched at `idle = 0` (43_group_assembler.md R160). -/
theorem roleAction_slots {c : Cfg} {timeout : Nat} {d : DecodedBlock} {s : State}
    (h : SlotsInv c timeout none s.slots) (hd : DecodedOk c d) (ht : 1 ≤ timeout) :
    SlotsInv c timeout (roleAction d s).2 (roleAction d s).1.slots := by
  unfold roleAction
  cases d.role <;> simp only
  · exact h
  · unfold doFirst
    split
    · obtain ⟨h1, k1⟩ := abandonFound_key_gone h d.si d.gseq .restart
      obtain ⟨h2, k2⟩ := allocate_key_gone h1 (P := fun t => t.si = d.si ∧ t.gseq = d.gseq) k1
      exact h2.set_opened (openedSlot_ok hd ht) rfl fun i t _ => k2 i t
    · exact h
  · unfold doCont
    split
    · next j t hw =>
      obtain ⟨-, hj, ho, hs, hg, hp⟩ := awaitingSlot_some hw
      refine h.set_opened (appendedSlot_ok hd (h.ok j t hj ho) hp) rfl fun i u hij hu huo hk => ?_
      exact h.keys i j u t hij hu hj huo ho hk
    · exact h
  · split
    · unfold doSingle emitGroup
      obtain ⟨h1, -⟩ := abandonFound_key_gone h d.si d.gseq .restart
      split <;> exact h1
    · unfold doLast emitGroup
      split
      · split <;> exact h.set_freed _ _
      · exact h

/-- `assemble` keeps the slot invariants (10_state.md R47). -/
theorem assemble_slots {c : Cfg} {d : DecodedBlock} {s : State}
    (h : SlotsInv c s.grpTimeout.toNat none s.slots) (hd : DecodedOk c d) (ht : 1 ≤ s.grpTimeout.toNat) :
    SlotsInv c s.grpTimeout.toNat none (assemble d s).slots := by
  have h1 := roleAction_slots h hd ht
  have hg : (roleAction d s).1.grpTimeout = s.grpTimeout := by rw [(roleAction_pipe d s).frame]
  rw [← hg] at h1 ⊢
  exact h1.tick

/-- `deliver` keeps the slot invariants (10_state.md R47). -/
theorem deliver_slots {r : Role} {b : Bool} {f : BlockFields} {s : State}
    (h : SlotsInv s.cfg s.grpTimeout.toNat none s.slots) (hf : (codeword f).length = s.cfg.codeLen)
    (ht : 1 ≤ s.grpTimeout.toNat) :
    SlotsInv s.cfg s.grpTimeout.toNat none (deliver r b f s).slots :=
  assemble_slots (s := s.emitAll (decoderEvents (blockDecode s.cfg r b f))) h (blockDecode_ok hf r b) ht

end Sys2Proof.Machine
end

