-- ==== Sys2Proof/Laws/Assembler.lean ====
section
/-! SUPPORT. When the searches over the slots find which slot, and what `emit_group` outputs (43_group_assembler.md
R161, R168; 44_service_output.md R191). -/

namespace Sys2Proof.Machine

/-- `find` answers the first OPEN slot of the key (43_group_assembler.md R161). -/
theorem findSlot_eq_some_iff {slots : List Slot} {si gseq j : Nat} :
    findSlot slots si gseq = some j ↔
      ∃ h : j < slots.length, (slots[j].isOpen = true ∧ slots[j].si = si ∧ slots[j].gseq = gseq) ∧
        ∀ (i : Nat) (hi : i < j), ¬(slots[i].isOpen = true ∧ slots[i].si = si ∧ slots[i].gseq = gseq) := by
  unfold findSlot
  rw [List.findIdx?_eq_some_iff_getElem]
  simp [and_assoc]

/-- `find` answers NOSLOT where no OPEN slot has the key (43_group_assembler.md R161). -/
theorem findSlot_eq_none_iff {slots : List Slot} {si gseq : Nat} :
    findSlot slots si gseq = none ↔ ∀ t ∈ slots, ¬(t.isOpen = true ∧ t.si = si ∧ t.gseq = gseq) := by
  unfold findSlot
  rw [List.findIdx?_eq_none_iff]
  simp only [← Bool.not_eq_true, Bool.and_eq_true, beq_iff_eq, and_assoc]

/-- The lowest FREE index (43_group_assembler.md R168). -/
theorem freeSlot_eq_some_iff {slots : List Slot} {j : Nat} :
    freeSlot slots = some j ↔
      ∃ h : j < slots.length, slots[j].isOpen = false ∧ ∀ (i : Nat) (hi : i < j), slots[i].isOpen = true := by
  unfold freeSlot
  rw [List.findIdx?_eq_some_iff_getElem]
  simp

theorem freeSlot_eq_none_iff {slots : List Slot} : freeSlot slots = none ↔ ∀ t ∈ slots, t.isOpen = true := by
  unfold freeSlot
  rw [List.findIdx?_eq_none_iff]
  simp

theorem foldl_max_idle {l : List Slot} {m : Nat} {t : Slot} (ht : t ∈ l ∨ t.idle = m) (hm : m ≤ t.idle)
    (h : ∀ u ∈ l, u.idle ≤ t.idle) : l.foldl (fun m t => max m t.idle) m = t.idle := by
  induction l generalizing m with
  | nil => simp at ht; exact ht.symm
  | cons a l ih =>
    simp only [List.foldl_cons]
    have ha := h a (by simp)
    apply ih
    · rcases ht with h' | h'
      · rcases List.mem_cons.mp h' with rfl | h'
        · exact .inr (by omega)
        · exact .inl h'
      · exact .inr (by omega)
    · omega
    · exact fun u hu => h u (by simp [hu])

/-- The slot evicted: the lowest of the longest idle (43_group_assembler.md R168). -/
theorem longestIdle_eq {slots : List Slot} {j : Nat} {t : Slot} (hj : slots[j]? = some t)
    (hmax : ∀ u ∈ slots, u.idle ≤ t.idle)
    (hlow : ∀ (i : Nat) (u : Slot), i < j → slots[i]? = some u → u.idle < t.idle) : longestIdle slots = j := by
  have hg : greatestIdle slots = t.idle :=
    foldl_max_idle (.inl (List.mem_of_getElem? hj)) (Nat.zero_le _) hmax
  unfold longestIdle
  rw [hg]
  obtain ⟨hlt, rfl⟩ := List.getElem?_eq_some_iff.mp hj
  rw [List.findIdx_eq hlt]
  refine ⟨by simp, fun i hi => ?_⟩
  have := hlow i _ hi (List.getElem?_eq_getElem (by omega))
  simp
  omega

/-- All `emit_group` can do (44_service_output.md R191, R193). -/
theorem emitGroup_cases (g : Group) (s : State) :
    (allowed s g.si = true ∧ emitGroup g s = { s with out := s.out ++ groupItems g }) ∨
    (allowed s g.si = false ∧ emitGroup g s = s) := by
  unfold emitGroup
  cases h : allowed s g.si
  · exact .inr ⟨rfl, by simp⟩
  · exact .inl ⟨rfl, by simp [State.emitAll]⟩

theorem allowed_iff (s : State) (si : Nat) : allowed s si = true ↔ (s.allowEn = true → allowBit s si = true) := by
  unfold allowed
  cases s.allowEn <;> simp

@[simp] theorem eventArg_zero : eventArg 0 = 0#16 := rfl

end Sys2Proof.Machine
end

