-- ==== Sys2Proof/Laws/Poly.lean ====
section
/-! SUPPORT. The remainder `pmod` over GF(2) (00_scope.md R14): it is below `2^deg(g)`, congruent to the dividend, and
linear. -/

namespace Sys2Proof.Machine

/-- The product of `g` and the polynomial with coefficients `qs`, constant term first. -/
def polyMul (g : Nat) : List Bool → Nat
  | [] => 0
  | b :: qs => (if b then g else 0) ^^^ (polyMul g qs <<< 1)

/-- The product of `g` and `x^k`. -/
theorem polyMul_monomial (g k : Nat) : polyMul g (List.replicate k false ++ [true]) = g <<< k := by
  induction k with
  | zero => simp [polyMul]
  | succ k ih =>
    rw [List.replicate_succ, List.cons_append, polyMul, ih]
    simp [← Nat.shiftLeft_add]

/-- The coefficient-wise sum of two polynomials. -/
def polyAdd : List Bool → List Bool → List Bool
  | [], q => q
  | p, [] => p
  | a :: p, b :: q => xor a b :: polyAdd p q

theorem polyMul_add (g : Nat) (p q : List Bool) : polyMul g (polyAdd p q) = polyMul g p ^^^ polyMul g q := by
  induction p generalizing q with
  | nil => simp [polyAdd, polyMul]
  | cons a p ih =>
    cases q with
    | nil => simp [polyAdd, polyMul]
    | cons b q =>
      rw [polyAdd, polyMul, ih, polyMul, polyMul, Nat.shiftLeft_xor_distrib]
      have hgg : ∀ x y : Nat, x ^^^ y = (g ^^^ x) ^^^ (g ^^^ y) := by
        intro x y
        rw [Nat.xor_comm g x, Nat.xor_assoc, ← Nat.xor_assoc g g, Nat.xor_self, Nat.zero_xor]
      cases a <;> cases b <;> simp only [Bool.xor_false, Bool.xor_true, Bool.not_false, Bool.not_true, if_true,
        if_false, Bool.false_eq_true, Nat.zero_xor]
      · ac_rfl
      · ac_rfl
      · exact hgg _ _

/-- A multiple of `g ≠ 0` that is not 0 has at least the degree of `g`. -/
theorem polyMul_zero_or_ge {g : Nat} (hg : g ≠ 0) (qs : List Bool) :
    polyMul g qs = 0 ∨ 2 ^ deg g ≤ polyMul g qs := by
  induction qs with
  | nil => simp [polyMul]
  | cons b qs ih =>
    rw [polyMul]
    rcases ih with h0 | hge
    · rw [h0]
      cases b
      · simp
      · right; simpa [deg] using Nat.log2_self_le hg
    · right
      have hp : polyMul g qs ≠ 0 := by have := Nat.two_pow_pos (deg g); omega
      have hdeg : deg g ≤ (polyMul g qs).log2 := (Nat.le_log2 hp).mpr hge
      have hbit : ((if b then g else 0) ^^^ polyMul g qs <<< 1).testBit ((polyMul g qs).log2 + 1) = true := by
        rw [Nat.testBit_xor, Nat.testBit_shiftLeft]
        have h1 : (if b = true then g else 0).testBit ((polyMul g qs).log2 + 1) = false := by
          apply Nat.testBit_lt_two_pow
          have : g < 2 ^ (g.log2 + 1) := Nat.lt_log2_self
          have h2 : 2 ^ (g.log2 + 1) ≤ 2 ^ ((polyMul g qs).log2 + 1) :=
            Nat.pow_le_pow_right (by decide) (by unfold deg at hdeg; omega)
          cases b
          · simp
          · simp only [if_true]; omega
        rw [h1]
        simpa using Nat.testBit_log2 hp
      by_contra hlt
      rw [Nat.not_le] at hlt
      have : (if b = true then g else 0) ^^^ polyMul g qs <<< 1 < 2 ^ ((polyMul g qs).log2 + 1) :=
        lt_of_lt_of_le hlt (Nat.pow_le_pow_right (by decide) (by omega))
      rw [Nat.testBit_lt_two_pow this] at hbit
      exact absurd hbit (by simp)

/-- One turn of the loop lowers the degree. -/
theorem pmod_turn_lt {a g : Nat} (ha : a ≠ 0) (hg : g ≠ 0) (hd : deg g ≤ deg a) :
    a ^^^ (g <<< (deg a - deg g)) < 2 ^ deg a := by
  apply Nat.lt_pow_two_of_testBit
  intro i hi
  rw [Nat.testBit_xor, Nat.testBit_shiftLeft]
  rcases Nat.eq_or_lt_of_le hi with rfl | hlt
  · have h1 : a.testBit (deg a) = true := Nat.testBit_log2 ha
    have h2 : g.testBit (deg a - (deg a - deg g)) = true := by
      rw [Nat.sub_sub_self hd]; exact Nat.testBit_log2 hg
    simp [h1, h2]
  · have h1 : a.testBit i = false := by
      apply Nat.testBit_lt_two_pow
      exact lt_of_lt_of_le Nat.lt_log2_self (Nat.pow_le_pow_right (by decide) hlt)
    have h2 : g.testBit (i - (deg a - deg g)) = false := by
      apply Nat.testBit_lt_two_pow
      exact lt_of_lt_of_le Nat.lt_log2_self (Nat.pow_le_pow_right (by decide) (by unfold deg at *; omega))
    simp [h1, h2]

/-- The loop ends below `2^deg(g)` when it has a turn for every degree. -/
theorem pmodLoop_lt {g : Nat} (hg : g ≠ 0) (fuel a : Nat) (hf : a < 2 ^ fuel) : pmodLoop g fuel a < 2 ^ deg g := by
  induction fuel generalizing a with
  | zero =>
    rw [pmodLoop]
    have := Nat.two_pow_pos (deg g)
    omega
  | succ fuel ih =>
    rw [pmodLoop]
    split
    · next h =>
      apply ih
      have hlog : deg a ≤ fuel := by
        have := (Nat.log2_lt h.1).mpr hf
        unfold deg; omega
      exact lt_of_lt_of_le (pmod_turn_lt h.1 hg h.2) (Nat.pow_le_pow_right (by decide) hlog)
    · next h =>
      by_cases ha : a = 0
      · rw [ha]; exact Nat.two_pow_pos _
      · have hlt : deg a < deg g := by
          by_contra hc; exact h ⟨ha, by omega⟩
        exact lt_of_lt_of_le Nat.lt_log2_self (Nat.pow_le_pow_right (by decide) hlt)

/-- The loop subtracts multiples of `g`. -/
theorem pmodLoop_multiple (g fuel a : Nat) : ∃ qs, a ^^^ pmodLoop g fuel a = polyMul g qs := by
  induction fuel generalizing a with
  | zero => exact ⟨[], by simp [pmodLoop, polyMul]⟩
  | succ fuel ih =>
    rw [pmodLoop]
    split
    · obtain ⟨qs, h⟩ := ih (a ^^^ g <<< (deg a - deg g))
      refine ⟨polyAdd (List.replicate (deg a - deg g) false ++ [true]) qs, ?_⟩
      rw [polyMul_add, polyMul_monomial, ← h, ← Nat.xor_assoc, Nat.xor_comm (g <<< _), Nat.xor_assoc a,
        Nat.xor_self, Nat.xor_zero]
    · exact ⟨[], by simp [polyMul]⟩

theorem pmod_lt {g : Nat} (hg : g ≠ 0) (a : Nat) : pmod a g < 2 ^ deg g :=
  pmodLoop_lt hg _ _ Nat.lt_log2_self

theorem pmod_multiple (a g : Nat) : ∃ qs, a ^^^ pmod a g = polyMul g qs := pmodLoop_multiple g _ a

/-- What `pmod` is determined by (00_scope.md R14): a small word congruent to the dividend. -/
theorem pmod_eq {g a r : Nat} (hg : g ≠ 0) (hr : r < 2 ^ deg g) {qs : List Bool} (h : a ^^^ r = polyMul g qs) :
    pmod a g = r := by
  obtain ⟨ps, hp⟩ := pmod_multiple a g
  have hsum : r ^^^ pmod a g = polyMul g (polyAdd qs ps) := by
    rw [polyMul_add, ← h, ← hp, Nat.xor_comm a r, Nat.xor_assoc, ← Nat.xor_assoc a a, Nat.xor_self, Nat.zero_xor]
  have hlt : r ^^^ pmod a g < 2 ^ deg g := Nat.xor_lt_two_pow hr (pmod_lt hg a)
  rcases polyMul_zero_or_ge hg (polyAdd qs ps) with h0 | hge
  · rw [h0] at hsum
    exact (Nat.xor_eq_zero_iff.mp hsum).symm
  · omega

theorem pmod_small {g a : Nat} (hg : g ≠ 0) (h : a < 2 ^ deg g) : pmod a g = a :=
  pmod_eq hg h (qs := []) (by simp [polyMul])

/-- `pmod` is linear (42_block_decoder.md R142). -/
theorem pmod_xor {g : Nat} (hg : g ≠ 0) (a b : Nat) : pmod (a ^^^ b) g = pmod a g ^^^ pmod b g := by
  obtain ⟨ps, hp⟩ := pmod_multiple a g
  obtain ⟨qs, hq⟩ := pmod_multiple b g
  refine pmod_eq hg (Nat.xor_lt_two_pow (pmod_lt hg a) (pmod_lt hg b)) (qs := polyAdd ps qs) ?_
  rw [polyMul_add, ← hp, ← hq]
  ac_rfl

/-- A word followed by its remainder is a multiple: the parity of 30_encoding.md R84 and the checksum of R83. -/
theorem pmod_xor_remainder {g : Nat} (hg : g ≠ 0) (a : Nat) : pmod (a ^^^ pmod a g) g = 0 := by
  rw [pmod_xor hg, pmod_small hg (pmod_lt hg a), Nat.xor_self]

end Sys2Proof.Machine
end

