-- ==== Sys2Proof/Laws/Code.lean ====
section
/-! SUPPORT. What a well-formed `Cfg` gives the correlator and the decoder: distances of words (00_scope.md R13), the unique
match (41_frame_sync.md R122), the generators (00_scope.md R9) and the correction table (42_block_decoder.md R143). -/

namespace Sys2Proof.Machine

/-! ### The items of `wf(Cfg)` -/

theorem cfgWf_items {c : Cfg} (h : cfgWf c = true) :
    cfgRangesOk c = true ∧ cfgBicTabOk c = true ∧ cfgFecGenOk c = true ∧ cfgFecRadiusOk c = true ∧ cfgCrcOk c = true ∧
      cfgHeaderOk c = true := by
  simpa [cfgWf, and_assoc] using h

/-- The degree of a word whose highest bit is known (00_scope.md R14). -/
theorem deg_eq_of_testBit {p n : Nat} (hlt : p < 2 ^ (n + 1)) (hb : p.testBit n = true) : deg p = n := by
  have hle : 2 ^ n ≤ p := Nat.ge_two_pow_of_testBit hb
  have hp : p ≠ 0 := by
    have := Nat.two_pow_pos n
    omega
  exact (Nat.log2_eq_iff hp).mpr ⟨hle, hlt⟩

/-- `FEC_G` is not 0 and has degree `W_PAR` (00_scope.md R9 item 3). -/
theorem fecG_of_wf {c : Cfg} (h : cfgWf c = true) : c.fecG ≠ 0 ∧ deg c.fecG = c.wPar := by
  have h3 := (cfgWf_items h).2.2.1
  simp only [cfgFecGenOk, Bool.and_eq_true, decide_eq_true_eq] at h3
  refine ⟨fun h0 => ?_, deg_eq_of_testBit h3.1.1 h3.1.2⟩
  rw [h0] at h3
  simp at h3

/-- `CRC_P` is not 0 and has degree `W_CRC` where there is a checksum (00_scope.md R9 item 5). -/
theorem crcP_of_wf {c : Cfg} (h : cfgWf c = true) (hc : 0 < c.wCrc) : c.crcP ≠ 0 ∧ deg c.crcP = c.wCrc := by
  have h5 := (cfgWf_items h).2.2.2.2.1
  simp only [cfgCrcOk, Bool.or_eq_true, beq_iff_eq, Bool.and_eq_true, decide_eq_true_eq] at h5
  rcases h5 with h0 | h5
  · omega
  refine ⟨fun h0 => ?_, deg_eq_of_testBit h5.1.1 h5.1.2⟩
  rw [h0] at h5
  simp at h5

/-! ### Distances -/

theorem popcount_xor_le (n a b d : Nat) : popcount n (a ^^^ d) ≤ popcount n (a ^^^ b) + popcount n (b ^^^ d) := by
  induction n with
  | zero => simp [popcount]
  | succ n ih =>
    simp only [popcount, Nat.testBit_xor]
    cases a.testBit n <;> cases b.testBit n <;> cases d.testBit n <;> simp <;> omega

theorem popcount_eq_zero {n a : Nat} : popcount n a = 0 ↔ ∀ i, i < n → a.testBit i = false := by
  induction n with
  | zero => simp [popcount]
  | succ n ih =>
    simp only [popcount, Nat.add_eq_zero_iff, ih]
    constructor
    · rintro ⟨h1, h2⟩ i hi
      rcases Nat.lt_succ_iff_lt_or_eq.mp hi with hlt | rfl
      · exact h1 i hlt
      · cases hb : a.testBit i
        · rfl
        · rw [hb] at h2
          simp at h2
    · intro h
      refine ⟨fun i hi => h i (by omega), ?_⟩
      rw [h n (by omega)]
      rfl

theorem ham_self (n a : Nat) : ham n a a = 0 := by
  rw [ham, popcount_eq_zero]
  simp

theorem ham_comm (n a b : Nat) : ham n a b = ham n b a := by
  rw [ham, ham, Nat.xor_comm]

theorem ham_triangle (n a b d : Nat) : ham n a d ≤ ham n a b + ham n b d := popcount_xor_le n a b d

/-- Words of `n` bits at distance 0 are equal (00_scope.md R13). -/
theorem ham_eq_zero {n a b : Nat} (ha : a < 2 ^ n) (hb : b < 2 ^ n) : ham n a b = 0 ↔ a = b := by
  rw [ham, popcount_eq_zero]
  constructor
  · intro h
    apply Nat.eq_of_testBit_eq
    intro i
    by_cases hi : i < n
    · have := h i hi
      simpa using this
    · have hle : 2 ^ n ≤ 2 ^ i := Nat.pow_le_pow_right (by decide) (by omega)
      rw [Nat.testBit_lt_two_pow (by omega), Nat.testBit_lt_two_pow (by omega)]
  · rintro rfl
    simp

/-! ### The correlator -/

/-- Two entries within the tolerance of one word are the same entry (00_scope.md R9 item 2). -/
theorem bicEntry_unique {c : Cfg} (h : cfgWf c = true) {w i j : Nat} {e f : BicEntry} (hi : c.bicTab[i]? = some e)
    (hj : c.bicTab[j]? = some f) (he : ham c.wBic w e.value ≤ c.bicTol) (hf : ham c.wBic w f.value ≤ c.bicTol) :
    i = j := by
  have h2 := (cfgWf_items h).2.1
  simp only [cfgBicTabOk, Bool.and_eq_true, decide_eq_true_eq] at h2
  have hp := List.pairwise_iff_getElem.mp h2.2
  obtain ⟨hi', rfl⟩ := List.getElem?_eq_some_iff.mp hi
  obtain ⟨hj', rfl⟩ := List.getElem?_eq_some_iff.mp hj
  by_contra hne
  rcases Nat.lt_or_gt_of_ne hne with hlt | hlt
  · have := hp i j hi' hj' hlt
    have := ham_triangle c.wBic c.bicTab[i].value w c.bicTab[j].value
    rw [ham_comm c.wBic c.bicTab[i].value w] at this
    omega
  · have := hp j i hj' hi' hlt
    have := ham_triangle c.wBic c.bicTab[j].value w c.bicTab[i].value
    rw [ham_comm c.wBic c.bicTab[j].value w] at this
    omega

/-- `bic_match` gives an entry exactly when that entry is within the tolerance (41_frame_sync.md R122). -/
theorem bicMatch_eq_some_iff {c : Cfg} (h : cfgWf c = true) {w i : Nat} :
    bicMatch c w = some i ↔ ∃ e : BicEntry, c.bicTab[i]? = some e ∧ ham c.wBic w e.value ≤ c.bicTol := by
  constructor
  · intro hm
    obtain ⟨hi, ht, -⟩ := List.findIdx?_eq_some_iff_getElem.mp hm
    exact ⟨_, List.getElem?_eq_getElem hi, by simpa using ht⟩
  · rintro ⟨e, hi, he⟩
    cases hm : bicMatch c w with
    | none =>
      have := List.findIdx?_eq_none_iff.mp hm e (List.mem_of_getElem? hi)
      simp only [decide_eq_false_iff_not] at this
      exact absurd he this
    | some j =>
      obtain ⟨hj, ht, -⟩ := List.findIdx?_eq_some_iff_getElem.mp hm
      rw [bicEntry_unique h (List.getElem?_eq_getElem hj) hi (by simpa using ht) he]

/-- The value of a table entry matches that entry (41_frame_sync.md R122). -/
theorem bicMatch_value {c : Cfg} (h : cfgWf c = true) {i : Nat} {e : BicEntry} (hi : c.bicTab[i]? = some e) :
    bicMatch c e.value = some i :=
  (bicMatch_eq_some_iff h).mpr ⟨e, hi, by rw [ham_self]; exact Nat.zero_le _⟩

/-! ### The correction table -/

/-- Patterns of weight 1 to `FEC_T` with one syndrome are equal, and none has syndrome 0 (00_scope.md R9 item 4). -/
theorem syn_injective {c : Cfg} (h : cfgWf c = true) {e e' : BitSeq} (he : e ∈ errorPatterns c.codeLen c.fecT)
    (he' : e' ∈ errorPatterns c.codeLen c.fecT) (hs : syn c e = syn c e') : e = e' := by
  have h4 := (cfgWf_items h).2.2.2.1
  simp only [cfgFecRadiusOk, Bool.and_eq_true, decide_eq_true_eq] at h4
  exact List.inj_on_of_nodup_map h4.2 he he' hs

theorem syn_ne_zero {c : Cfg} (h : cfgWf c = true) {e : BitSeq} (he : e ∈ errorPatterns c.codeLen c.fecT) :
    syn c e ≠ 0 := by
  have h4 := (cfgWf_items h).2.2.2.1
  simp only [cfgFecRadiusOk, Bool.and_eq_true, decide_eq_true_eq] at h4
  exact fun h0 => h4.1 (List.mem_map.mpr ⟨e, he, h0⟩)

/-- `CORR(syn(e)) = e` (42_block_decoder.md R143). -/
theorem corr_syn {c : Cfg} (h : cfgWf c = true) {e : BitSeq} (he : e ∈ errorPatterns c.codeLen c.fecT) :
    corr c (syn c e) = some e := by
  cases hc : corr c (syn c e) with
  | none =>
    have := List.find?_eq_none.mp hc e he
    simp at this
  | some e' =>
    have hm := List.mem_of_find?_eq_some hc
    have hs := List.find?_some hc
    rw [syn_injective h hm he (by simpa using hs)]

/-- A syndrome of no pattern is no key (42_block_decoder.md R143). -/
theorem corr_eq_none_iff {c : Cfg} {s : Nat} :
    corr c s = none ↔ ∀ e ∈ errorPatterns c.codeLen c.fecT, syn c e ≠ s := by
  unfold corr
  rw [List.find?_eq_none]
  simp

/-- All the FEC step can do (42_block_decoder.md R144). -/
theorem fecDecode_cases (c : Cfg) (r : BitSeq) :
    (syn c r = 0 ∧ fecDecode c r = ⟨.none, r, 0⟩) ∨
    (∃ e ∈ errorPatterns c.codeLen c.fecT, syn c r ≠ 0 ∧ syn c e = syn c r ∧ fecDecode c r = ⟨.corrected, xorSeq r e, wt e⟩) ∨
    (syn c r ≠ 0 ∧ (∀ e ∈ errorPatterns c.codeLen c.fecT, syn c e ≠ syn c r) ∧ fecDecode c r = ⟨.uncorrectable, r, 0⟩) := by
  unfold fecDecode
  by_cases h0 : syn c r = 0
  · exact .inl ⟨h0, by rw [if_pos h0]⟩
  · rw [if_neg h0]
    cases hc : corr c (syn c r) with
    | none => exact .inr (.inr ⟨h0, corr_eq_none_iff.mp hc, rfl⟩)
    | some e =>
      exact .inr (.inl ⟨e, List.mem_of_find?_eq_some hc, h0, by simpa using List.find?_some hc, rfl⟩)

/-- The syndrome is linear (42_block_decoder.md R142). -/
theorem syn_xorSeq {c : Cfg} (h : cfgWf c = true) {u v : BitSeq} (hl : u.length = v.length) :
    syn c (xorSeq u v) = syn c u ^^^ syn c v := by
  unfold syn poly
  rw [val_xorSeq hl, pmod_xor (fecG_of_wf h).1]

/-- Inverting the bits of an error pattern twice changes nothing. -/
theorem xorSeq_cancel {u e : BitSeq} (hl : u.length = e.length) : xorSeq (xorSeq u e) e = u := by
  apply List.ext_getElem
  · simp [hl]
  · intro i h1 h2
    simp [xorSeq]

/-- A word with its remainder as low bits is a multiple of the generator, and only with that (30_encoding.md R83, R84). -/
theorem pmod_append_eq_zero_iff {g : Nat} (hg : g ≠ 0) {s t : BitSeq} (ht : t.length = deg g) :
    pmod (val (s ++ t)) g = 0 ↔ val t = pmod (val s <<< deg g) g := by
  have hlt : val t < 2 ^ deg g := by
    rw [← ht]
    exact val_lt t
  have hsum : val (s ++ t) = (val s <<< deg g) ^^^ val t := by
    rw [val_append, ht, Nat.shiftLeft_eq]
    apply Nat.eq_of_testBit_eq
    intro i
    rw [Nat.testBit_xor, Nat.mul_comm, Nat.testBit_two_pow_mul_add _ hlt, Nat.testBit_two_pow_mul]
    by_cases hi : i < deg g
    · simp [hi, Nat.not_le.mpr hi]
    · have hle : 2 ^ deg g ≤ 2 ^ i := Nat.pow_le_pow_right (by decide) (by omega)
      rw [Nat.testBit_lt_two_pow (show val t < 2 ^ i by omega)]
      simp [hi]
      omega
  rw [hsum, pmod_xor hg, pmod_small hg hlt]
  constructor
  · intro h
    exact (Nat.xor_eq_zero_iff.mp h).symm
  · intro h
    rw [← h, Nat.xor_self]

end Sys2Proof.Machine
end

