-- ==== Sys2Proof/Laws/Decode.lean ====
section
/-! SUPPORT. The fields of a command word, bit by bit (30_encoding.md R71 to R75), and the split of a block (R80). -/

namespace Sys2Proof

theorem opField_eq_iff (w : Word) (op : BitVec 4) :
    opField w = op ↔ ∀ i, i < 4 → w.getLsbD (28 + i) = op.getLsbD i := by
  constructor
  · rintro rfl i hi
    simp [opField, hi]
  · intro h
    apply BitVec.eq_of_getLsbD_eq
    intro i hi
    simp [opField, hi, h i hi]

theorem zeroN_iff (w : Word) : zeroN w = true ↔ ∀ i, i < 28 → w.getLsbD i = false := by
  rw [zeroN, beq_iff_eq]
  constructor
  · intro h i hi
    have := congrArg (fun v => BitVec.getLsbD v i) h
    simpa [hi] using this
  · intro h
    apply BitVec.eq_of_getLsbD_eq
    intro i hi
    simp [h i hi]

theorem zeroB_iff (w : Word) : zeroB w = true ↔ ∀ i, i < 27 → w.getLsbD (1 + i) = false := by
  rw [zeroB, beq_iff_eq]
  constructor
  · intro h i hi
    have := congrArg (fun v => BitVec.getLsbD v i) h
    simpa [hi] using this
  · intro h
    apply BitVec.eq_of_getLsbD_eq
    intro i hi
    simp [h i hi]

theorem zeroW_iff (w : Word) : zeroW w = true ↔ ∀ i, i < 4 → w.getLsbD (16 + i) = false := by
  rw [zeroW, beq_iff_eq]
  constructor
  · intro h i hi
    have := congrArg (fun v => BitVec.getLsbD v i) h
    simpa [hi] using this
  · intro h
    apply BitVec.eq_of_getLsbD_eq
    intro i hi
    simp [h i hi]

theorem zeroR_iff (w : Word) : zeroR w = true ↔ ∀ i, i < 20 → w.getLsbD i = false := by
  rw [zeroR, beq_iff_eq]
  constructor
  · intro h i hi
    have := congrArg (fun v => BitVec.getLsbD v i) h
    simpa [hi] using this
  · intro h
    apply BitVec.eq_of_getLsbD_eq
    intro i hi
    simp [h i hi]

/-- `w & mask = v`, bit by bit (30_encoding.md R76). -/
theorem and_mask_eq_iff (w mask v : Word) :
    w &&& mask = v ↔ ∀ i, i < 32 → (w.getLsbD i && mask.getLsbD i) = v.getLsbD i := by
  constructor
  · rintro rfl i _
    simp
  · intro h
    apply BitVec.eq_of_getLsbD_eq
    intro i hi
    simp [h i hi]

/-- The opcode nibble is the word's top four bits (30_encoding.md R71). -/
theorem opField_toNat (w : Word) : (opField w).toNat = w.toNat / 2 ^ 28 := by
  have := w.isLt
  simp [opField, BitVec.extractLsb'_toNat, Nat.shiftRight_eq_div_pow]
  omega

/-- All the decoder of command words can answer (30_encoding.md R78). -/
theorem decodeCommand_ok {w : Word} {i : Instr} (h : decodeCommand w = .ok i) :
    ((opField w).toNat = 0 ∧ zeroN w = true ∧ i = .nop) ∨
    ((opField w).toNat = 1 ∧ zeroB w = true ∧ i = .bit (w.getLsbD 0)) ∨
    ((opField w).toNat = 2 ∧ zeroN w = true ∧ i = .eos) ∨
    ((opField w).toNat = 3 ∧ zeroN w = true ∧ i = .stop) ∨
    ((opField w).toNat = 4 ∧ zeroN w = true ∧ i = .reset) ∨
    ((opField w).toNat = 5 ∧ zeroN w = true ∧ i = .start) ∨
    ((opField w).toNat = 6 ∧ zeroW w = true ∧ i = .cfgwr (addrField w) (dataField w)) ∨
    ((opField w).toNat = 7 ∧ zeroR w = true ∧ i = .rdreg (addrField w)) := by
  unfold decodeCommand ifZero at h
  revert h
  generalize (opField w).toNat = n
  intro h
  split at h
  case h_9 => simp at h
  all_goals
    split at h
    · next hz =>
      simp only [Except.ok.injEq] at h
      subst h
      simp [hz]
    · simp at h

/-- The fields of a block, put together (30_encoding.md R80). -/
theorem splitBlock_joinBlock {c : Cfg} {f : BlockFields} (h : f.widthsOk c = true) :
    Machine.splitBlock c (Machine.joinBlock f) = f := by
  simp only [BlockFields.widthsOk, Bool.and_eq_true, beq_iff_eq] at h
  obtain ⟨⟨⟨hb, hi⟩, hc⟩, hp⟩ := h
  obtain ⟨bic, info, crc, par⟩ := f
  simp only at hb hi hc hp
  simp only [Machine.splitBlock, Machine.joinBlock, Machine.slice, BlockFields.mk.injEq, Cfg.msgLen, ← hb, ← hi, ← hc,
    ← hp]
  have h3 : bic ++ info ++ crc ++ par = (bic ++ info) ++ (crc ++ par) := by simp
  have h4 : bic ++ info ++ crc ++ par = (bic ++ (info ++ crc)) ++ par := by simp
  refine ⟨by simp, by simp, ?_, ?_⟩
  · rw [h3, List.drop_left' (by simp)]
    simp
  · rw [h4, List.drop_left' (by simp)]
    simp

/-- The fields of `L` bits, put together again (30_encoding.md R80). -/
theorem joinBlock_splitBlock {c : Cfg} {bits : BitSeq} (h : bits.length = c.blockLen) :
    Machine.joinBlock (Machine.splitBlock c bits) = bits := by
  simp only [Machine.splitBlock, Machine.joinBlock, Machine.slice, Cfg.msgLen, List.drop_zero]
  have hp : (bits.drop (c.wBic + (c.wInfo + c.wCrc))).take c.wPar = bits.drop (c.wBic + (c.wInfo + c.wCrc)) := by
    apply List.take_of_length_le
    simp [h, Cfg.blockLen]
    omega
  rw [hp, ← Nat.add_assoc, ← List.drop_drop (j := c.wBic + c.wInfo), List.append_assoc, List.take_append_drop,
    ← List.drop_drop (j := c.wBic), List.append_assoc, List.take_append_drop, List.take_append_drop]

/-- The widths of the fields of `L` bits (30_encoding.md R80). -/
theorem splitBlock_widthsOk {c : Cfg} {bits : BitSeq} (h : bits.length = c.blockLen) :
    (Machine.splitBlock c bits).widthsOk c = true := by
  simp only [Cfg.blockLen] at h
  simp [BlockFields.widthsOk, Machine.splitBlock, Machine.slice, Cfg.msgLen, h]
  omega

end Sys2Proof
end

