-- ==== Sys2Proof/Laws/Step.lean ====
section
/-! SUPPORT. Everything a step, a phase-checked command and a BIT command can do, said once each; claims cite these
instead of unfolding the definitions. -/

namespace Sys2Proof.Machine

/-! ### The step -/

theorem step_nil {s : State} (h : s.port = []) : step s = .next s := by
  unfold step fetchWord; rw [h]

theorem step_ok {s : State} {w : Word} {rest : List Word} {i : Instr} (h : s.port = w :: rest)
    (hd : decodeCommand w = .ok i) : step s = exec i { s with port := rest } := by
  unfold step fetchWord; rw [h]; simp only; rw [hd]

theorem step_error {s : State} {w : Word} {rest : List Word} {e : DecodeReject} (h : s.port = w :: rest)
    (hd : decodeCommand w = .error e) : step s = .next (illegalWord { s with port := rest }) := by
  unfold step fetchWord; rw [h]; simp only; rw [hd]

/-- All a step can do: wait, take an illegal word, or execute the decoded command word. -/
theorem step_cases {s t : State} (h : step s = .next t) :
    (s.port = [] ∧ t = s) ∨
    ∃ w rest, s.port = w :: rest ∧
      ((∃ e, decodeCommand w = .error e ∧ t = illegalWord { s with port := rest }) ∨
       (∃ i, decodeCommand w = .ok i ∧ exec i { s with port := rest } = .next t)) := by
  cases hp : s.port with
  | nil => rw [step_nil hp] at h; exact .inl ⟨rfl, by simpa using h.symm⟩
  | cons w rest =>
    refine .inr ⟨w, rest, rfl, ?_⟩
    cases hd : decodeCommand w with
    | error e => rw [step_error hp hd] at h; exact .inl ⟨e, rfl, by simpa using h.symm⟩
    | ok i => rw [step_ok hp hd] at h; exact .inr ⟨i, rfl, h⟩

/-- A command word never decodes to a block instruction (30_encoding.md R78). -/
theorem decodeCommand_not_block (w : Word) (r : Role) (f : BlockFields) :
    decodeCommand w ≠ .ok (blockInstr r f) := by
  unfold decodeCommand ifZero blockInstr
  split <;> cases r <;> (try split) <;> simp

/-! ### The phase check -/

theorem inPhase_fault {legal : Phase} {body : State → State} {s : State} (h : s.phase = .fault) :
    inPhase legal body s = s := by simp [inPhase, h]

theorem inPhase_legal {legal : Phase} {body : State → State} {s : State} (h : s.phase = legal) (hl : legal ≠ .fault) :
    inPhase legal body s = body s := by
  subst h; simp [inPhase, hl]

theorem inPhase_wrong {legal : Phase} {body : State → State} {s : State} (h : s.phase ≠ legal) (hf : s.phase ≠ .fault) :
    inPhase legal body s = raiseFault .badPhase s := by simp [inPhase, h, hf]

/-- All the phase check can do (40_commands.md R100). -/
theorem inPhase_cases (legal : Phase) (body : State → State) (s : State) :
    (s.phase = .fault ∧ inPhase legal body s = s) ∨
    (s.phase ≠ .fault ∧ s.phase ≠ legal ∧ inPhase legal body s = raiseFault .badPhase s) ∨
    (s.phase ≠ .fault ∧ s.phase = legal ∧ inPhase legal body s = body s) := by
  unfold inPhase
  by_cases hf : s.phase = .fault
  · simp [hf]
  · by_cases hl : s.phase = legal
    · exact .inr (.inr ⟨hf, hl, by rw [if_neg hf, if_pos hl]⟩)
    · exact .inr (.inl ⟨hf, hl, by rw [if_neg hf, if_neg hl]⟩)

/-! ### BIT -/

/-- The state a block is emitted in, and its role and suspect mark, for each way a full window can be a block
(41_frame_sync.md R124 to R127). -/
inductive Emission (s : State) : Role → Bool → State → Prop where
  | acquire (i : Nat) (hs : s.sync = .unsynchronized) : Emission s (roleAt s.cfg i) false (acquireLock i s)
  | hit (i : Nat) (hs : s.sync = .synchronized) : Emission s (roleAt s.cfg i) false { s with missCnt := 0 }
  | miss (hs : s.sync = .synchronized) (hm : s.missCnt + 1 ≠ s.missTol.toNat) :
      Emission s .none true { s with missCnt := s.missCnt + 1 }
  | lost (hs : s.sync = .synchronized) (hm : s.missCnt + 1 = s.missTol.toNat) : Emission s .none true (loseLock s)

theorem countMiss_cases (s : State) :
    (s.missCnt + 1 = s.missTol.toNat ∧ countMiss s = loseLock s) ∨
    (s.missCnt + 1 ≠ s.missTol.toNat ∧ countMiss s = { s with missCnt := s.missCnt + 1 }) := by
  unfold countMiss
  split
  · next h => exact .inl ⟨h, rfl⟩
  · next h => exact .inr ⟨h, rfl⟩

/-- All a comparison can do: nothing, or emit the window as a block (41_frame_sync.md R123). -/
theorem syncCompare_cases (s : State) :
    (s.sync = .unsynchronized ∧ bicMatch s.cfg (val (splitBlock s.cfg s.win).bic) = none ∧ syncCompare s = s) ∨
    ∃ r b u, Emission s r b u ∧ syncCompare s = emitBlock r b (splitBlock s.cfg s.win) u := by
  unfold syncCompare
  simp only
  cases hs : s.sync
  · cases hm : bicMatch s.cfg (val (splitBlock s.cfg s.win).bic) with
    | none => exact .inl ⟨rfl, rfl, rfl⟩
    | some i => exact .inr ⟨_, _, _, .acquire i hs, rfl⟩
  · cases hm : bicMatch s.cfg (val (splitBlock s.cfg s.win).bic) with
    | none =>
      right
      rcases countMiss_cases s with ⟨hc, he⟩ | ⟨hc, he⟩
      · exact ⟨_, _, _, .lost hs hc, by simp only [lockStep, he]⟩
      · exact ⟨_, _, _, .miss hs hc, by simp only [lockStep, he]⟩
    | some i => exact .inr ⟨_, _, _, .hit i hs, rfl⟩

/-- All a BIT command in RUN can do (40_commands.md R102). -/
theorem bitStep_cases (b : Bool) (s : State) :
    ((shiftIn b s).fill ≠ s.cfg.blockLen ∧ bitStep b s = shiftIn b s) ∨
    ((shiftIn b s).fill = s.cfg.blockLen ∧ bitStep b s = syncCompare (shiftIn b s)) := by
  by_cases h : (shiftIn b s).fill = s.cfg.blockLen
  · exact .inr ⟨h, if_pos h⟩
  · exact .inl ⟨h, if_neg h⟩

/-- The emission of a block writes slots, output and `FILL` only (41_frame_sync.md R128, R129). -/
theorem emitBlock_frame (r : Role) (b : Bool) (f : BlockFields) (s : State) :
    emitBlock r b f s =
      { s with fill := 0, slots := (deliver r b f s).slots, out := (deliver r b f s).out } := by
  unfold emitBlock
  rw [(deliver_pipe r b f s).frame]

/-! ### Registers -/

/-- `ALLOW_MASK[j]` bit `k` is not reserved exactly for an SI below `2^W_SI` (10_state.md R38). -/
theorem allowBits_getLsbD (c : Cfg) (j k : Nat) (hk : k < 16) :
    (allowBits c j).getLsbD k = decide (16 * j + k < 2 ^ c.wSi) := by
  unfold allowBits
  rw [BitVec.getLsbD_ofNat, Nat.testBit_two_pow_sub_one]
  simp only [hk, decide_true, Bool.true_and]
  congr 1
  apply propext
  omega

/-- Every mapped register is in one of the rows of 10_state.md R29. -/
theorem regAt_cases {c : Cfg} {a : Addr} {r : RegName} (h : regAt c a = some r) :
    (a.toNat = 0 ∧ r = .status) ∨ (a.toNat = 1 ∧ r = .missTol) ∨ (a.toNat = 2 ∧ r = .grpTimeout) ∨
    (a.toNat = 3 ∧ r = .srcSel) ∨ (a.toNat = 4 ∧ r = .allowCtrl) ∨ (a.toNat = 5 ∧ r = .missCnt) ∨
    (a.toNat = 6 ∧ r = .fill) ∨ (a.toNat = 7 ∧ r = .openCnt) ∨
    ∃ j, j < c.numAllow ∧ a.toNat = 0x10 + j ∧ r = .allowMask j := by
  unfold regAt at h
  revert h
  generalize a.toNat = n
  intro h
  split at h
  all_goals try (simp only [Option.some.injEq] at h; subst h; simp)
  split at h
  · simp only [Option.some.injEq] at h
    subst h
    exact .inr (.inr (.inr (.inr (.inr (.inr (.inr (.inr ⟨n - 0x10, by omega, by omega, rfl⟩)))))))
  · simp at h

end Sys2Proof.Machine
end

