-- ==== Sys2Proof/Laws/Exec.lean ====
section
/-! SUPPORT. What each command and block instruction answers, and running lists of instructions. -/

namespace Sys2Proof.Machine

/-- `start_ok()` (40_commands.md R110). -/
theorem startOk_iff (s : State) :
    startOk s = true ↔ cfgWf s.cfg = true ∧ 1 ≤ s.missTol.toNat ∧ 1 ≤ s.grpTimeout.toNat := by
  simp only [startOk, Bool.and_eq_true, decide_eq_true_eq, and_assoc]

/-- A well-formed `Cfg` has a block length of at least 3 (00_scope.md R9 item 1). -/
theorem blockLen_pos {c : Cfg} (h : cfgWf c = true) : c.wBic ≤ c.blockLen ∧ 3 ≤ c.blockLen ∧ c.blockLen ≤ 65535 := by
  simp only [cfgWf, cfgRangesOk, Bool.and_eq_true, decide_eq_true_eq] at h
  unfold Cfg.blockLen at *
  omega

/-- A BIT command in RUN (40_commands.md R102). -/
theorem exec_bit_run {s : State} (b : Bool) (h : s.phase = .run) : exec (.bit b) s = .next (bitStep b s) := by
  simp only [exec, execBit]
  rw [inPhase_legal h (by decide)]

/-- A block instruction delivers its block; only NONE marks it sync-suspect (41_frame_sync.md R128). -/
theorem exec_blockInstr (r : Role) (f : BlockFields) (s : State) :
    exec (blockInstr r f) s = .next (deliver r (decide (r = .none)) f s) := by
  cases r <;> rfl

/-- A matching table entry gives a role other than NONE (30_encoding.md R81). -/
theorem roleAt_ne_none {c : Cfg} {w i : Nat} (h : bicMatch c w = some i) : roleAt c i ≠ .none := by
  obtain ⟨hj, -, -⟩ := List.findIdx?_eq_some_iff_getElem.mp h
  unfold roleAt
  simp only [hj, List.getElem?_eq_getElem]
  cases (c.bicTab[i]).role <;> simp [BicRole.toRole]

/-- A BIT command in RUN writes the window, the synchronizer, the slots and the output only (41_frame_sync.md R132). -/
theorem bitStep_frame (b : Bool) (s : State) :
    bitStep b s =
      { s with
        win := s.win.drop 1 ++ [b], fill := (bitStep b s).fill, sync := (bitStep b s).sync
        missCnt := (bitStep b s).missCnt, slots := (bitStep b s).slots, out := (bitStep b s).out } := by
  rcases bitStep_cases b s with ⟨_, he⟩ | ⟨_, he⟩
  · rw [he]; rfl
  · rw [he]
    rcases syncCompare_cases (shiftIn b s) with ⟨_, _, he⟩ | ⟨r, c, u, hu, he⟩
    · rw [he]; rfl
    · rw [he, emitBlock_frame]
      cases hu <;> rfl

/-- What instructions other than NOP, RESET and RDREG do in FAULT: nothing (60_exceptions.md R216). -/
theorem exec_in_fault {s : State} {i : Instr} (hp : s.phase = .fault) (hb : ∀ r f, i ≠ blockInstr r f) :
    exec i s = .next (match i with | .reset => resetDevice s | .rdreg a => rdregBody a s | _ => s) := by
  cases i with
  | blkFirst f => exact absurd rfl (hb .first f)
  | blkCont f => exact absurd rfl (hb .cont f)
  | blkLast f => exact absurd rfl (hb .last f)
  | blkNone f => exact absurd rfl (hb .none f)
  | nop => rfl
  | bit b => simp [exec, execBit, inPhase_fault hp]
  | eos => simp [exec, execEos, inPhase_fault hp]
  | stop => simp [exec, execStop, inPhase_fault hp]
  | reset => rfl
  | start => simp [exec, execStart, inPhase_fault hp]
  | cfgwr a d => simp [exec, execCfgwr, inPhase_fault hp]
  | rdreg a => simp [exec, execRdreg]

/-- Running two lists one after the other. -/
theorem execSeq_append {a b : List Instr} {s t : State} (h : execSeq a s = .next t) :
    execSeq (a ++ b) s = execSeq b t := by
  induction a generalizing s with
  | nil =>
    simp only [execSeq, Host.Outcome.next.injEq] at h
    rw [List.nil_append, h]
  | cons i a ih =>
    simp only [List.cons_append, execSeq] at h ⊢
    cases he : exec i s with
    | next u => rw [he] at h; exact ih h
    | fault r => rw [he] at h; simp at h
    | refused r => rw [he] at h; simp at h

/-- The addresses of 10_state.md R29 from `0x10` on. -/
theorem regAt_allowMask {c : Cfg} {a : Addr} {j : Nat} (hj : j < c.numAllow) (ha : a.toNat = 0x10 + j) :
    regAt c a = some (.allowMask j) := by
  unfold regAt
  rw [ha]
  generalize hk : 0x10 + j = k
  split
  all_goals try (exfalso; omega)
  rw [if_pos (by omega), ← hk]
  simp

/-- An unmapped address (20_memory.md R52). -/
theorem regAt_none {c : Cfg} {a : Addr} :
    regAt c a = none ↔ 8 ≤ a.toNat ∧ ¬(0x10 ≤ a.toNat ∧ a.toNat < 0x10 + c.numAllow) := by
  constructor
  · intro h
    refine ⟨?_, fun hm => ?_⟩
    · by_contra hlt
      unfold regAt at h
      have : a.toNat < 8 := by omega
      interval_cases a.toNat <;> simp at h
    · rw [regAt_allowMask (j := a.toNat - 0x10) (by omega) (by omega)] at h
      simp at h
  · rintro ⟨h1, h2⟩
    cases hr : regAt c a with
    | none => rfl
    | some r =>
      rcases regAt_cases hr with h | h | h | h | h | h | h | h | ⟨j, h, h', -⟩ <;> omega

end Sys2Proof.Machine
end

