-- ==== Sys2Proof/Laws/Invariant.lean ====
section
/-! SUPPORT. The invariant of Safety.lean from facts that evaluate, and what it keeps under updates that no clause reads. -/

namespace Sys2Proof.Machine

/-- `SlotOk` from one fact that evaluates. -/
theorem slotOk_of_eval {c : Cfg} {timeout : Nat} {t : Slot}
    (h : t.si < 2 ^ c.wSi ∧ t.gseq < 2 ^ c.wGseq ∧ 1 ≤ t.nextPos ∧ t.nextPos ≤ 2 ^ c.wPos ∧ t.idle < timeout ∧
      t.blocks.length = t.nextPos ∧ ∀ b ∈ t.blocks, b.length = c.wInfo) : SlotOk c timeout t :=
  ⟨h.1, h.2.1, h.2.2.1, h.2.2.2.1, h.2.2.2.2.1, h.2.2.2.2.2.1, h.2.2.2.2.2.2⟩

/-- `AllFree` slots satisfy the slot invariants. -/
theorem slotsInv_of_allFree {c : Cfg} {timeout : Nat} {slots : List Slot} (h : AllFree slots) :
    SlotsInv c timeout none slots := by
  have key : ∀ (i : Nat) (t : Slot), slots[i]? = some t → t.isOpen = true → False := by
    intro i t hi ho
    simp [h t (List.mem_of_getElem? hi)] at ho
  exact ⟨fun i t hi ho => (key i t hi ho).elim, fun i _ t _ _ hi _ ho => (key i t hi ho).elim,
    fun i _ t _ _ _ _ hi _ ho => (key i t hi ho).elim, fun j t hj => by simp at hj⟩

/-- No clause of the invariant reads the pending words. -/
theorem State.Inv.withPort {s : State} (h : s.Inv) (port : List Word) : State.Inv { s with port := port } :=
  ⟨h.1, h.2, h.3, h.4, h.5, h.6, h.7, h.8, h.9, h.10, h.11, h.12, h.13, h.14, h.15⟩

/-- No clause of the invariant reads the output. -/
theorem State.Inv.withOut {s : State} (h : s.Inv) (out : List Item) : State.Inv { s with out := out } :=
  ⟨h.1, h.2, h.3, h.4, h.5, h.6, h.7, h.8, h.9, h.10, h.11, h.12, h.13, h.14, h.15⟩

/-- Taking a fault keeps the invariant (60_exceptions.md R206). -/
theorem State.Inv.raiseFault {s : State} (h : s.Inv) (c : FaultCause) : (Machine.raiseFault c s).Inv :=
  ⟨h.1, h.2, h.3, h.4, h.5, h.6, h.7, h.8, by simp [Machine.raiseFault], by simp [Machine.raiseFault], h.11, h.12, h.13,
    by simp [Machine.raiseFault], by simp [Machine.raiseFault]⟩

end Sys2Proof.Machine
end

