-- ==== Sys2Proof/Laws/PerInstr.lean ====
section
/-! SUPPORT. Facts about every instruction as syntax, one lemma per constructor (LAWS.json). -/

namespace Sys2Proof.Laws

/-- The opcode of a command (30_encoding.md R76); none for a block. -/
def opcodeOf (i : Instr) : Option (BitVec 4) :=
  match i with
  | .nop => some 0
  | .bit _ => some 1
  | .eos => some 2
  | .stop => some 3
  | .reset => some 4
  | .start => some 5
  | .cfgwr _ _ => some 6
  | .rdreg _ => some 7
  | .blkFirst _ => none
  | .blkCont _ => none
  | .blkLast _ => none
  | .blkNone _ => none

/-- A command encodes as a word with its opcode (30_encoding.md R71, R76), a well-formed block as `L` bits (R80). -/
def Shape.Statement (i : Instr) : Prop :=
  ∀ c : Cfg, i.wf c = true →
    match opcodeOf i with
    | some op => ∃ w, encode i = .command w ∧ opField w = op
    | none => ∃ bits, encode i = .block bits ∧ bits.length = c.blockLen

theorem Shape.of_block {c : Cfg} {f : BlockFields} (h : f.widthsOk c = true) :
    (Machine.joinBlock f).length = c.blockLen := by
  simp only [BlockFields.widthsOk, Bool.and_eq_true, beq_iff_eq] at h
  obtain ⟨⟨⟨hb, hi⟩, hc⟩, hp⟩ := h
  simp [Machine.joinBlock, Cfg.blockLen, hb, hi, hc, hp, Nat.add_assoc]

theorem Shape.nop : Shape.Statement .nop := fun _ _ => ⟨_, rfl, rfl⟩

theorem Shape.bit (b : Bool) : Shape.Statement (.bit b) := fun _ _ => ⟨_, rfl, by cases b <;> rfl⟩

theorem Shape.eos : Shape.Statement .eos := fun _ _ => ⟨_, rfl, rfl⟩

theorem Shape.stop : Shape.Statement .stop := fun _ _ => ⟨_, rfl, rfl⟩

theorem Shape.reset : Shape.Statement .reset := fun _ _ => ⟨_, rfl, rfl⟩

theorem Shape.start : Shape.Statement .start := fun _ _ => ⟨_, rfl, rfl⟩

theorem Shape.cfgwr (addr : Addr) (data : Reg16) : Shape.Statement (.cfgwr addr data) := fun _ _ =>
  ⟨_, rfl, (opField_eq_iff _ _).mpr fun i hi => by
    simp only [encodeW, BitVec.getLsbD_append]; interval_cases i <;> rfl⟩

theorem Shape.rdreg (addr : Addr) : Shape.Statement (.rdreg addr) := fun _ _ =>
  ⟨_, rfl, (opField_eq_iff _ _).mpr fun i hi => by
    simp only [encodeR, BitVec.getLsbD_append]; interval_cases i <;> rfl⟩

theorem Shape.blkFirst (f : BlockFields) : Shape.Statement (.blkFirst f) := fun _ h =>
  ⟨_, rfl, Shape.of_block (by simp only [Instr.wf, Bool.and_eq_true] at h; exact h.1)⟩

theorem Shape.blkCont (f : BlockFields) : Shape.Statement (.blkCont f) := fun _ h =>
  ⟨_, rfl, Shape.of_block (by simp only [Instr.wf, Bool.and_eq_true] at h; exact h.1)⟩

theorem Shape.blkLast (f : BlockFields) : Shape.Statement (.blkLast f) := fun _ h =>
  ⟨_, rfl, Shape.of_block (by simp only [Instr.wf, Bool.and_eq_true] at h; exact h.1)⟩

theorem Shape.blkNone (f : BlockFields) : Shape.Statement (.blkNone f) := fun _ h =>
  ⟨_, rfl, Shape.of_block (by simp only [Instr.wf, Bool.and_eq_true] at h; exact h.1)⟩

end Sys2Proof.Laws
end

