-- ==== Sys2Proof/Tests/Slice0.lean ====
section
/-! SUPPORT. The model's own tests. Expected values are those of spec/95_test_vectors.md (V, P) and of the encodings of
spec/30_encoding.md, written out by hand; a witness shows that the hypotheses of an obligation can hold together. -/

namespace Sys2Proof.Tests

open Sys2Proof.Machine Sys2Proof.Claim

/-! ### Helpers -/

/-- The state an outcome answers. -/
def nextOf : Host.Outcome State Fault Refusal → Option State
  | .next s => some s
  | .fault _ => none
  | .refused _ => none

/-- The state after a step (every step answers one). -/
def after (s : State) : State := (nextOf (step s)).getD s

/-- The reset state of a TOY device. -/
def rst : State := State.resetWith Config.toy

/-- A TOY device right after START. -/
def run : State := { rst with phase := .run }

/-- A TOY device in FAULT, cause BAD_PHASE. -/
def faulted : State := { rst with phase := .fault, faultCause := some .badPhase }

/-- The blocks of 95_test_vectors.md section 0, 33 stream bits each. -/
def bF : BitSeq := seq 33 0b010110100111001000001010111001101
def bC : BitSeq := seq 33 0b010001010111001000011011100010101
def bL : BitSeq := seq 33 0b101110010111001000101100111000110
def bS : BitSeq := seq 33 0b101110010101000100001001110101100
def bF1 : BitSeq := seq 33 0b010110100111001000010000011000011
def bFb : BitSeq := seq 33 0b010110100111001100000001111111110
def bG1 : BitSeq := seq 33 0b111111110111001000011011100010101
/-- V2: C with stream bits 20 and 21 inverted. -/
def bCbad : BitSeq := seq 33 0b010001010111001000010111100010101
/-- V22: F with stream bit 11 inverted. -/
def bFe : BitSeq := seq 33 0b010110100110001000001010111001101
/-- V27: F built with a wrong checksum. -/
def bFcrc : BitSeq := seq 33 0b010110100111001000001010111101000

/-- The fields of a TOY block. -/
def fields (bits : BitSeq) : BlockFields := splitBlock Config.toy bits

/-- Slot `(7, 2, 1, 0, 0, 0)` of V1 after F. -/
def slotF : Slot :=
  { state := .opened, si := 7, gseq := 2, nextPos := 1, idle := 0, degraded := false, corrected := false
    blocks := [seq 16 0x720A] }

/-- Slot `(7, 2, 2, 0, 0, 0)` of V1 after C. -/
def slotFC : Slot := { slotF with nextPos := 2, blocks := [seq 16 0x720A, seq 16 0x721B] }

/-- A slot of another key, one block older. -/
def slotX : Slot := { slotF with si := 1, gseq := 0, idle := 1, blocks := [seq 16 0x1001] }

/-- A device that has collected all bits of a block but the last, which is pending. -/
def pendingLast (sync : Sync) (bits : BitSeq) (slots : List Slot) : State :=
  { run with
    sync := sync, win := false :: bits.dropLast, fill := 32, slots := slots
    port := [if bits.getLastD false then 0x10000001#32 else 0x10000000#32] }

/-- The same with the window already full, sliding. -/
def sliding (bits : BitSeq) : State := { pendingLast .unsynchronized bits [Slot.reset, Slot.reset] with fill := 33 }

/-! ### Well-formed instructions and configurations: one ill-formed term for each check -/

theorem test_wf_blocks :
    (Instr.blkFirst (fields bF)).wf Config.toy = true ∧ (Instr.blkCont (fields bC)).wf Config.toy = true ∧
    (Instr.blkLast (fields bL)).wf Config.toy = true ∧ (Instr.blkNone (fields bG1)).wf Config.toy = true := by decide

theorem test_wf_refuses_bic_width : (Instr.blkFirst { fields bF with bic := seq 9 0x5A }).wf Config.toy = false := by decide
theorem test_wf_refuses_info_width : (Instr.blkFirst { fields bF with info := [] }).wf Config.toy = false := by decide
theorem test_wf_refuses_crc_width : (Instr.blkCont { fields bC with crc := seq 5 0 }).wf Config.toy = false := by decide
theorem test_wf_refuses_par_width : (Instr.blkLast { fields bL with par := seq 4 0 }).wf Config.toy = false := by decide

theorem test_wf_refuses_role :
    (Instr.blkFirst (fields bC)).wf Config.toy = false ∧ (Instr.blkCont (fields bL)).wf Config.toy = false ∧
    (Instr.blkLast (fields bF)).wf Config.toy = false ∧ (Instr.blkNone (fields bF)).wf Config.toy = false := by decide

/-- 92_eei_decisions.md and 00_scope.md R10: TOY is well-formed, and stays so with `BIC_TOL = 2`. -/
theorem test_cfgWf_toy : cfgWf Config.toy = true := by decide +kernel
theorem test_cfgWf_toy_tol2 : cfgWf { Config.toy with bicTol := 2 } = true := by decide +kernel

theorem test_cfgWf_refuses_ranges :
    cfgRangesOk { Config.toy with wBic := 0 } = false ∧ cfgRangesOk { Config.toy with wInfo := 70000 } = false ∧
    cfgRangesOk { Config.toy with bicTab := [] } = false ∧ cfgRangesOk { Config.toy with wSi := 12 } = false ∧
    cfgRangesOk { Config.toy with wGseq := 17 } = false ∧ cfgRangesOk { Config.toy with wPos := 0 } = false ∧
    cfgRangesOk { Config.toy with nAcc := 0 } = false ∧ cfgRangesOk { Config.toy with bicTol := 4 } = false := by decide

theorem test_cfgWf_refuses_table :
    cfgBicTabOk { Config.toy with bicTab := [⟨0x15A, .first⟩] } = false ∧
    cfgBicTabOk { Config.toy with bicTab := [⟨0x5A, .first⟩, ⟨0x5A, .last⟩] } = false ∧
    cfgBicTabOk { Config.toy with bicTol := 3 } = false := by decide +kernel

theorem test_cfgWf_refuses_generators :
    cfgFecGenOk { Config.toy with fecG := 0x45 } = false ∧ cfgFecGenOk { Config.toy with fecG := 0x24 } = false ∧
    cfgCrcOk { Config.toy with crcP := 0x12 } = false := by decide

/-- TOY's code corrects one error, not two (95_test_vectors.md V29). -/
theorem test_cfgWf_refuses_radius : cfgFecRadiusOk { Config.toy with fecT := 2 } = false := by decide +kernel

theorem test_cfgWf_refuses_header :
    cfgHeaderOk { Config.toy with posOff := 13 } = false ∧ cfgHeaderOk { Config.toy with gseqOff := 3 } = false := by decide

/-! ### Decoding: words and blocks written out from 30_encoding.md -/

theorem test_decode_nop : decodeCommand 0b0000_0000000000000000000000000000#32 = .ok .nop := by rfl
theorem test_decode_bit0 : decodeCommand 0b0001_000000000000000000000000000_0#32 = .ok (.bit false) := by rfl
theorem test_decode_bit1 : decodeCommand 0b0001_000000000000000000000000000_1#32 = .ok (.bit true) := by rfl
theorem test_decode_eos : decodeCommand 0b0010_0000000000000000000000000000#32 = .ok .eos := by rfl
theorem test_decode_stop : decodeCommand 0b0011_0000000000000000000000000000#32 = .ok .stop := by rfl
theorem test_decode_reset : decodeCommand 0b0100_0000000000000000000000000000#32 = .ok .reset := by rfl
theorem test_decode_start : decodeCommand 0b0101_0000000000000000000000000000#32 = .ok .start := by rfl
theorem test_decode_cfgwr :
    decodeCommand 0b0110_00010000_0000_0000000010000000#32 = .ok (.cfgwr 0x10 0x0080) := by rfl
theorem test_decode_cfgwr_ends : decodeCommand 0b0110_10000001_0000_1000000000000001#32 = .ok (.cfgwr 0x81 0x8001) := by rfl
theorem test_decode_rdreg : decodeCommand 0b0111_10011001_00000000000000000000#32 = .ok (.rdreg 0x99) := by rfl

theorem test_decode_blocks :
    decodeBlock Config.toy bF = .ok (.blkFirst ⟨seq 8 0b01011010, seq 16 0b0111001000001010, seq 4 0b1110, seq 5 0b01101⟩) ∧
    decodeBlock Config.toy bC = .ok (.blkCont ⟨seq 8 0b01000101, seq 16 0b0111001000011011, seq 4 0b1000, seq 5 0b10101⟩) ∧
    decodeBlock Config.toy bL = .ok (.blkLast ⟨seq 8 0b10111001, seq 16 0b0111001000101100, seq 4 0b1110, seq 5 0b00110⟩) ∧
    decodeBlock Config.toy bG1 = .ok (.blkNone ⟨seq 8 0xFF, seq 16 0x721B, seq 4 0b1000, seq 5 0b10101⟩) := by
  exact ⟨rfl, rfl, rfl, rfl⟩

/-- V32, and the length check of a block. -/
theorem test_decode_refuses :
    decodeCommand 0x80000000#32 = .error (.reservedOpcode 8) ∧ decodeCommand 0xF0000000#32 = .error (.reservedOpcode 15) ∧
    decodeCommand 0x00000001#32 = .error (.zeroFieldNotZero 0) ∧ decodeCommand 0x10000002#32 = .error (.zeroFieldNotZero 1) ∧
    decodeCommand 0x60110003#32 = .error (.zeroFieldNotZero 6) ∧ decodeCommand 0x70000001#32 = .error (.zeroFieldNotZero 7) ∧
    decodeBlock Config.toy bF.dropLast = .error (.blockLength 32) := by
  exact ⟨rfl, rfl, rfl, rfl, rfl, rfl, rfl⟩

/-- 30_encoding.md R90: the words of the assembler lines. -/
theorem test_encode :
    encode (asmCfgwr .missTol 2) = .command 0x60100002#32 ∧ encode (asmRdreg .fill) = .command 0x70600000#32 ∧
    encode (.bit true) = .command 0x10000001#32 ∧ encode (.blkFirst (fields bF)) = .block bF := by decide

/-- The reference encoder gives the blocks of 95_test_vectors.md section 0 (30_encoding.md R85, R89). -/
theorem test_reference_blocks :
    pseudoBlk Config.toy .cont 7 2 1 0xB = pseudoBits bC ∧ pseudoBlk Config.toy .last 7 2 2 0xC = pseudoBits bL ∧
    pseudoBlkFlip Config.toy .cont 7 2 1 0xB [20, 21] = pseudoBits bCbad := by decide +kernel

/-- The rows of spec/opcode_table.json through the host's form of the decoder. -/
theorem test_table_words :
    decodeTableWord 32 0x10000000 = some (.bit false) ∧ decodeTableWord 32 0x60000000 = some (.cfgwr 0 0) ∧
    decodeTableWord 8 0x5A = some (.blkFirst ⟨seq 8 0x5A, seq 16 0, seq 4 0, seq 5 0⟩) ∧
    decodeTableWord 8 0x45 = some (.blkCont ⟨seq 8 0x45, seq 16 0, seq 4 0, seq 5 0⟩) ∧
    decodeTableWord 8 0xB9 = some (.blkLast ⟨seq 8 0xB9, seq 16 0, seq 4 0, seq 5 0⟩) ∧
    decodeTableWord 8 0x00 = some (.blkNone ⟨seq 8 0, seq 16 0, seq 4 0, seq 5 0⟩) := by decide

/-- V28: the all-zero codeword, placed by `withFetchWord` and run by the next step, opens a group with key (0, 0). -/
theorem test_withFetchWord_block :
    (after (State.reset.withFetchWord 8 0x5A)).slots =
      [⟨.opened, 0, 0, 1, 0, false, false, [seq 16 0]⟩, Slot.reset] := by decide +kernel

theorem test_withFetchWord_command : (after (State.reset.withFetchWord 32 0x50000000)).phase = .run := by decide +kernel

/-! ### Commands -/

/-- V31. -/
theorem test_nop : nextOf (exec .nop faulted) = some faulted := by decide

/-- V31: a bit before START. -/
theorem test_bit_config : nextOf (exec (.bit true) rst) = some { faulted with out := [.fault .badPhase] } := by decide

/-- V1, bit 33: lock is acquired on table entry 0 and F opens slot 0. -/
theorem test_bit_acquires :
    nextOf (exec (.bit true) { pendingLast .unsynchronized bF [Slot.reset, Slot.reset] with port := [] }) =
      some { run with
             sync := .synchronized, win := bF, slots := [slotF, Slot.reset]
             out := [.event .syncAcquired 0 0 0 0] } := by decide +kernel

/-- V6, the third miss with `MISS_TOL = 3`: SYNC_LOST comes before the events of the block. -/
theorem test_bit_loses_lock :
    ((nextOf (exec (.bit true) { pendingLast .synchronized bG1 [Slot.reset, Slot.reset] with missCnt := 2 })).map
      fun s => (s.sync, s.missCnt, s.fill, s.out)) =
      some (.unsynchronized, 0, 0, [.event .syncLost 0 0 0 0, .event .outOfSequenceBlock 7 2 1 0]) := by decide +kernel

/-- V3: the open group is reported, then END. -/
theorem test_eos :
    nextOf (exec .eos { run with slots := [{ slotFC with idle := 3 }, Slot.reset] }) =
      some { run with
             phase := .drained, slots := [{ slotFC with idle := 3, state := .free }, Slot.reset]
             out := [.event .groupAbandoned 7 2 2 3, .endOfStream] } := by decide

/-- P4: STOP discards the group and the partial window, with no item. -/
theorem test_stop :
    ((nextOf (exec .stop { run with slots := [slotFC, Slot.reset], fill := 10 })).map
      fun s => (s.phase, s.fill, openCount s.slots, s.out)) = some (.halted, 0, 0, []) := by decide

/-- V31. -/
theorem test_reset : nextOf (exec .reset { faulted with missTol := 9, fill := 3 }) = some rst := by decide

/-- V35. -/
theorem test_start_invalid :
    nextOf (exec .start { rst with missTol := 0 }) =
      some { rst with missTol := 0, phase := .fault, faultCause := some .cfgInvalid, out := [.fault .cfgInvalid] } := by
  decide +kernel

/-- V36. -/
theorem test_cfgwr_reserved : nextOf (exec (.cfgwr 0x04 0xFFFF) rst) = some { rst with allowEn := true } := by decide

/-- V34. -/
theorem test_cfgwr_status : nextOf (exec (.cfgwr 0x00 1) rst) =
    some { rst with phase := .fault, faultCause := some .badAddr, out := [.fault .badAddr] } := by decide

/-- V31: STATUS in FAULT with cause 3. -/
theorem test_rdreg_status : nextOf (exec (.rdreg 0x00) faulted) = some { faulted with out := [.regval 0x00 0x0034] } := by
  decide

/-- V34: `NAM = 1`, only `0x10` is mapped. -/
theorem test_rdreg_unmapped : nextOf (exec (.rdreg 0x11) rst) =
    some { rst with phase := .fault, faultCause := some .badAddr, out := [.fault .badAddr] } := by decide

/-! ### Blocks -/

/-- V22: one error in the header is corrected. -/
theorem test_blkFirst_corrects :
    nextOf (exec (.blkFirst (fields bFe)) run) =
      some { run with
             slots := [{ slotF with corrected := true }, Slot.reset], out := [.event .blockCorrected 1 0 0 0] } := by
  decide +kernel

/-- V27: a wrong checksum is reported and the group is degraded. -/
theorem test_blkFirst_checksum :
    nextOf (exec (.blkFirst (fields bFcrc)) run) =
      some { run with
             slots := [{ slotF with degraded := true }, Slot.reset], out := [.event .checksumMismatch 0 0 0 0] } := by
  decide +kernel

/-- V1, bit 66. -/
theorem test_blkCont :
    nextOf (exec (.blkCont (fields bC)) { run with slots := [slotF, Slot.reset] }) =
      some { run with slots := [slotFC, Slot.reset] } := by decide +kernel

/-- V2, bit 66: beyond correction, stored as received. -/
theorem test_blkCont_uncorrectable :
    nextOf (exec (.blkCont (fields bCbad)) { run with slots := [slotF, Slot.reset] }) =
      some { run with
             slots := [{ slotFC with degraded := true, blocks := [seq 16 0x720A, seq 16 0x7217] }, Slot.reset]
             out := [.event .blockUncorrectable 0 0 0 0] } := by decide +kernel

/-- V2, bit 99: the payload bytes are 72 0A 72 17 72 2C. -/
theorem test_blkLast_degraded :
    ((nextOf (exec (.blkLast (fields bL))
        { run with
          slots := [{ slotFC with degraded := true, blocks := [seq 16 0x720A, seq 16 0x7217] }, Slot.reset] })).map
      fun s => s.out) =
      some [.event .degradedGroupEmitted 7 2 3 0, .record 7 2 true false 3 (seq 48 0x720A7217722C)] := by decide +kernel

/-- P3: S is a group of one block. -/
theorem test_blkLast_single :
    ((nextOf (exec (.blkLast (fields bS)) run)).map fun s => s.out) =
      some [.record 5 1 false false 1 (seq 16 0x5109)] := by decide +kernel

/-- V6, bit 66: a sync-suspect block never advances a group. -/
theorem test_blkNone :
    nextOf (exec (.blkNone (fields bG1)) { run with slots := [slotF, Slot.reset] }) =
      some { run with
             slots := [{ slotF with idle := 1 }, Slot.reset], out := [.event .outOfSequenceBlock 7 2 1 0] } := by
  decide +kernel

/-- 20_memory.md R57: the payload bytes of V1. -/
theorem test_payload_bytes : payloadBytes (seq 48 0x720A721B722C) = [0x72, 0x0A, 0x72, 0x1B, 0x72, 0x2C] := by decide +kernel

/-- V30: the checksum and the parity of a long operand (profile DARC). -/
theorem test_pmod_darc :
    pmod (2 ^ 14) 0x4805 = 0x0805 ∧ pmod (0x4805 <<< 82) Config.darc.fecG = 0x22B778694E010884114DA ∧
    pmod (2 ^ 271) Config.darc.fecG = 0x10C230044404500510104 := by decide +kernel

/-! ### Witnesses: the hypotheses of each obligation hold together -/

/-- `∀ j v, l[j]? = some v → P j v` for a one-element list. -/
theorem getElem_singleton {α : Type} {P : Nat → α → Prop} {a : α} (h : P 0 a) (j : Nat) (v : α) (hv : [a][j]? = some v) :
    P j v := by
  match j with
  | 0 => simp only [List.getElem?_cons_zero, Option.some.injEq] at hv; subst hv; exact h
  | j + 1 => simp at hv

/-- A running device in lock with one OPEN group, two words pending. -/
def live (bits : BitSeq) (slots : List Slot) (missCnt : Nat) : State :=
  { pendingLast .synchronized bits slots with missCnt := missCnt }

/-- The invariant of a TOY device in RUN, from facts that evaluate. -/
theorem inv_run {s : State} (hc : s.cfg = Config.toy) (hp : s.phase = .run) (hm : s.missTol = 3) (hg : s.grpTimeout = 16)
    (hf : s.faultCause = none) (hmask : s.allowMask = [0])
    (h1 : s.win.length = 33 ∧ s.slots.length = 2 ∧ s.fill ≤ 33 ∧ (s.fill = 33 → s.sync = .unsynchronized) ∧
      (s.missCnt = 0 ∨ s.missCnt < 3) ∧ (s.sync = .unsynchronized → s.missCnt = 0))
    (h2 : ∀ t ∈ s.slots, t.isOpen = true → t.si < 16 ∧ t.gseq < 16 ∧ 1 ≤ t.nextPos ∧ t.nextPos ≤ 16 ∧ t.idle < 16 ∧
      t.blocks.length = t.nextPos ∧ ∀ b ∈ t.blocks, b.length = 16)
    (h3 : s.slots.Pairwise fun t u => t.isOpen = true → u.isOpen = true → ¬(t.si = u.si ∧ t.gseq = u.gseq))
    (h4 : s.slots.Pairwise fun t u => t.isOpen = true → u.isOpen = true → t.idle ≠ u.idle) : s.Inv := by
  refine ⟨by rw [hc]; exact h1.1, by rw [hc]; exact h1.2.1, by rw [hc, hmask]; rfl, ?_, by rw [hc]; exact h1.2.2.1,
    by rw [hc]; exact h1.2.2.2.1, by rw [hm]; exact h1.2.2.2.2.1, h1.2.2.2.2.2, by simp [hp], by simp [hp], ?_, h3, h4,
    by simp [hp, hf], fun _ => ?_⟩
  · rw [hmask, hc]; exact getElem_singleton (by decide)
  · intro t ht ho
    rw [hc, hg]
    exact slotOk_of_eval (h2 t ht ho)
  · rw [startOk, hc, hm, hg, test_cfgWf_toy]; rfl

theorem inv_live : (live bL [slotFC, slotX] 1).Inv :=
  inv_run rfl rfl rfl rfl rfl rfl (by decide) (by decide) (by decide) (by decide)

theorem inv_sliding : (sliding bF).Inv :=
  inv_run rfl rfl rfl rfl rfl rfl (by decide) (by decide) (by decide) (by decide)

theorem inv_running : run.Inv :=
  inv_run rfl rfl rfl rfl rfl rfl (by decide) (by decide) (by decide) (by decide)

/-- A CONFIG state with 8 services, so that `ALLOW_MASK[0]` has reserved bits. -/
def rst8 : State := State.resetWith { Config.toy with wSi := 3 }

theorem inv_rst8 : rst8.Inv := by
  have hfree : AllFree rst8.slots := by unfold AllFree; decide
  obtain ⟨h1, h2, h3⟩ := slotsInv_iff.mp (slotsInv_of_allFree (c := rst8.cfg) (timeout := rst8.grpTimeout.toNat) hfree)
  have hmask : rst8.allowMask = [0] := by decide
  exact ⟨by decide, by decide, by decide, by rw [hmask]; exact getElem_singleton (by decide), by decide, by decide,
    by decide, by decide,
    fun _ => ⟨rfl, rfl, hfree⟩, fun h => absurd h (by decide), h1, h2, h3, by decide, by decide⟩

theorem wit_DecodeOfEncodeGivesInstruction :
    (Instr.cfgwr 0xFF 0xFFFF).wf Config.toy = true ∧ (Instr.rdreg 0x00).wf Config.toy = true ∧
    (Instr.blkNone (fields bG1)).wf Config.toy = true := by decide

theorem wit_EncodeOfDecodeGivesCode :
    decode Config.toy (.command 0x6FF0FFFF#32) = .ok (.cfgwr 0xFF 0xFFFF) ∧
    decode Config.toy (.block bG1) = .ok (.blkNone (fields bG1)) := ⟨rfl, rfl⟩

theorem wit_IllegalWordFaultsOrIsIgnored :
    (illegal 0x80000000#32 ∧ illegal 0x70000001#32 ∧ ¬illegal 0x70000000#32) ∧
    ∃ (s : State) (rest : List Word), s.port = 0x80000000#32 :: rest := by
  unfold illegal opcodeMap
  simp only [List.forall_mem_cons, List.not_mem_nil, false_imp_iff, implies_true, and_true]
  exact ⟨by decide, { rst with port := [0x80000000#32, 0] }, [0], rfl⟩

theorem wit_StepRunsDecodedCommand :
    ∃ (s : State) (w : Word) (rest : List Word) (i : Instr), s.port = w :: rest ∧ decodeCommand w = .ok i :=
  ⟨{ run with port := [0x10000001#32, 0x20000000#32] }, _, _, _, rfl, test_decode_bit1⟩

theorem wit_StepWithNoPendingWordWaits : ∃ s : State, s.port = [] ∧ s.phase = .run := ⟨run, rfl, rfl⟩

/-- Each fault of the order of 60_exceptions.md R211, a word that passes, and a word in FAULT. -/
theorem wit_FirstFailingCheckDecidesFault :
    faultOf rst 0xF0000000#32 = some .illegalCmd ∧ faultOf run 0x69900000#32 = some .badPhase ∧
    faultOf rst 0x60800001#32 = some .badAddr ∧ faultOf rst 0x71100000#32 = some .badAddr ∧
    faultOf { rst with missTol := 0 } 0x50000000#32 = some .cfgInvalid ∧ faultOf rst 0x50000000#32 = none ∧
    rst.phase ≠ .fault ∧ run.phase ≠ .fault ∧ faulted.phase = .fault := by decide +kernel

theorem wit_FaultPhaseIgnoresOtherWords :
    ∃ (s : State) (w : Word) (rest : List Word), s.port = w :: rest ∧ s.phase = .fault :=
  ⟨{ faulted with port := [0x70000000#32] }, _, _, rfl, rfl⟩

theorem wit_OnlyResetLeavesFault : ∃ s t : State, s.phase = .fault ∧ step s = .next t ∧ t.phase ≠ .fault :=
  ⟨{ faulted with port := [0x40000000#32] }, rst, rfl, rfl, by decide⟩

theorem wit_FaultEntryIsPrecise : ∃ s t : State, s.phase ≠ .fault ∧ step s = .next t ∧ t.phase = .fault :=
  ⟨{ rst with port := [0x80000000#32] }, _, by decide, rfl, rfl⟩

theorem wit_PhaseChangesOnlyByItsCommands : ∃ s t : State, step s = .next t ∧ t.phase ≠ s.phase :=
  ⟨{ run with port := [0x30000000#32] }, _, rfl, by decide⟩

theorem wit_ConfigurationChangesOnlyInConfig :
    ∃ s t : State, step s = .next t ∧ ¬(t.missTol = s.missTol ∧ t.grpTimeout = s.grpTimeout ∧ t.srcSel = s.srcSel ∧
      t.allowEn = s.allowEn ∧ t.allowMask = s.allowMask) :=
  ⟨{ rst with port := [0x60100002#32] }, _, rfl, by decide⟩

theorem wit_SrcSelIsNeverRead :
    ∃ s t : State, step s = .next t ∧ s.port.head?.map decodeCommand ≠ some (.ok (.rdreg 0x03)) :=
  ⟨{ rst with port := [0x70200000#32] }, _, rfl, by
    have : decodeCommand 0x70200000#32 = .ok (.rdreg 0x02) := rfl
    simp [this]⟩

theorem wit_FreeSlotFieldsAreNeverRead :
    ∃ (s t : State) (slots : List Slot), sameOpen s.slots slots ∧ slots ≠ s.slots ∧ step s = .next t := by
  refine ⟨{ run with slots := [slotF, Slot.reset], port := [0x20000000#32] }, _,
    [slotF, { slotX with state := .free }], ⟨rfl, ?_⟩, by decide, rfl⟩
  intro i t u ht hu
  match i with
  | 0 => exact .inr (by simp_all)
  | 1 =>
    simp only [List.getElem?_cons_succ, List.getElem?_cons_zero, Option.some.injEq] at ht hu
    subst ht hu
    exact .inl ⟨rfl, rfl⟩
  | i + 2 => simp at ht

theorem wit_EveryStepKeepsInvariant : ∃ s t : State, s.Inv ∧ step s = .next t ∧ t.out ≠ s.out :=
  ⟨_, after (live bL [slotFC, slotX] 1), inv_live, rfl, by decide +kernel⟩

theorem wit_ResetValues : faulted.cfg = Config.toy ∧ exec .reset faulted = .next rst := ⟨rfl, rfl⟩

theorem wit_WellFormedCfgMeansItsSixItems :
    cfgWf Config.toy = true ∧
    ∃ s : State, s.cfg = { Config.toy with bicTol := 3 } ∧ s.phase = .config ∧ cfgWf s.cfg = false :=
  ⟨test_cfgWf_toy, State.resetWith { Config.toy with bicTol := 3 }, rfl, rfl, by decide +kernel⟩

theorem wit_StartAfterResetSucceeds : ∃ c : Cfg, cfgWf c = true := ⟨_, test_cfgWf_toy⟩

theorem wit_StartChecksConfigurationAndRuns :
    (rst.phase = .config ∧ cfgWf rst.cfg = true ∧ 1 ≤ ({ rst with missTol := 1 } : State).missTol.toNat ∧
      1 ≤ ({ rst with grpTimeout := 1 } : State).grpTimeout.toNat) ∧
    ¬(1 ≤ ({ rst with missTol := 0 } : State).missTol.toNat) ∧ cfgWf { Config.toy with bicTol := 3 } = false ∧
    (run.phase ≠ .config ∧ run.phase ≠ .fault) ∧ faulted.phase = .fault := by
  exact ⟨⟨rfl, test_cfgWf_toy, by decide, by decide⟩, by decide, by decide +kernel, by decide, rfl⟩

/-- The boundary addresses of each clause, with 1, 8 and 2048 services. -/
theorem wit_CfgwrWritesItsRegister :
    (0 < Config.toy.numAllow ∧ (0x10 : Addr).toNat = 0x10 + 0) ∧
    (127 < ({ Config.toy with wSi := 11 } : Cfg).numAllow ∧ (0x8F : Addr).toNat = 0x10 + 127) ∧
    writable Config.toy 0x00 = false ∧ writable Config.toy 0x05 = false ∧ writable Config.toy 0x0F = false ∧
    writable Config.toy 0x11 = false ∧ writable { Config.toy with wSi := 11 } 0x90 = false ∧ rst.phase = .config ∧
    (run.phase ≠ .config ∧ run.phase ≠ .fault) ∧ faulted.phase = .fault := by decide

theorem wit_CfgwrThenReadGivesWritableBits :
    ∃ (s : State) (a : Addr) (r : RegName), s.Inv ∧ s.phase = .config ∧ writable s.cfg a = true ∧
      regAt s.cfg a = some r ∧ reservedBit s.cfg r 7 = false ∧ reservedBit s.cfg r 8 = true :=
  ⟨rst8, 0x10, .allowMask 0, inv_rst8, rfl, by decide, rfl, by decide, by decide⟩

theorem wit_CommandsByPhase :
    run.phase = .run ∧ (rst.phase ≠ .run ∧ rst.phase ≠ .fault) ∧ faulted.phase = .fault := by decide

theorem wit_EosFlushesOpenGroups : ∃ s : State, s.phase = .run ∧ s.slots.filter Slot.isOpen ≠ [] :=
  ⟨{ run with slots := [slotF, slotX] }, rfl, by decide⟩

theorem wit_StopDiscardsSilently : ∃ s : State, s.phase = .run ∧ s.slots.filter Slot.isOpen ≠ [] :=
  ⟨{ run with slots := [slotF, slotX] }, rfl, by decide⟩

theorem wit_RdregAnswersRegisterValue :
    regAt Config.toy 0x07 = some .openCnt ∧ regAt Config.toy 0x10 = some (.allowMask 0) ∧
    mapped Config.toy 0x08 = false ∧ mapped Config.toy 0x0F = false ∧ mapped Config.toy 0x11 = false ∧
    run.phase ≠ .fault ∧ faulted.phase = .fault := by decide

theorem wit_StatusViewsShowState : ∃ s : State, s.Inv ∧ cfgWf s.cfg = true ∧ s.missCnt ≠ 0 :=
  ⟨_, inv_live, test_cfgWf_toy, by decide⟩

theorem wit_EventArgumentIsTheNumber : 65535 < 65536 ∧ eventArg 65535 = 0xFFFF := by decide

theorem wit_BitOutsideRunFaults : (rst.phase ≠ .run ∧ rst.phase ≠ .fault) ∧ faulted.phase = .fault := by decide

theorem wit_BitCollectsBelowFullWindow : ∃ s : State, s.phase = .run ∧ s.fill + 1 < s.cfg.blockLen ∧ s.fill = 31 :=
  ⟨{ run with fill := 31 }, rfl, by decide, rfl⟩

/-- Both ways of a full window: it fills with this bit, or it slides. -/
theorem wit_ScanStepFollowsItsRule_slides :
    (run.phase = .run ∧ fills { run with fill := 32 } ∧ run.sync = .unsynchronized ∧ windowMatch run true = none) ∧
    fills { run with fill := 33 } ∧ ¬fills { run with fill := 31 } := by
  unfold fills
  decide

theorem wit_ScanStepFollowsItsRule_acquires :
    (sliding bF).phase = .run ∧ fills (sliding bF) ∧ (sliding bF).sync = .unsynchronized ∧
    windowMatch (sliding bF) true = some 0 := by
  unfold fills
  decide

theorem wit_LockedHitRunsBlock :
    (live bL [slotFC, slotX] 1).phase = .run ∧ fills (live bL [slotFC, slotX] 1) ∧
    (live bL [slotFC, slotX] 1).sync = .synchronized ∧ windowMatch (live bL [slotFC, slotX] 1) false = some 2 := by
  unfold fills
  decide

/-- A miss that counts and a miss that loses lock. -/
theorem wit_LockedMissCountsOrLosesLock :
    (live bG1 [slotFC, slotX] 1).phase = .run ∧ fills (live bG1 [slotFC, slotX] 1) ∧
    (live bG1 [slotFC, slotX] 1).sync = .synchronized ∧ windowMatch (live bG1 [slotFC, slotX] 1) true = none ∧
    (live bG1 [slotFC, slotX] 1).missCnt + 1 ≠ (live bG1 [slotFC, slotX] 1).missTol.toNat ∧
    (live bG1 [slotFC, slotX] 2).missCnt + 1 = (live bG1 [slotFC, slotX] 2).missTol.toNat := by
  unfold fills
  decide

theorem inv_missing : (live bG1 [slotFC, slotX] 2).Inv :=
  inv_run rfl rfl rfl rfl rfl rfl (by decide) (by decide) (by decide) (by decide)

/-- The rows of 41_frame_sync.md R130. -/
theorem wit_SynchronizerFollowsItsTable :
    ((sliding bF).Inv ∧ fills (sliding bF) ∧ windowMatch (sliding bF) true = some 0) ∧
    ((sliding bG1).Inv ∧ fills (sliding bG1) ∧ windowMatch (sliding bG1) true = none) ∧
    ((live bL [slotFC, slotX] 1).Inv ∧ fills (live bL [slotFC, slotX] 1) ∧
      windowMatch (live bL [slotFC, slotX] 1) false = some 2) ∧
    ((live bG1 [slotFC, slotX] 2).Inv ∧ fills (live bG1 [slotFC, slotX] 2) ∧
      windowMatch (live bG1 [slotFC, slotX] 2) true = none) := by
  refine ⟨⟨inv_sliding, .inr rfl, by decide⟩, ⟨?_, .inr rfl, by decide⟩, ⟨inv_live, .inl rfl, by decide⟩,
    ⟨inv_missing, .inl rfl, by decide⟩⟩
  exact inv_run rfl rfl rfl rfl rfl rfl (by decide) (by decide) (by decide) (by decide)

theorem wit_BitFrame : ∃ s : State, s.phase = .run ∧ s.slots.filter Slot.isOpen ≠ [] :=
  ⟨live bL [slotFC, slotX] 1, rfl, by decide⟩

/-- With `BIC_TOL = 2` a word at distance 2 matches; with `BIC_TOL = 0` only the table value. -/
theorem wit_BicMatchIsTheUniqueEntryInTolerance :
    (cfgWf { Config.toy with bicTol := 2 } = true ∧ 0x59 < 2 ^ Config.toy.wBic ∧ ham Config.toy.wBic 0x59 0x5A ≤ 2) ∧
    (cfgWf Config.toy = true ∧ 0xFF < 2 ^ Config.toy.wBic ∧ Config.toy.bicTol = 0) := by decide +kernel

/-- The longest and the shortest `pre`: `L - 1` bits, and none. -/
theorem wit_LockIsRegainedWithinTwoBlocks :
    run.Inv ∧ run.phase = .run ∧ run.sync = .unsynchronized ∧ run.fill = 0 ∧
    (List.replicate 32 false).length < run.cfg.blockLen ∧ bF.length = run.cfg.blockLen ∧
    bicMatch run.cfg (val (bF.take run.cfg.wBic)) = some 0 ∧
    (∀ k, k < (List.replicate 32 false).length →
      bicMatch run.cfg (val (((List.replicate 32 false ++ bF).drop k).take run.cfg.wBic)) = none) ∧
    (∀ k, k < ([] : BitSeq).length → bicMatch run.cfg (val (((([] : BitSeq) ++ bF).drop k).take run.cfg.wBic)) = none) :=
  ⟨inv_running, rfl, rfl, rfl, by decide, by decide, by decide, by decide, by decide⟩

/-- `g = 1`, of degree 0, and the generator of TOY. -/
theorem wit_PmodIsTheRemainder :
    (1 : Nat) ≠ 0 ∧ pmod 0x25 1 = 0 ∧ Config.toy.fecG ≠ 0 ∧ pmod 0x20 Config.toy.fecG = 0x05 := by decide +kernel

theorem wit_SyndromeIsLinear :
    cfgWf Config.toy = true ∧ (fields bF).info.length = (fields bC).info.length ∧ 24 < Config.toy.codeLen := by
  exact ⟨test_cfgWf_toy, by decide, by decide⟩

theorem wit_CodewordAndChecksumByRemainder :
    cfgWf Config.toy = true ∧ ((fields bF).info ++ (fields bF).crc).length = Config.toy.msgLen ∧
    (fields bF).par.length = Config.toy.wPar ∧ 0 < Config.toy.wCrc ∧ (fields bF).crc.length = Config.toy.wCrc ∧
    syn Config.toy (codeword (fields bF)) = 0 := by
  exact ⟨test_cfgWf_toy, by decide, by decide, by decide, by decide, by decide +kernel⟩

/-- An error pattern of one bit, at the last bit of the codeword. -/
def lastBitError : BitSeq := seq 25 1

theorem inRadius_lastBit : inRadius Config.toy lastBitError := by
  unfold inRadius
  decide

/-- Each case of the syndrome: no error, one error, and V25's two errors. -/
theorem wit_DecoderOutcomeFollowsSyndrome :
    cfgWf Config.toy = true ∧
    ((fields bF).widthsOk Config.toy = true ∧ syn Config.toy (codeword (fields bF)) = 0) ∧
    ((fields bFe).widthsOk Config.toy = true ∧ inRadius Config.toy (seq 25 (2 ^ 21)) ∧
      syn Config.toy (codeword (fields bFe)) = syn Config.toy (seq 25 (2 ^ 21))) ∧
    ((fields bCbad).widthsOk Config.toy = true ∧ syn Config.toy (codeword (fields bCbad)) ≠ 0 ∧
      ∀ e, inRadius Config.toy e → syn Config.toy (codeword (fields bCbad)) ≠ syn Config.toy e) := by
  refine ⟨test_cfgWf_toy, ⟨by decide, by decide +kernel⟩, ⟨by decide, ?_, by decide +kernel⟩,
    ⟨by decide, by decide +kernel, fun e he => ?_⟩⟩
  · unfold inRadius
    decide
  · have hall : ∀ e ∈ errorPatterns 25 1, syn Config.toy (codeword (fields bCbad)) ≠ syn Config.toy e := by decide +kernel
    exact hall e (mem_errorPatterns.mpr he)

theorem wit_DecoderEventsInOrder : (blockDecode Config.toy .first false (fields bFe)).nflips < 65536 := by decide +kernel

theorem wit_ErrorsWithinRadiusAreCorrected :
    cfgWf Config.toy = true ∧ (codeword (fields bF)).length = Config.toy.codeLen ∧
    syn Config.toy (codeword (fields bF)) = 0 ∧ checksumRight Config.toy (codeword (fields bF)) ∧
    inRadius Config.toy (seq 25 (2 ^ 21)) ∧ codeword (fields bFe) = xorSeq (codeword (fields bF)) (seq 25 (2 ^ 21)) := by
  unfold checksumRight inRadius
  exact ⟨test_cfgWf_toy, by decide, by decide +kernel, by decide +kernel, by decide, by decide⟩

theorem wit_ReferenceBlockIsAccepted :
    cfgWf Config.toy = true ∧ (seq 16 0xFFFF).length = Config.toy.wInfo ∧ (⟨0xB9, .last⟩ : BicEntry) ∈ Config.toy.bicTab := by
  exact ⟨test_cfgWf_toy, by decide, by decide⟩

/-- `∀ i u, i < j → slots[i]? = some u → P u` from the slots before `j`. -/
theorem before_of_forall {slots : List Slot} {P : Slot → Prop} {j : Nat} (h : ∀ u ∈ slots.take j, P u) (i : Nat)
    (u : Slot) (hi : i < j) (hu : slots[i]? = some u) : P u := by
  refine h u (List.mem_of_getElem? (i := i) ?_)
  rw [List.getElem?_take, if_pos hi, hu]

/-- F with slot 0 taken by another key, and with no slot taken. -/
theorem wit_FirstBlockFollowsItsRule_opens :
    (blockDecode run.cfg .first false (fields bF)).pos = 0 ∧
    (noSlot [slotX, Slot.reset] 7 2 ∧ lowestFree [slotX, Slot.reset] 1) ∧
    noSlot [Slot.reset, Slot.reset] 7 2 ∧ lowestFree [Slot.reset, Slot.reset] 0 ∧
    (blockDecode run.cfg .first false (fields bF)).si = 7 ∧ (blockDecode run.cfg .first false (fields bF)).gseq = 2 := by
  unfold noSlot lowestFree
  refine ⟨by decide +kernel, ⟨by decide, ⟨_, rfl, by decide⟩, before_of_forall (by decide)⟩, by decide,
    ⟨⟨_, rfl, by decide⟩, before_of_forall (by decide)⟩, by decide +kernel, by decide +kernel⟩

/-- F while its key is OPEN in slot 1 and slot 0 is taken (V4, shifted by one slot). -/
theorem wit_FirstBlockFollowsItsRule_restarts :
    (blockDecode run.cfg .first false (fields bF)).pos = 0 ∧ found [slotX, slotFC] 7 2 1 slotFC ∧
    lowestFree ([slotX, slotFC].set 1 { slotFC with state := .free }) 1 := by
  unfold found lowestFree
  exact ⟨by decide +kernel, ⟨rfl, rfl, rfl, rfl, before_of_forall (by decide)⟩, ⟨⟨_, rfl, by decide⟩,
    before_of_forall (by decide)⟩⟩

/-- Both slots OPEN with other keys: the longest idle one, slot 1, is evicted. -/
theorem wit_FirstBlockFollowsItsRule_evicts :
    (blockDecode run.cfg .first false (fields bFb)).pos = 0 ∧ noSlot [slotF, slotX] 7 3 ∧ victim [slotF, slotX] 1 slotX := by
  unfold noSlot victim
  exact ⟨by decide +kernel, by decide, by decide, rfl, by decide, before_of_forall (by decide)⟩

theorem wit_ContBlockFollowsItsRule_appends :
    found [slotX, slotF] 7 2 1 slotF ∧ (blockDecode run.cfg .cont false (fields bC)).pos = slotF.nextPos ∧
    (blockDecode run.cfg .cont false (fields bC)).si = 7 ∧ (blockDecode run.cfg .cont false (fields bC)).gseq = 2 := by
  unfold found
  exact ⟨⟨rfl, rfl, rfl, rfl, before_of_forall (by decide)⟩, by decide +kernel, by decide +kernel, by decide +kernel⟩

theorem wit_LastBlockFollowsItsRule_completes :
    found [slotFC, slotX] 7 2 0 slotFC ∧ (blockDecode run.cfg .last false (fields bL)).pos = slotFC.nextPos ∧
    1 ≤ (blockDecode run.cfg .last false (fields bL)).pos ∧ (blockDecode run.cfg .last false (fields bL)).si = 7 ∧
    (blockDecode run.cfg .last false (fields bL)).gseq = 2 := by
  unfold found
  exact ⟨⟨rfl, rfl, rfl, rfl, before_of_forall (by decide)⟩, by decide +kernel, by decide +kernel, by decide +kernel,
    by decide +kernel⟩

/-- S with its key not OPEN, and with its key OPEN. -/
theorem wit_LastAtPositionZeroIsSingleBlockGroup :
    (blockDecode run.cfg .last false (fields bS)).pos = 0 ∧ (blockDecode run.cfg .last false (fields bS)).si = 5 ∧
    (blockDecode run.cfg .last false (fields bS)).gseq = 1 ∧ noSlot [slotF, slotX] 5 1 ∧
    found [slotX, { slotF with si := 5, gseq := 1 }] 5 1 1 { slotF with si := 5, gseq := 1 } := by
  unfold noSlot found
  exact ⟨by decide +kernel, by decide +kernel, by decide +kernel, by decide, rfl, rfl, rfl, rfl,
    before_of_forall (by decide)⟩

/-- F1 at position 1; C with no group, and with a group that waits for another position; L the same. -/
theorem wit_blockRules_drop :
    (blockDecode run.cfg .first false (fields bF1)).pos ≠ 0 ∧ noSlot [slotX, Slot.reset] 7 2 ∧
    (found [slotFC, slotX] 7 2 0 slotFC ∧ (blockDecode run.cfg .cont false (fields bC)).pos ≠ slotFC.nextPos) ∧
    (1 ≤ (blockDecode run.cfg .last false (fields bL)).pos ∧ found [slotF, slotX] 7 2 0 slotF ∧
      (blockDecode run.cfg .last false (fields bL)).pos ≠ slotF.nextPos) := by
  unfold noSlot found
  exact ⟨by decide +kernel, by decide, ⟨⟨rfl, rfl, rfl, rfl, before_of_forall (by decide)⟩, by decide +kernel⟩,
    by decide +kernel, ⟨rfl, rfl, rfl, rfl, before_of_forall (by decide)⟩, by decide +kernel⟩

/-- An OPEN group one block from its timeout, and at it: 14 and 15 blocks after `idle = 1`. -/
theorem wit_SlotsTimeOutByBlockCount :
    (live bL [slotFC, slotX] 1).Inv ∧ (live bL [slotFC, slotX] 1).slots[1]? = some slotX ∧ slotX.isOpen = true ∧
    slotX.idle + (List.replicate 14 (fields bG1)).length < (live bL [slotFC, slotX] 1).grpTimeout.toNat ∧
    ¬(slotX.idle + (List.replicate 15 (fields bG1)).length < (live bL [slotFC, slotX] 1).grpTimeout.toNat) :=
  ⟨inv_live, rfl, rfl, by decide, by decide⟩

/-- A premise about every prefix of a list of one block is one about that block. -/
theorem leaves_singleton {s : State} {i : Nat} {r : Role} {f : BlockFields} (h : leavesSlot s i r f) :
    allLeaveSlot s i [(r, f)] := by
  intro pre post r' f' u hl hu
  cases pre with
  | nil =>
    simp only [List.nil_append, List.cons.injEq, Prod.mk.injEq] at hl
    obtain ⟨⟨rfl, rfl⟩, -⟩ := hl
    simp only [blockInstrs, List.map_nil, execSeq, Host.Outcome.next.injEq] at hu
    exact hu ▸ h
  | cons p ps => simp at hl

/-- The states of the witness below: slot 0 waits for L, slot 1 is one or two blocks from its timeout. -/
def aging (idle : Nat) : State := live bL [slotFC, { slotX with idle := idle }] 1

theorem inv_aging14 : (aging 14).Inv := inv_run rfl rfl rfl rfl rfl rfl (by decide) (by decide) (by decide) (by decide)

theorem inv_aging15 : (aging 15).Inv := inv_run rfl rfl rfl rfl rfl rfl (by decide) (by decide) (by decide) (by decide)

theorem not_found_aging {idle si gseq : Nat} {t : Slot} (hk : si ≠ 1) : ¬found (aging idle).slots si gseq 1 t := by
  rintro ⟨ht, -, hs, -⟩
  obtain rfl : { slotX with idle := idle } = t := Option.some.inj ht
  exact hk hs.symm

/-- A block of each role leaves slot 1 as it is: L and C go to slot 0, F restarts slot 0 and takes it again, G1 is
suspect. After one block slot 1 is OPEN from `idle = 14` and FREE from `idle = 15`. -/
theorem wit_SlotAgesThroughBlocksItDoesNotTake :
    ((aging 14).Inv ∧ (aging 14).slots[1]? = some { slotX with idle := 14 } ∧ 14 + 1 < (aging 14).grpTimeout.toNat) ∧
    ((aging 15).Inv ∧ (aging 15).slots[1]? = some { slotX with idle := 15 } ∧ ¬(15 + 1 < (aging 15).grpTimeout.toNat)) ∧
    ∀ idle : Nat, idle = 14 ∨ idle = 15 →
      allLeaveSlot (aging idle) 1 [(.last, fields bL)] ∧ allLeaveSlot (aging idle) 1 [(.cont, fields bC)] ∧
      allLeaveSlot (aging idle) 1 [(.first, fields bF)] ∧ allLeaveSlot (aging idle) 1 [(.none, fields bG1)] := by
  have hl : (blockDecode Config.toy .last false (fields bL)).si ≠ 1 := by decide +kernel
  have hc : (blockDecode Config.toy .cont false (fields bC)).si ≠ 1 := by decide +kernel
  have hf : (blockDecode Config.toy .first false (fields bF)).si = 7 ∧
      (blockDecode Config.toy .first false (fields bF)).gseq = 2 := by decide +kernel
  refine ⟨⟨inv_aging14, rfl, by decide⟩, ⟨inv_aging15, rfl, by decide⟩, fun idle _ =>
    ⟨leaves_singleton ?_, leaves_singleton ?_, leaves_singleton ?_, leaves_singleton trivial⟩⟩
  · exact fun t h => absurd h (not_found_aging hl)
  · exact fun t h => absurd h (not_found_aging hc)
  · intro _
    refine ⟨fun h => absurd ⟨rfl, hf.1.symm, hf.2.symm⟩ (h slotFC (.head _)), fun j t h => ?_⟩
    have h1 : j ≠ 1 := by
      rintro rfl
      exact not_found_aging (hf.1 ▸ by decide) h
    refine ⟨h1, ?_⟩
    rintro ⟨⟨u, hu, ho⟩, -⟩
    rw [List.getElem?_set_ne h1] at hu
    obtain rfl : { slotX with idle := idle } = u := Option.some.inj hu
    exact absurd ho (by simp [slotX, slotF, Slot.isOpen])

/-- V1, bit 99: a step that outputs a RECORD. -/
theorem wit_RecordsAreAllowedAndWhole :
    ∃ s t : State, s.Inv ∧ step s = .next t ∧
      t.out = s.out ++ [] ++ [.record 7 2 false false 3 (seq 48 0x720A721B722C)] ++ [] :=
  ⟨_, after (live bL [slotFC, slotX] 1), inv_live, rfl, by decide +kernel⟩

/-- A device in lock at the start of a block, with no group. -/
def lockedRun : State := { run with sync := .synchronized }

theorem inv_lockedRun : lockedRun.Inv :=
  inv_run rfl rfl rfl rfl rfl rfl (by decide) (by decide) (by decide) (by decide)

/-- The shortest group: FIRST and LAST, the information fields of F and of a LAST block at position 1. -/
theorem wit_GroupRoundTripGivesItsRecord :
    lockedRun.Inv ∧ lockedRun.phase = .run ∧ lockedRun.sync = .synchronized ∧ lockedRun.fill = 0 ∧
    AllFree lockedRun.slots ∧ (lockedRun.allowEn = true → allowBit lockedRun 7 = true) ∧
    2 ≤ [seq 16 0x720A, seq 16 0x721B].length ∧ [seq 16 0x720A, seq 16 0x721B].length ≤ 2 ^ lockedRun.cfg.wPos ∧
    ((⟨0x5A, .first⟩ : BicEntry) ∈ lockedRun.cfg.bicTab ∧ (⟨0x45, .cont⟩ : BicEntry) ∈ lockedRun.cfg.bicTab ∧
      (⟨0xB9, .last⟩ : BicEntry) ∈ lockedRun.cfg.bicTab) ∧
    ∀ (p : Nat) (info : BitSeq), [seq 16 0x720A, seq 16 0x721B][p]? = some info →
      info.length = lockedRun.cfg.wInfo ∧ headerOf lockedRun.cfg info = (7, 2, p) := by
  refine ⟨inv_lockedRun, rfl, rfl, rfl, by unfold AllFree; decide, by decide, by decide, by decide, by decide, ?_⟩
  intro p info h
  match p with
  | 0 => simp only [List.getElem?_cons_zero, Option.some.injEq] at h; subst h; decide
  | 1 => simp only [List.getElem?_cons_succ, List.getElem?_cons_zero, Option.some.injEq] at h; subst h; decide
  | p + 2 => simp at h

end Sys2Proof.Tests
end

section
/-! PROOFS. Remainders over GF(2) (00_scope.md R14): the multiples of `g` as sums of shifted copies of `g`. -/

namespace Sys2Proof.Machine

/-- The sum over GF(2) of the copies of `g` shifted by each of `ks`. -/
def shiftSum (g : Nat) (ks : List Nat) : Nat := ks.foldr (fun k acc => (g <<< k) ^^^ acc) 0

@[simp] theorem shiftSum_nil (g : Nat) : shiftSum g [] = 0 := rfl

@[simp] theorem shiftSum_cons (g k : Nat) (ks : List Nat) : shiftSum g (k :: ks) = (g <<< k) ^^^ shiftSum g ks := rfl

/-- One more place for every copy is one more place for the sum. -/
theorem shiftSum_map_succ (g : Nat) (ks : List Nat) : shiftSum g (ks.map (· + 1)) = shiftSum g ks <<< 1 := by
  induction ks with
  | nil => simp
  | cons k ks ih => rw [List.map_cons, shiftSum_cons, ih, shiftSum_cons, Nat.shiftLeft_xor_distrib, ← Nat.shiftLeft_add]

/-- Every sum of shifted copies is a multiple: each copy is the product with a monomial. -/
theorem exists_polyMul_of_shiftSum (g : Nat) (ks : List Nat) : ∃ qs, shiftSum g ks = polyMul g qs := by
  induction ks with
  | nil => exact ⟨[], rfl⟩
  | cons k ks ih =>
    obtain ⟨qs, hq⟩ := ih
    exact ⟨polyAdd (List.replicate k false ++ [true]) qs, by rw [polyMul_add, polyMul_monomial, shiftSum_cons, hq]⟩

/-- Every multiple is a sum of shifted copies: one copy for each coefficient 1. -/
theorem exists_shiftSum_of_polyMul (g : Nat) (qs : List Bool) : ∃ ks, polyMul g qs = shiftSum g ks := by
  induction qs with
  | nil => exact ⟨[], rfl⟩
  | cons b qs ih =>
    obtain ⟨ks, hk⟩ := ih
    rw [polyMul, hk, ← shiftSum_map_succ]
    cases b with
    | false => exact ⟨ks.map (· + 1), by simp⟩
    | true => exact ⟨0 :: ks.map (· + 1), by simp⟩

/-- Settles O43: `pmod_lt` and `pmod_multiple` give the two properties, `pmod_eq` says they fix the remainder. -/
theorem pmodIsTheRemainder : Obligations.PmodIsTheRemainder := by
  intro a g hg r
  constructor
  · rintro rfl
    obtain ⟨qs, hq⟩ := pmod_multiple a g
    obtain ⟨ks, hk⟩ := exists_shiftSum_of_polyMul g qs
    exact ⟨pmod_lt hg a, ks, hq.trans hk⟩
  · rintro ⟨hr, ks, hk⟩
    obtain ⟨qs, hq⟩ := exists_polyMul_of_shiftSum g ks
    exact pmod_eq hg hr (hk.trans hq)

end Sys2Proof.Machine
end

section
/-! PROOFS. The six items of `wf(Cfg)` (00_scope.md R9), each check against what the item says, and START where the
check fails. -/

namespace Sys2Proof.Machine

/-- A list is pairwise related when every two of its places are, the lower first. -/
theorem pairwise_iff_getElem? {α : Type} {l : List α} {R : α → α → Prop} :
    l.Pairwise R ↔ ∀ (i j : Nat) (a b : α), i < j → l[i]? = some a → l[j]? = some b → R a b := by
  rw [List.pairwise_iff_getElem]
  constructor
  · intro h i j a b hij hi hj
    obtain ⟨hi', rfl⟩ := List.getElem?_eq_some_iff.mp hi
    obtain ⟨hj', rfl⟩ := List.getElem?_eq_some_iff.mp hj
    exact h i j hi' hj' hij
  · intro h i j hi hj hij
    exact h i j _ _ hij (List.getElem?_eq_getElem hi) (List.getElem?_eq_getElem hj)

/-! ### No pattern stands twice in the enumeration of R9 item 4 -/

theorem patternsOfWeight_nodup (n t : Nat) : (patternsOfWeight n t).Nodup := by
  induction n generalizing t with
  | zero => cases t <;> simp [patternsOfWeight]
  | succ n ih =>
    have hcons (b : Bool) (t : Nat) : ((patternsOfWeight n t).map (b :: ·)).Nodup :=
      (ih t).map List.cons_injective
    cases t with
    | zero => exact hcons false 0
    | succ t =>
      refine (hcons false (t + 1)).append (hcons true t) fun e hf ht => ?_
      obtain ⟨u, -, rfl⟩ := List.mem_map.mp hf
      simp at ht

theorem errorPatterns_nodup (n t : Nat) : (errorPatterns n t).Nodup := by
  induction t with
  | zero => exact List.nodup_nil
  | succ t ih =>
    refine ih.append (patternsOfWeight_nodup n (t + 1)) fun e he hw => ?_
    obtain ⟨-, -, hle⟩ := mem_errorPatterns.mp he
    obtain ⟨-, hwt⟩ := mem_patternsOfWeight.mp hw
    omega

/-! ### The six items -/

/-- 00_scope.md R9 item 1. -/
theorem cfgRangesOk_iff (c : Cfg) :
    cfgRangesOk c = true ↔
      1 ≤ c.wBic ∧ 1 ≤ c.wInfo ∧ 1 ≤ c.wPar ∧ c.wBic + c.wInfo + c.wCrc + c.wPar ≤ 65535 ∧ c.bicTab ≠ [] ∧
        2 * c.bicTol < c.wBic ∧ c.wSi ∈ Set.Icc 1 11 ∧ c.wGseq ∈ Set.Icc 1 16 ∧ c.wPos ∈ Set.Icc 1 16 ∧
        c.nAcc ∈ Set.Icc 1 65535 := by
  have hne : 1 ≤ c.bicTab.length ↔ c.bicTab ≠ [] := List.length_pos_iff
  simp only [cfgRangesOk, Bool.and_eq_true, decide_eq_true_eq, hne, Set.mem_Icc, and_assoc]
  rw [Cfg.blockLen]

/-- 00_scope.md R9 item 2. -/
theorem cfgBicTabOk_iff (c : Cfg) :
    cfgBicTabOk c = true ↔
      (∀ e ∈ c.bicTab, e.value < 2 ^ c.wBic) ∧
        ∀ (i j : Nat) (e f : BicEntry), i < j → c.bicTab[i]? = some e → c.bicTab[j]? = some f →
          2 * c.bicTol + 1 ≤ ham c.wBic e.value f.value := by
  simp only [cfgBicTabOk, Bool.and_eq_true, List.all_eq_true, decide_eq_true_eq, pairwise_iff_getElem?]

/-- 00_scope.md R9 item 3. -/
theorem cfgFecGenOk_iff (c : Cfg) :
    cfgFecGenOk c = true ↔
      c.fecG < 2 ^ (c.wPar + 1) ∧ c.fecG.testBit c.wPar = true ∧ c.fecG.testBit 0 = true := by
  simp only [cfgFecGenOk, Bool.and_eq_true, decide_eq_true_eq, and_assoc]

/-- 00_scope.md R9 item 4: no syndrome is listed twice exactly when `syn` is injective, for no pattern is. -/
theorem cfgFecRadiusOk_iff (c : Cfg) :
    cfgFecRadiusOk c = true ↔
      ∀ e, Claim.inRadius c e → syn c e ≠ 0 ∧ ∀ e', Claim.inRadius c e' → syn c e = syn c e' → e = e' := by
  have hmem (e : BitSeq) : e ∈ errorPatterns c.codeLen c.fecT ↔ Claim.inRadius c e := mem_errorPatterns
  simp only [cfgFecRadiusOk, Bool.and_eq_true, decide_eq_true_eq,
    List.nodup_map_iff_inj_on (errorPatterns_nodup _ _), List.mem_map, hmem, not_exists, not_and]
  exact forall₂_and.symm

/-- 00_scope.md R9 item 5. -/
theorem cfgCrcOk_iff (c : Cfg) :
    cfgCrcOk c = true ↔
      (0 < c.wCrc → c.crcP < 2 ^ (c.wCrc + 1) ∧ c.crcP.testBit c.wCrc = true ∧ c.crcP.testBit 0 = true) := by
  simp only [cfgCrcOk, Bool.or_eq_true, Bool.and_eq_true, beq_iff_eq, decide_eq_true_eq, and_assoc,
    Nat.pos_iff_ne_zero, or_iff_not_imp_left, ne_eq]

/-- Two intervals that are not empty have no element in common exactly when one ends before the other begins. -/
theorem disjointIntervals_iff {a v b w : Nat} (hv : 1 ≤ v) (hw : 1 ≤ w) :
    disjointIntervals a v b w = true ↔ ∀ k, ¬(k ∈ Set.Ico a (a + v) ∧ k ∈ Set.Ico b (b + w)) := by
  simp only [disjointIntervals, Bool.or_eq_true, decide_eq_true_eq, Set.mem_Ico]
  constructor
  · intro h k
    omega
  · intro h
    have := h (max a b)
    omega

/-- 00_scope.md R9 item 6, for fields that are not empty (item 1). -/
theorem cfgHeaderOk_iff {c : Cfg} (hs : 1 ≤ c.wSi) (hg : 1 ≤ c.wGseq) (hp : 1 ≤ c.wPos) :
    cfgHeaderOk c = true ↔
      (c.siOff + c.wSi ≤ c.wInfo ∧ c.gseqOff + c.wGseq ≤ c.wInfo ∧ c.posOff + c.wPos ≤ c.wInfo) ∧
        ∀ k, ¬(k ∈ Set.Ico c.siOff (c.siOff + c.wSi) ∧ k ∈ Set.Ico c.gseqOff (c.gseqOff + c.wGseq)) ∧
          ¬(k ∈ Set.Ico c.siOff (c.siOff + c.wSi) ∧ k ∈ Set.Ico c.posOff (c.posOff + c.wPos)) ∧
          ¬(k ∈ Set.Ico c.gseqOff (c.gseqOff + c.wGseq) ∧ k ∈ Set.Ico c.posOff (c.posOff + c.wPos)) := by
  simp only [cfgHeaderOk, Bool.and_eq_true, decide_eq_true_eq, disjointIntervals_iff hs hg,
    disjointIntervals_iff hs hp, disjointIntervals_iff hg hp, forall_and, and_assoc]

/-- `wf(Cfg)` is the conjunction of its checks (00_scope.md R9). -/
theorem cfgWf_iff (c : Cfg) :
    cfgWf c = true ↔
      cfgRangesOk c = true ∧ cfgBicTabOk c = true ∧ cfgFecGenOk c = true ∧ cfgFecRadiusOk c = true ∧
        cfgCrcOk c = true ∧ cfgHeaderOk c = true := by
  simp only [cfgWf, Bool.and_eq_true, and_assoc]

/-! ### START -/

/-- START in CONFIG where `start_ok()` fails raises CFG_INVALID (40_commands.md R103). -/
theorem exec_start_of_not_startOk {s : State} (hp : s.phase = .config) (h : startOk s = false) :
    exec .start s = .next (raiseFault .cfgInvalid s) := by
  simp only [exec, execStart]
  rw [inPhase_legal hp (by decide), startBody, h]
  rfl

/-- Settles O25: the five items that stand alone are their checks; the check of item 6 is right for the fields that item 1
makes not empty. -/
theorem wellFormedCfgMeansItsSixItems : Obligations.WellFormedCfgMeansItsSixItems := by
  intro c
  constructor
  · rintro s rfl hp hwf
    exact exec_start_of_not_startOk hp (by rw [startOk, hwf]; rfl)
  · rw [cfgWf_iff, ← cfgBicTabOk_iff, ← cfgFecGenOk_iff, ← cfgFecRadiusOk_iff, ← cfgCrcOk_iff, cfgRangesOk_iff]
    refine and_congr_right fun ⟨_, _, _, _, _, _, hsi, hgseq, hpos, _⟩ => ?_
    rw [cfgHeaderOk_iff hsi.1 hgseq.1 hpos.1]

end Sys2Proof.Machine
end

section
/-! PROOFS. Instructions as functions on states: every instruction has a next state (70_reset_and_hazards.md R236). -/

namespace Sys2Proof.Machine

/-- The next state of an instruction. -/
def effect : Instr → State → State
  | .nop, s => s
  | .bit b, s => inPhase .run (bitStep b) s
  | .eos, s => inPhase .run eosBody s
  | .stop, s => inPhase .run stopBody s
  | .reset, s => resetDevice s
  | .start, s => inPhase .config startBody s
  | .cfgwr a d, s => inPhase .config (cfgwrBody a d) s
  | .rdreg a, s => rdregBody a s
  | .blkFirst f, s => deliver .first false f s
  | .blkCont f, s => deliver .cont false f s
  | .blkLast f, s => deliver .last false f s
  | .blkNone f, s => deliver .none true f s

theorem exec_eq_effect (i : Instr) (s : State) : exec i s = .next (effect i s) := by cases i <;> rfl

/-- All a step can do, by the effect of the command word it takes. -/
theorem step_effect_cases {s t : State} (h : step s = .next t) :
    (s.port = [] ∧ t = s) ∨
    ∃ w rest, s.port = w :: rest ∧
      ((∃ e, decodeCommand w = .error e ∧ t = illegalWord { s with port := rest }) ∨
       (∃ i, decodeCommand w = .ok i ∧ t = effect i { s with port := rest })) := by
  rcases step_cases h with h | ⟨w, rest, hp, h | ⟨i, hd, he⟩⟩
  · exact .inl h
  · exact .inr ⟨w, rest, hp, .inl h⟩
  · rw [exec_eq_effect, Host.Outcome.next.injEq] at he
    exact .inr ⟨w, rest, hp, .inr ⟨i, hd, he.symm⟩⟩

end Sys2Proof.Machine
end

section
/-! PROOFS. The invariant (10_state.md R44, R47): it holds after reset (R45), and every step keeps it. -/

namespace Sys2Proof.Machine

/-! ### Reset -/

theorem allFree_replicate_reset (n : Nat) : AllFree (List.replicate n Slot.reset) := by
  intro t ht
  rw [List.eq_of_mem_replicate ht]
  rfl

/-- Settles O20: nothing is counted, collected or OPEN, and the masks are 0. -/
theorem invariantHoldsAtReset : Obligations.InvariantHoldsAtReset := by
  intro c
  obtain ⟨hok, hkeys, hidles⟩ := slotsInv_iff.mp
    (slotsInv_of_allFree (c := c) (timeout := 16) (allFree_replicate_reset c.nAcc))
  exact {
    win_length := List.length_replicate
    slots_length := List.length_replicate
    mask_length := List.length_replicate
    mask_reserved := by
      intro j v hv
      rw [List.eq_of_mem_replicate (List.mem_of_getElem? hv)]
      exact BitVec.zero_and
    fill_le := Nat.zero_le _
    full_unsync := fun _ => rfl
    miss_lt := .inl rfl
    miss_unsync := fun _ => rfl
    config_idle := fun _ => ⟨rfl, rfl, allFree_replicate_reset _⟩
    ended_idle := fun _ => ⟨rfl, allFree_replicate_reset _⟩
    slot_ok := hok
    keys_distinct := hkeys
    idles_distinct := hidles
    cause_iff := by simp [State.resetWith]
    started := by simp [State.resetWith] }

/-- Settles O18: RESET keeps only `cfg`, the pending words and the output of the state before. -/
theorem resetValues : Obligations.ResetValues := by
  rintro c before s (rfl | ⟨rfl, h⟩)
  · exact ⟨rfl, rfl, rfl, rfl, rfl, rfl, rfl, rfl, rfl, rfl, rfl, rfl, rfl⟩
  · rw [exec_eq_effect, Host.Outcome.next.injEq] at h
    rw [← h]
    exact ⟨rfl, rfl, rfl, rfl, rfl, rfl, rfl, rfl, rfl, rfl, rfl, rfl, rfl⟩

/-- RESET establishes the invariant (40_commands.md R107). -/
theorem resetDevice_inv (s : State) : (resetDevice s).Inv :=
  ((invariantHoldsAtReset s.cfg).withPort s.port).withOut s.out

/-! ### The commands other than BIT -/

theorem State.Inv.inPhase {s : State} (h : s.Inv) {legal : Phase} {body : State → State}
    (hbody : s.phase = legal → (body s).Inv) : (Machine.inPhase legal body s).Inv := by
  rcases inPhase_cases legal body s with ⟨-, he⟩ | ⟨-, -, he⟩ | ⟨-, hl, he⟩ <;> rw [he]
  · exact h
  · exact h.raiseFault _
  · exact hbody hl

theorem State.Inv.illegalWord {s : State} (h : s.Inv) : (Machine.illegalWord s).Inv := by
  unfold Machine.illegalWord
  split
  · exact h
  · exact h.raiseFault _

theorem State.Inv.faultCause_none {s : State} (h : s.Inv) (hp : s.phase ≠ .fault) : s.faultCause = none :=
  not_ne_iff.mp (mt h.cause_iff.mp hp)

/-- START enters RUN, where nothing of CONFIG is asked any more (40_commands.md R103). -/
theorem State.Inv.startBody {s : State} (h : s.Inv) (hp : s.phase = .config) : (Machine.startBody s).Inv := by
  unfold Machine.startBody
  split
  · next hok =>
    have hcause := h.faultCause_none (by simp [hp])
    exact { h with
      config_idle := by simp
      ended_idle := by simp
      cause_iff := by simp [hcause]
      started := fun _ => hok }
  · exact h.raiseFault _

/-- Writing one mask keeps the masks' number and their reserved bits 0 (10_state.md R39). -/
theorem mask_reserved_set {c : Cfg} {masks : List Reg16}
    (h : ∀ (j : Nat) (v : Reg16), masks[j]? = some v → v &&& allowBits c j = v) (k : Nat) (d : Reg16) (j : Nat) (v : Reg16)
    (hv : (masks.set k (d &&& allowBits c k))[j]? = some v) : v &&& allowBits c j = v := by
  rw [List.getElem?_set] at hv
  split at hv
  · next hkj =>
    subst hkj
    obtain ⟨-, rfl⟩ : k < masks.length ∧ d &&& allowBits c k = v := by simpa using hv
    rw [BitVec.and_assoc, BitVec.and_self]
  · exact h j v hv

/-- In CONFIG no counter runs and no slot is OPEN, so no value of a register breaks a bound (20_memory.md R65). -/
theorem State.Inv.regWrite {s : State} (h : s.Inv) (hp : s.phase = .config) (r : RegName) (d : Reg16) :
    (Machine.regWrite s r d).Inv := by
  obtain ⟨-, hsync, hfree⟩ := h.config_idle hp
  have hmiss : s.missCnt = 0 := h.miss_unsync hsync
  have hstarted {P : Prop} : s.phase = .run ∨ s.phase = .drained ∨ s.phase = .halted → P := by simp [hp]
  cases r with
  | status => exact h
  | missCnt => exact h
  | fill => exact h
  | openCnt => exact h
  | srcSel => exact { h with }
  | allowCtrl => exact { h with }
  | missTol => exact { h with miss_lt := .inl hmiss, started := hstarted }
  | grpTimeout =>
    exact { h with
      slot_ok := fun t ht ho => by simp [hfree t ht] at ho
      started := hstarted }
  | allowMask j =>
    exact { h with
      mask_length := by simpa [Machine.regWrite] using h.mask_length
      mask_reserved := mask_reserved_set h.mask_reserved j d }

theorem State.Inv.cfgwrBody {s : State} (h : s.Inv) (hp : s.phase = .config) (a : Addr) (d : Reg16) :
    (Machine.cfgwrBody a d s).Inv := by
  unfold Machine.cfgwrBody
  split
  · exact h.regWrite hp _ d
  · exact h.raiseFault _

theorem State.Inv.rdregBody {s : State} (h : s.Inv) (a : Addr) : (Machine.rdregBody a s).Inv := by
  unfold Machine.rdregBody
  split
  · exact h.withOut _
  · split
    · exact h
    · exact h.raiseFault _

/-- A started device has a block length that is not 0 and bounds that are not 0 (40_commands.md R103, R110). -/
theorem State.Inv.started_bounds {s : State} (h : s.Inv) (hp : s.phase = .run) :
    0 < s.cfg.blockLen ∧ 1 ≤ s.missTol.toNat ∧ 1 ≤ s.grpTimeout.toNat := by
  obtain ⟨hwf, hmiss, hgrp⟩ := (startOk_iff s).mp (h.started (.inl hp))
  obtain ⟨-, hlen, -⟩ := blockLen_pos hwf
  exact ⟨by omega, hmiss, hgrp⟩

/-- A run ended normally with every slot FREE and `FILL` 0 (40_commands.md R105, R106). -/
theorem State.Inv.ended {s : State} (h : s.Inv) (hp : s.phase = .run) {p : Phase} (hend : p = .drained ∨ p = .halted)
    {slots : List Slot} (hfree : AllFree slots) (hlen : slots.length = s.slots.length) (out : List Item) :
    State.Inv { s with phase := p, fill := 0, slots := slots, out := out } := by
  obtain ⟨hok, hkeys, hidles⟩ := slotsInv_iff.mp
    (slotsInv_of_allFree (c := s.cfg) (timeout := s.grpTimeout.toNat) hfree)
  obtain ⟨hpos, -, -⟩ := h.started_bounds hp
  have hcause := h.faultCause_none (by simp [hp])
  exact { h with
    slots_length := hlen.trans h.slots_length
    fill_le := Nat.zero_le _
    full_unsync := fun hfull => absurd hfull (Nat.ne_of_lt hpos)
    config_idle := by rcases hend with rfl | rfl <;> simp
    ended_idle := fun _ => ⟨rfl, hfree⟩
    slot_ok := hok
    keys_distinct := hkeys
    idles_distinct := hidles
    cause_iff := by rcases hend with rfl | rfl <;> simp [hcause]
    started := fun _ => h.started (.inl hp) }

theorem State.Inv.eosBody {s : State} (h : s.Inv) (hp : s.phase = .run) : (Machine.eosBody s).Inv := by
  refine h.ended hp (.inl rfl) ?_ (by simp [flushSlots]) _
  intro t ht
  simp only [State.emit_slots, flushSlots_slots, List.mem_map] at ht
  obtain ⟨u, -, rfl⟩ := ht
  cases hu : u.isOpen <;> simp [hu]

theorem State.Inv.stopBody {s : State} (h : s.Inv) (hp : s.phase = .run) : (Machine.stopBody s).Inv := by
  refine h.ended hp (.inr rfl) ?_ (by simp [freeAllSlots]) _
  intro t ht
  obtain ⟨u, -, rfl⟩ := List.mem_map.mp ht
  rfl

/-! ### BIT -/

/-- What BIT in RUN may write (41_frame_sync.md R132), with what the invariant asks of it. -/
theorem State.Inv.inRun {s : State} (h : s.Inv) (hp : s.phase = .run) {win : BitSeq} {fill missCnt : Nat} {sync : Sync}
    {slots : List Slot} (hwin : win.length = s.cfg.blockLen) (hfill : fill ≤ s.cfg.blockLen)
    (hfull : fill = s.cfg.blockLen → sync = .unsynchronized) (hmiss : missCnt = 0 ∨ missCnt < s.missTol.toNat)
    (hunsync : sync = .unsynchronized → missCnt = 0) (hlen : slots.length = s.slots.length)
    (hslots : SlotsInv s.cfg s.grpTimeout.toNat none slots) (out : List Item) :
    State.Inv { s with
      win := win, fill := fill, sync := sync, missCnt := missCnt, slots := slots, out := out } := by
  obtain ⟨hok, hkeys, hidles⟩ := slotsInv_iff.mp hslots
  exact { h with
    win_length := hwin
    slots_length := hlen.trans h.slots_length
    fill_le := hfill
    full_unsync := hfull
    miss_lt := hmiss
    miss_unsync := hunsync
    config_idle := by simp [hp]
    ended_idle := by simp [hp]
    slot_ok := hok
    keys_distinct := hkeys
    idles_distinct := hidles }

theorem State.Inv.slotsInv {s : State} (h : s.Inv) : SlotsInv s.cfg s.grpTimeout.toNat none s.slots :=
  slotsInv_iff.mpr ⟨h.slot_ok, h.keys_distinct, h.idles_distinct⟩

/-- The state a block is emitted in differs in the synchronizer and the output only. -/
theorem Emission.frame {s u : State} {r : Role} {b : Bool} (h : Emission s r b u) :
    u = { s with sync := u.sync, missCnt := u.missCnt, out := u.out } := by
  cases h <;> rfl

/-- A miss that does not lose lock leaves `MISS_CNT` below `MISS_TOL` (10_state.md R26). -/
theorem Emission.missCnt_bounds {s u : State} {r : Role} {b : Bool} (h : Emission s r b u) (hm : 1 ≤ s.missTol.toNat)
    (hlt : s.missCnt = 0 ∨ s.missCnt < s.missTol.toNat) :
    (u.missCnt = 0 ∨ u.missCnt < s.missTol.toNat) ∧ (u.sync = .unsynchronized → u.missCnt = 0) := by
  cases h with
  | acquire i _ => exact ⟨.inl rfl, fun _ => rfl⟩
  | hit i _ => exact ⟨.inl rfl, fun _ => rfl⟩
  | lost _ _ => exact ⟨.inl rfl, fun _ => rfl⟩
  | miss hs hne =>
    refine ⟨.inr ?_, fun hu => ?_⟩
    · show s.missCnt + 1 < s.missTol.toNat
      omega
    · exact absurd (hs.symm.trans hu) (by decide)

/-- An emitted block keeps the invariant: its codeword has the length of a codeword, so the slots stay good (R47). -/
theorem State.Inv.emitBlock {s u : State} {r : Role} {b : Bool} (h : s.Inv) (hp : s.phase = .run) {win : BitSeq}
    (hwin : win.length = s.cfg.blockLen) {fill : Nat} (hu : Emission { s with win := win, fill := fill } r b u) :
    (Machine.emitBlock r b (splitBlock s.cfg win) u).Inv := by
  obtain ⟨hpos, hmiss, hgrp⟩ := h.started_bounds hp
  obtain ⟨hlt, hunsync⟩ := hu.missCnt_bounds hmiss h.miss_lt
  have hslots : SlotsInv u.cfg u.grpTimeout.toNat none (deliver r b (splitBlock s.cfg win) u).slots := by
    rw [hu.frame]
    exact deliver_slots h.slotsInv (splitBlock_codeword_length hwin) hgrp
  have hlen := (deliver_pipe r b (splitBlock s.cfg win) u).length
  rw [emitBlock_frame]
  generalize (deliver r b (splitBlock s.cfg win) u).slots = slots at hslots hlen ⊢
  generalize (deliver r b (splitBlock s.cfg win) u).out = out
  rw [hu.frame] at hslots hlen ⊢
  exact h.inRun hp hwin (Nat.zero_le _) (fun hfull => absurd hfull (Nat.ne_of_lt hpos)) hlt hunsync hlen hslots out

theorem State.Inv.bitStep {s : State} (h : s.Inv) (hp : s.phase = .run) (b : Bool) : (Machine.bitStep b s).Inv := by
  have hwin : (s.win.drop 1 ++ [b]).length = s.cfg.blockLen := by
    have := h.win_length
    obtain ⟨hpos, -, -⟩ := h.started_bounds hp
    simp
    omega
  have hfill : (shiftIn b s).fill ≤ s.cfg.blockLen := by
    have := h.fill_le
    rw [shiftIn_fill]
    split <;> omega
  have hshift (hfull : (shiftIn b s).fill = s.cfg.blockLen → s.sync = .unsynchronized) : (shiftIn b s).Inv :=
    h.inRun hp hwin hfill hfull h.miss_lt h.miss_unsync rfl h.slotsInv s.out
  rcases bitStep_cases b s with ⟨hne, he⟩ | ⟨-, he⟩ <;> rw [he]
  · exact hshift fun hfull => absurd hfull hne
  · rcases syncCompare_cases (shiftIn b s) with ⟨hs, -, he⟩ | ⟨r, c, u, hu, he⟩ <;> rw [he]
    · exact hshift fun _ => hs
    · exact h.emitBlock hp hwin hu

/-! ### The step -/

/-- Every command keeps the invariant (10_state.md R47). -/
theorem State.Inv.effect {s : State} (h : s.Inv) {i : Instr} (hb : ∀ r f, i ≠ blockInstr r f) :
    (Machine.effect i s).Inv := by
  cases i with
  | nop => exact h
  | bit b => exact h.inPhase fun hp => h.bitStep hp b
  | eos => exact h.inPhase h.eosBody
  | stop => exact h.inPhase h.stopBody
  | reset => exact resetDevice_inv s
  | start => exact h.inPhase h.startBody
  | cfgwr a d => exact h.inPhase fun hp => h.cfgwrBody hp a d
  | rdreg a => exact h.rdregBody a
  | blkFirst f => exact absurd rfl (hb .first f)
  | blkCont f => exact absurd rfl (hb .cont f)
  | blkLast f => exact absurd rfl (hb .last f)
  | blkNone f => exact absurd rfl (hb .none f)

/-- Settles O21: command by command; a command word is never a block, which runs inside BIT only. -/
theorem everyStepKeepsInvariant : Obligations.EveryStepKeepsInvariant := by
  refine ⟨invariantHoldsAtReset, fun s t h hstep => ?_⟩
  rcases step_effect_cases hstep with ⟨-, rfl⟩ | ⟨w, rest, -, ⟨-, -, rfl⟩ | ⟨i, hd, rfl⟩⟩
  · exact h
  · exact (h.withPort rest).illegalWord
  · refine (h.withPort rest).effect fun r f hi => ?_
    exact decodeCommand_not_block w r f (hi ▸ hd)

end Sys2Proof.Machine
end

section
/-! PROOFS. Which commands change the phase (10_state.md R21), and the frames of BIT below the full window and of the block
instructions. -/

namespace Sys2Proof.Machine

/-! ### The phase -/

/-- How a command word, by what it decodes to, may take one phase to another (10_state.md R21). -/
inductive PhaseMove : Except DecodeReject Instr → Phase → Phase → Prop where
  | stay (d : Except DecodeReject Instr) (p : Phase) : PhaseMove d p p
  | start : PhaseMove (.ok .start) .config .run
  | eos : PhaseMove (.ok .eos) .run .drained
  | stop : PhaseMove (.ok .stop) .run .halted
  | reset (p : Phase) : PhaseMove (.ok .reset) p .config
  | fault (d : Except DecodeReject Instr) {p : Phase} (h : p ≠ .fault) : PhaseMove d p .fault

theorem illegalWord_phaseMove (d : Except DecodeReject Instr) (s : State) :
    PhaseMove d s.phase (illegalWord s).phase := by
  unfold illegalWord
  split
  · exact .stay d _
  · next h => exact .fault d h

theorem inPhase_phaseMove {d : Except DecodeReject Instr} {legal : Phase} {body : State → State} {s : State}
    (hbody : s.phase = legal → PhaseMove d s.phase (body s).phase) : PhaseMove d s.phase (inPhase legal body s).phase := by
  rcases inPhase_cases legal body s with ⟨-, he⟩ | ⟨hf, -, he⟩ | ⟨-, hl, he⟩ <;> rw [he]
  · exact .stay d _
  · exact .fault d hf
  · exact hbody hl

theorem startBody_phaseMove {s : State} (hp : s.phase = .config) :
    PhaseMove (.ok .start) s.phase (startBody s).phase := by
  rw [hp]
  unfold startBody
  split
  · exact .start
  · exact .fault _ (by decide)

theorem regWrite_phase (s : State) (r : RegName) (v : Reg16) : (regWrite s r v).phase = s.phase := by cases r <;> rfl

theorem cfgwrBody_phaseMove {a : Addr} {v : Reg16} {s : State} (hp : s.phase = .config) :
    PhaseMove (.ok (.cfgwr a v)) s.phase (cfgwrBody a v s).phase := by
  unfold cfgwrBody
  split
  · rw [regWrite_phase]
    exact .stay _ _
  · exact .fault _ (by simp [hp])

theorem rdregBody_phaseMove (a : Addr) (s : State) : PhaseMove (.ok (.rdreg a)) s.phase (rdregBody a s).phase := by
  unfold rdregBody
  split
  · exact .stay _ _
  · split
    · exact .stay _ _
    · next h => exact .fault _ h

theorem deliver_phaseMove (d : Except DecodeReject Instr) (r : Role) (b : Bool) (f : BlockFields) (s : State) :
    PhaseMove d s.phase (deliver r b f s).phase := by
  rw [(deliver_pipe r b f s).frame]
  exact .stay d _

theorem effect_phaseMove (i : Instr) (s : State) : PhaseMove (.ok i) s.phase (effect i s).phase := by
  cases i with
  | nop => exact .stay _ _
  | reset => exact .reset _
  | rdreg a => exact rdregBody_phaseMove a s
  | start => exact inPhase_phaseMove startBody_phaseMove
  | cfgwr a v => exact inPhase_phaseMove cfgwrBody_phaseMove
  | eos => exact inPhase_phaseMove fun hp => hp ▸ .eos
  | stop => exact inPhase_phaseMove fun hp => hp ▸ .stop
  | bit b =>
    refine inPhase_phaseMove fun _ => ?_
    rw [bitStep_frame]
    exact .stay _ _
  | blkFirst f => exact deliver_phaseMove _ _ _ f s
  | blkCont f => exact deliver_phaseMove _ _ _ f s
  | blkLast f => exact deliver_phaseMove _ _ _ f s
  | blkNone f => exact deliver_phaseMove _ _ _ f s

/-- Settles O13: the pending word moves the phase as `PhaseMove` says, and a waiting step does not move it. -/
theorem phaseChangesOnlyByItsCommands : Obligations.PhaseChangesOnlyByItsCommands := by
  intro s t hstep hne
  have hmove : ∃ w rest, s.port = w :: rest ∧ PhaseMove (decodeCommand w) s.phase t.phase := by
    rcases step_effect_cases hstep with ⟨-, rfl⟩ | ⟨w, rest, hport, ⟨e, hd, rfl⟩ | ⟨i, hd, rfl⟩⟩
    · exact absurd rfl hne
    · exact ⟨w, rest, hport, illegalWord_phaseMove _ { s with port := rest }⟩
    · exact ⟨w, rest, hport, hd ▸ effect_phaseMove i { s with port := rest }⟩
  obtain ⟨w, rest, hport, hmove⟩ := hmove
  rw [hport, List.head?_cons, Option.map_some]
  generalize decodeCommand w = d at hmove
  generalize s.phase = p, t.phase = q at hmove hne
  cases hmove with
  | stay => exact absurd rfl hne
  | start => exact .inl ⟨rfl, rfl, rfl⟩
  | eos => exact .inr (.inl ⟨rfl, rfl, rfl⟩)
  | stop => exact .inr (.inr (.inl ⟨rfl, rfl, rfl⟩))
  | reset => exact .inr (.inr (.inr (.inl ⟨rfl, rfl⟩)))
  | fault _ h => exact .inr (.inr (.inr (.inr ⟨h, rfl⟩)))

/-! ### Frames -/

/-- Settles O35: the shift does not fill the window, so nothing is compared. -/
theorem bitCollectsBelowFullWindow : Obligations.BitCollectsBelowFullWindow := by
  intro s b hp hfill
  have hcount : (shiftIn b s).fill = s.fill + 1 := by
    rw [shiftIn_fill, if_pos (by omega)]
  rw [exec_bit_run b hp]
  rcases bitStep_cases b s with ⟨-, he⟩ | ⟨hfull, -⟩
  · rw [he, shiftIn, if_pos (by omega)]
    rfl
  · omega

/-- Settles O55: a block instruction is `deliver`, which is a `PipeStep`. -/
theorem blockInstructionFrame : Obligations.BlockInstructionFrame := by
  intro r f s
  obtain ⟨hframe, ⟨items, hout⟩, hlen⟩ := deliver_pipe r (decide (r = .none)) f s
  exact ⟨_, items, exec_blockInstr r f s, by rw [← hout]; exact hframe, hlen⟩

end Sys2Proof.Machine
end

section
/-! PROOFS. The registers: the address map (10_state.md R29), reading what was written (R39), and the read-only views (R30,
R35 to R37). -/

namespace Sys2Proof.Machine

open Sys2Proof.Claim

/-! ### The address map -/

/-- Settles O26: `regAt_cases` is one direction; in the other each row evaluates. -/
theorem addressMapIsTheRegisterTable : Obligations.AddressMapIsTheRegisterTable := by
  intro c a r
  constructor
  · intro h
    simp only [← BitVec.toNat_inj]
    exact regAt_cases h
  · rintro (⟨rfl, rfl⟩ | ⟨rfl, rfl⟩ | ⟨rfl, rfl⟩ | ⟨rfl, rfl⟩ | ⟨rfl, rfl⟩ | ⟨rfl, rfl⟩ | ⟨rfl, rfl⟩ | ⟨rfl, rfl⟩ |
      ⟨j, hj, ha, rfl⟩)
    any_goals rfl
    exact regAt_allowMask hj ha

/-! ### Reading what was written -/

theorem regRead_regWrite_of_ne {r r' : RegName} (h : r' ≠ r) (s : State) (v : Reg16) :
    regRead (regWrite s r v) r' = regRead s r' := by
  cases r with
  | status => rfl
  | missCnt => rfl
  | fill => rfl
  | openCnt => rfl
  | missTol =>
    cases r' with
    | missTol => exact absurd rfl h
    | _ => rfl
  | grpTimeout =>
    cases r' with
    | grpTimeout => exact absurd rfl h
    | _ => rfl
  | srcSel =>
    cases r' with
    | srcSel => exact absurd rfl h
    | _ => rfl
  | allowCtrl =>
    cases r' with
    | allowCtrl => exact absurd rfl h
    | _ => rfl
  | allowMask j =>
    cases r' with
    | allowMask k =>
      have hjk : j ≠ k := fun e => h (e ▸ rfl)
      simp [regRead, regWrite, List.getD_eq_getElem?_getD, List.getElem?_set_ne hjk]
    | _ => rfl

theorem regRead_regWrite_self {s : State} {r : RegName} (hw : regWritable r = true)
    (hr : ∀ j, r = .allowMask j → j < s.allowMask.length) (v : Reg16) {k : Nat} (hk : k < 16) :
    (regRead (regWrite s r v) r).getLsbD k = (v.getLsbD k && !reservedBit s.cfg r k) := by
  cases r with
  | status => simp [regWritable] at hw
  | missCnt => simp [regWritable] at hw
  | fill => simp [regWritable] at hw
  | openCnt => simp [regWritable] at hw
  | missTol => exact (Bool.and_true _).symm
  | grpTimeout => exact (Bool.and_true _).symm
  | srcSel => exact (Bool.and_true _).symm
  | allowCtrl =>
    simp only [regRead, regWrite, reservedBit, BitVec.getLsbD_append]
    cases k <;> simp
  | allowMask j =>
    have hread : regRead (regWrite s (.allowMask j) v) (.allowMask j) = v &&& allowBits s.cfg j := by
      simp [regRead, regWrite, List.getD_eq_getElem?_getD, hr j rfl]
    simp only [hread, BitVec.getLsbD_and, allowBits_getLsbD _ _ _ hk, reservedBit, ← decide_not, Nat.not_le]

/-- A reserved bit reads 0 (10_state.md R39): of `ALLOW_MASK` because no mask of a good state has it. -/
theorem regRead_reservedBit {s : State} (h : s.Inv) {r : RegName} {k : Nat} (hk : k < 16)
    (hr : reservedBit s.cfg r k = true) : (regRead s r).getLsbD k = false := by
  cases r with
  | allowCtrl =>
    rw [reservedBit, decide_eq_true_eq] at hr
    obtain ⟨n, rfl⟩ : ∃ n, k = n + 1 := Nat.exists_eq_succ_of_ne_zero (by omega)
    simp only [regRead, BitVec.getLsbD_append]
    simp
  | allowMask j =>
    rw [regRead, List.getD_eq_getElem?_getD]
    cases hj : s.allowMask[j]? with
    | none => simp
    | some v =>
      rw [reservedBit, decide_eq_true_eq] at hr
      rw [Option.getD_some, ← h.mask_reserved j v hj, BitVec.getLsbD_and, allowBits_getLsbD _ _ _ hk,
        decide_eq_false (by omega), Bool.and_false]
  | _ => simp [reservedBit] at hr

theorem regWritable_of_writable {c : Cfg} {a : Addr} {r : RegName} (hw : writable c a = true) (hr : regAt c a = some r) :
    regWritable r = true := by
  simp only [writable, Bool.or_eq_true, Bool.and_eq_true, decide_eq_true_eq] at hw
  rcases regAt_cases hr with ⟨ha, rfl⟩ | ⟨-, rfl⟩ | ⟨-, rfl⟩ | ⟨-, rfl⟩ | ⟨-, rfl⟩ | ⟨ha, rfl⟩ | ⟨ha, rfl⟩ | ⟨ha, rfl⟩ |
    ⟨-, -, -, rfl⟩
  any_goals rfl
  all_goals omega

theorem regAt_allowMask_lt {c : Cfg} {a : Addr} {j : Nat} (h : regAt c a = some (.allowMask j)) : j < c.numAllow := by
  obtain ⟨k, hk, -, he⟩ : ∃ k, k < c.numAllow ∧ a.toNat = 0x10 + k ∧ RegName.allowMask j = .allowMask k := by
    simpa using regAt_cases h
  rwa [RegName.allowMask.inj he]

/-- CFGWR in CONFIG to the address of a writable register (40_commands.md R104). -/
theorem exec_cfgwr_of_writable {s : State} {a : Addr} {r : RegName} (hp : s.phase = .config) (hr : regAt s.cfg a = some r)
    (hw : regWritable r = true) (v : Reg16) : exec (.cfgwr a v) s = .next (regWrite s r v) := by
  rw [exec_eq_effect, effect, inPhase_legal hp (by decide), cfgwrBody, writableAt, hr]
  simp [hw]

/-- Settles O28: CFGWR is `regWrite`, which `regRead` reads back from its own register and does not see from another. -/
theorem cfgwrThenReadGivesWritableBits : Obligations.CfgwrThenReadGivesWritableBits := by
  intro s h
  refine ⟨fun r k hk hr => regRead_reservedBit h hk hr, fun a d r hp hwr hr => ?_⟩
  have hw := regWritable_of_writable hwr hr
  refine ⟨regWrite s r d, exec_cfgwr_of_writable hp hr hw d, ?_, fun k hk => ?_, fun r' hne => ?_⟩
  · rw [regWrite_phase, hp]
  · refine regRead_regWrite_self hw ?_ d hk
    rintro j rfl
    rw [h.mask_length]
    exact regAt_allowMask_lt hr
  · exact regRead_regWrite_of_ne hne s d

/-! ### The read-only views -/

theorem toNat_ofNat_of_lt {w n : Nat} (h : n < 2 ^ w) : (BitVec.ofNat w n).toNat = n := by
  rw [BitVec.toNat_ofNat, Nat.mod_eq_of_lt h]

/-- The bits of the `STATUS` view (10_state.md R30). -/
theorem statusView_getLsbD (s : State) (k : Nat) :
    (statusView s).getLsbD k =
      if k < 3 then (BitVec.ofNat 3 s.phase.code).getLsbD k
      else if k < 4 then (BitVec.ofNat 1 s.sync.code).getLsbD (k - 3)
      else (BitVec.ofNat 4 (causeCode s.faultCause)).getLsbD (k - 4) := by
  have hcause : ¬k - 3 - 1 < 4 → (BitVec.ofNat 4 (causeCode s.faultCause)).getLsbD (k - 4) = false :=
    fun h => BitVec.getLsbD_of_ge _ _ (by omega)
  unfold statusView
  simp only [BitVec.getLsbD_append, BitVec.getLsbD_zero]
  grind

theorem causeCode_lt (c : Option FaultCause) : causeCode c < 2 ^ 4 := by
  rcases c with _ | c
  · decide
  · cases c <;> decide

/-- The fields of the `STATUS` view (10_state.md R30). -/
theorem statusView_fields (s : State) :
    (statusView s).extractLsb' 0 3 = BitVec.ofNat 3 s.phase.code ∧
    (statusView s).getLsbD 3 = (s.sync == .synchronized) ∧
    (statusView s).extractLsb' 4 4 = BitVec.ofNat 4 (causeCode s.faultCause) ∧
    (statusView s).extractLsb' 8 8 = 0#8 := by
  refine ⟨BitVec.eq_of_getLsbD_eq fun i hi => ?_, ?_, BitVec.eq_of_getLsbD_eq fun i hi => ?_,
    BitVec.eq_of_getLsbD_eq fun i hi => ?_⟩
  · simp [hi, statusView_getLsbD]
  · rw [statusView_getLsbD]
    cases s.sync <;> rfl
  · simp [hi, statusView_getLsbD, show ¬4 + i < 3 by omega]
  · rw [BitVec.getLsbD_extractLsb', statusView_getLsbD, if_neg (by omega), if_neg (by omega),
      BitVec.getLsbD_of_ge _ _ (by omega)]
    simp

/-- Settles O32: the fields of `STATUS` are `statusView_fields`; the counters stay below 65536 by the bounds of the
invariant and of a well-formed `Cfg` (00_scope.md R9 item 1). -/
theorem statusViewsShowState : Obligations.StatusViewsShowState := by
  refine ⟨fun c => show 0#8 ++ 0#4 ++ 0#1 ++ 0#3 = 0#16 by decide, fun s h hwf => ?_⟩
  obtain ⟨hphase, hsync, hcause, hzero⟩ := statusView_fields s
  obtain ⟨-, -, hblock⟩ := blockLen_pos hwf
  obtain ⟨-, -, -, -, -, -, -, -, -, -, hacc⟩ := (cfgRangesOk_iff _).mp ((cfgWf_iff _).mp hwf).1
  have hmiss : s.missCnt < 2 ^ 16 := by
    have := s.missTol.isLt
    rcases h.miss_lt with h0 | hlt <;> omega
  have hfill : s.fill < 2 ^ 16 := by
    have := h.fill_le
    omega
  have hopen : openCount s.slots < 2 ^ 16 := by
    have hle : openCount s.slots ≤ s.slots.length := List.countP_le_length
    rw [h.slots_length] at hle
    omega
  refine ⟨hphase, hsync, ?_, hzero, toNat_ofNat_of_lt hmiss, toNat_ofNat_of_lt hfill, ?_⟩
  · rw [regRead, hcause, toNat_ofNat_of_lt (causeCode_lt _)]
  · rw [regRead, toNat_ofNat_of_lt hopen, openCount, List.countP_eq_length_filter]

end Sys2Proof.Machine
end

section
/-! PROOFS. What a step does not read (10_state.md R33, R41, R43; 20_memory.md R55): the output so far, `SRC_SEL`, and the
fields of FREE slots. The three are one argument: two runs that differ in these elements only go on so. -/

namespace Sys2Proof.Machine

open Sys2Proof.Claim

/-! ### Twin states -/

/-- In what two twin states may differ. -/
structure Slack where
  /-- They may differ in the fields other than `state` of FREE slots. -/
  freeSlots : Prop
  /-- They may differ in `SRC_SEL`. -/
  srcSel : Prop
  /-- The output that the first state began with. -/
  out₁ : List Item
  /-- The output that the second state began with. -/
  out₂ : List Item

/-- The slots are equal, or both are FREE and there is slack for FREE slots. -/
def SlotTwin (k : Slack) (t u : Slot) : Prop := t = u ∨ (k.freeSlots ∧ t.isOpen = false ∧ u.isOpen = false)

/-- Two states that differ only within the slack and have output the same items since they began. -/
structure Twin (k : Slack) (s t : State) : Prop where
  frame : t = { s with srcSel := t.srcSel, slots := t.slots, out := t.out }
  srcSel : s.srcSel = t.srcSel ∨ k.srcSel
  slots : List.Forall₂ (SlotTwin k) s.slots t.slots
  items : ∃ is, s.out = k.out₁ ++ is ∧ t.out = k.out₂ ++ is

variable {k : Slack}

theorem SlotTwin.refl (t : Slot) : SlotTwin k t t := .inl rfl

theorem SlotTwin.isOpen_eq {t u : Slot} (h : SlotTwin k t u) : t.isOpen = u.isOpen := by
  rcases h with rfl | ⟨-, ht, hu⟩
  · rfl
  · rw [ht, hu]

theorem SlotTwin.eq_of_open {t u : Slot} (h : SlotTwin k t u) (ho : t.isOpen = true) : t = u := by
  rcases h with rfl | ⟨-, ht, -⟩
  · rfl
  · simp [ho] at ht

theorem SlotTwin.freed {t u : Slot} (h : SlotTwin k t u) : SlotTwin k t.freed u.freed := by
  rcases h with rfl | ⟨hk, -, -⟩
  · exact .refl _
  · exact .inr ⟨hk, rfl, rfl⟩

/-! ### Lists of slots -/

theorem findIdx?_eq_of_forall₂ {α β : Type} {R : α → β → Prop} {p : α → Bool} {q : β → Bool}
    (hpq : ∀ a b, R a b → p a = q b) {xs : List α} {ys : List β} (h : List.Forall₂ R xs ys) :
    xs.findIdx? p = ys.findIdx? q := by
  induction h with
  | nil => rfl
  | cons hab _ ih => rw [List.findIdx?_cons, List.findIdx?_cons, hpq _ _ hab, ih]

theorem findSlot_twin {xs ys : List Slot} (h : List.Forall₂ (SlotTwin k) xs ys) (si gseq : Nat) :
    findSlot xs si gseq = findSlot ys si gseq := by
  refine findIdx?_eq_of_forall₂ (fun t u htu => ?_) h
  rcases htu with rfl | ⟨-, ht, hu⟩
  · rfl
  · simp [ht, hu]

theorem freeSlot_twin {xs ys : List Slot} (h : List.Forall₂ (SlotTwin k) xs ys) : freeSlot xs = freeSlot ys :=
  findIdx?_eq_of_forall₂ (fun _ _ htu => congrArg Bool.not htu.isOpen_eq) h

theorem openCount_twin {xs ys : List Slot} (h : List.Forall₂ (SlotTwin k) xs ys) : openCount xs = openCount ys := by
  unfold openCount
  induction h with
  | nil => rfl
  | cons hab _ ih => rw [List.countP_cons, List.countP_cons, hab.isOpen_eq, ih]

theorem filter_isOpen_twin {xs ys : List Slot} (h : List.Forall₂ (SlotTwin k) xs ys) :
    xs.filter Slot.isOpen = ys.filter Slot.isOpen := by
  induction h with
  | nil => rfl
  | @cons t u _ _ hab _ ih =>
    cases ht : t.isOpen with
    | false => rw [List.filter_cons_of_neg (by simp [ht]), List.filter_cons_of_neg (by simp [← hab.isOpen_eq, ht]), ih]
    | true =>
      obtain rfl := hab.eq_of_open ht
      rw [List.filter_cons_of_pos ht, List.filter_cons_of_pos ht, ih]

theorem eq_of_twin_of_allOpen {xs ys : List Slot} (h : List.Forall₂ (SlotTwin k) xs ys)
    (ho : ∀ t ∈ xs, t.isOpen = true) : xs = ys := by
  induction h with
  | nil => rfl
  | @cons t u xs ys hab _ ih =>
    rw [hab.eq_of_open (ho t List.mem_cons_self), ih fun v hv => ho v (List.mem_cons_of_mem t hv)]

theorem getElem?_twin {xs ys : List Slot} (h : List.Forall₂ (SlotTwin k) xs ys) {j : Nat} {t : Slot}
    (hj : xs[j]? = some t) (ho : t.isOpen = true) : ys[j]? = some t := by
  induction h generalizing j with
  | nil => simp at hj
  | cons hab _ ih =>
    cases j with
    | zero =>
      rw [List.getElem?_cons_zero, Option.some.injEq] at hj
      subst hj
      rw [List.getElem?_cons_zero, hab.eq_of_open ho]
    | succ j => exact ih hj

theorem set_twin {xs ys : List Slot} (h : List.Forall₂ (SlotTwin k) xs ys) (j : Nat) {t u : Slot} (htu : SlotTwin k t u) :
    List.Forall₂ (SlotTwin k) (xs.set j t) (ys.set j u) := by
  induction h generalizing j with
  | nil => exact .nil
  | cons hab hrest ih =>
    cases j with
    | zero => exact .cons htu hrest
    | succ j => exact .cons hab (ih j)

/-! ### The state -/

theorem Twin.cfg {s t : State} (h : Twin k s t) : t.cfg = s.cfg := by rw [h.frame]
theorem Twin.phase {s t : State} (h : Twin k s t) : t.phase = s.phase := by rw [h.frame]
theorem Twin.win {s t : State} (h : Twin k s t) : t.win = s.win := by rw [h.frame]
theorem Twin.fill {s t : State} (h : Twin k s t) : t.fill = s.fill := by rw [h.frame]
theorem Twin.sync {s t : State} (h : Twin k s t) : t.sync = s.sync := by rw [h.frame]
theorem Twin.missCnt {s t : State} (h : Twin k s t) : t.missCnt = s.missCnt := by rw [h.frame]
theorem Twin.missTol {s t : State} (h : Twin k s t) : t.missTol = s.missTol := by rw [h.frame]
theorem Twin.grpTimeout {s t : State} (h : Twin k s t) : t.grpTimeout = s.grpTimeout := by rw [h.frame]
theorem Twin.port {s t : State} (h : Twin k s t) : t.port = s.port := by rw [h.frame]

/-- An update that commutes with writing the three elements keeps twins. -/
theorem Twin.map {s t : State} (h : Twin k s t) (f : State → State)
    (hf : ∀ (s : State) (v : Reg16) (slots : List Slot) (out : List Item),
      f { s with srcSel := v, slots := slots, out := out } = { f s with srcSel := v, slots := slots, out := out }) :
    Twin k (f s) (f t) := by
  have hself (s : State) : f s = { f s with srcSel := s.srcSel, slots := s.slots, out := s.out } :=
    hf s s.srcSel s.slots s.out
  have hframe : f t = { f s with srcSel := t.srcSel, slots := t.slots, out := t.out } :=
    (congrArg f h.frame).trans (hf s t.srcSel t.slots t.out)
  rw [hframe, hself s]
  exact ⟨rfl, h.srcSel, h.slots, h.items⟩

theorem Twin.emitAll {s t : State} (h : Twin k s t) (is : List Item) : Twin k (s.emitAll is) (t.emitAll is) := by
  obtain ⟨js, hs, ht⟩ := h.items
  refine ⟨?_, h.srcSel, h.slots, js ++ is, ?_, ?_⟩
  · rw [h.frame]
    rfl
  · rw [State.emitAll_out, hs, List.append_assoc]
  · rw [State.emitAll_out, ht, List.append_assoc]

theorem Twin.emit {s t : State} (h : Twin k s t) (i : Item) : Twin k (s.emit i) (t.emit i) := h.emitAll [i]

theorem Twin.withSlots {s t : State} (h : Twin k s t) {xs ys : List Slot} (hxy : List.Forall₂ (SlotTwin k) xs ys) :
    Twin k { s with slots := xs } { t with slots := ys } := by
  refine ⟨?_, h.srcSel, hxy, h.items⟩
  rw [h.frame]

theorem Twin.setSlot {s t : State} (h : Twin k s t) (j : Nat) (u : Slot) : Twin k (s.setSlot j u) (t.setSlot j u) :=
  h.withSlots (set_twin h.slots j (.refl u))

theorem Twin.raiseFault {s t : State} (h : Twin k s t) (c : FaultCause) :
    Twin k (Machine.raiseFault c s) (Machine.raiseFault c t) :=
  (h.map (fun s => { s with phase := .fault, faultCause := some c }) fun _ _ _ _ => rfl).emit (.fault c)

/-! ### The assembler -/

theorem Twin.abandonSlot {s t : State} (h : Twin k s t) {j : Nat} (hj : t.slots[j]? = s.slots[j]?) (r : AbandonReason) :
    Twin k (Machine.abandonSlot j r s) (Machine.abandonSlot j r t) := by
  unfold Machine.abandonSlot
  rw [hj]
  split
  · exact (h.emit _).setSlot j _
  · exact h

theorem Twin.abandonFound {s t : State} (h : Twin k s t) (si gseq : Nat) (r : AbandonReason) :
    Twin k (Machine.abandonFound (findSlot s.slots si gseq) r s) (Machine.abandonFound (findSlot t.slots si gseq) r t) := by
  rw [← findSlot_twin h.slots]
  cases hf : findSlot s.slots si gseq with
  | none => exact h
  | some j =>
    obtain ⟨u, hu, ho, -, -⟩ := findSlot_some hf
    exact h.abandonSlot ((getElem?_twin h.slots hu ho).trans hu.symm) r

/-- Two answers of an action: twin states, and the same slot index. -/
def ActionTwin {α : Type} (k : Slack) (a b : State × α) : Prop := Twin k a.1 b.1 ∧ a.2 = b.2

/-- `allocate` evicts only where every slot is OPEN, and then the slots are equal. -/
theorem Twin.allocate {s t : State} (h : Twin k s t) : ActionTwin k (Machine.allocate s) (Machine.allocate t) := by
  unfold Machine.allocate
  rw [← freeSlot_twin h.slots]
  cases hf : freeSlot s.slots with
  | some j => exact ⟨h, rfl⟩
  | none =>
    have heq := eq_of_twin_of_allOpen h.slots (freeSlot_none hf)
    rw [heq]
    exact ⟨h.abandonSlot (by rw [heq]) .evicted, rfl⟩

theorem Twin.emitGroup {s t : State} (h : Twin k s t) (g : Group) :
    Twin k (Machine.emitGroup g s) (Machine.emitGroup g t) := by
  have hal : allowed t g.si = allowed s g.si := by
    rw [h.frame]
    rfl
  unfold Machine.emitGroup
  rw [hal]
  split
  · exact h.emitAll _
  · exact h

theorem awaitingSlot_twin {s t : State} (h : Twin k s t) (d : DecodedBlock) : awaitingSlot d t = awaitingSlot d s := by
  unfold awaitingSlot
  rw [← findSlot_twin h.slots]
  cases hf : findSlot s.slots d.si d.gseq with
  | none => rfl
  | some j =>
    obtain ⟨u, hu, ho, -, -⟩ := findSlot_some hf
    simp only [hu, getElem?_twin h.slots hu ho]

theorem Twin.dropBlock {s t : State} (h : Twin k s t) (d : DecodedBlock) :
    Twin k (Machine.dropBlock d s) (Machine.dropBlock d t) := h.emit _

theorem Twin.doFirst {s t : State} (h : Twin k s t) (d : DecodedBlock) :
    ActionTwin k (Machine.doFirst d s) (Machine.doFirst d t) := by
  obtain ⟨hstate, hindex⟩ := (h.abandonFound d.si d.gseq .restart).allocate
  unfold Machine.doFirst
  simp only [← hindex]
  split
  · exact ⟨hstate.setSlot _ _, rfl⟩
  · exact ⟨h.dropBlock d, rfl⟩

theorem Twin.doCont {s t : State} (h : Twin k s t) (d : DecodedBlock) :
    ActionTwin k (Machine.doCont d s) (Machine.doCont d t) := by
  unfold Machine.doCont
  rw [awaitingSlot_twin h]
  split
  · exact ⟨h.setSlot _ _, rfl⟩
  · exact ⟨h.dropBlock d, rfl⟩

theorem Twin.doLast {s t : State} (h : Twin k s t) (d : DecodedBlock) :
    ActionTwin k (Machine.doLast d s) (Machine.doLast d t) := by
  unfold Machine.doLast
  rw [awaitingSlot_twin h]
  split
  · exact ⟨(h.setSlot _ _).emitGroup _, rfl⟩
  · exact ⟨h.dropBlock d, rfl⟩

theorem Twin.roleAction {s t : State} (h : Twin k s t) (d : DecodedBlock) :
    ActionTwin k (Machine.roleAction d s) (Machine.roleAction d t) := by
  unfold Machine.roleAction
  cases d.role with
  | none => exact ⟨h.dropBlock d, rfl⟩
  | first => exact h.doFirst d
  | cont => exact h.doCont d
  | last =>
    simp only
    split
    · exact ⟨(h.abandonFound d.si d.gseq .restart).emitGroup _, rfl⟩
    · exact h.doLast d

theorem tickSlot_twin {t u : Slot} (h : SlotTwin k t u) (timeout : Nat) (touched : Bool) :
    SlotTwin k (tickSlot timeout touched t).1 (tickSlot timeout touched u).1 ∧
      (tickSlot timeout touched t).2 = (tickSlot timeout touched u).2 := by
  rcases h with rfl | ⟨hk, ht, hu⟩
  · exact ⟨.refl _, rfl⟩
  · simp only [tickSlot, ht, hu, Bool.false_and, Bool.false_eq_true, if_false]
    exact ⟨.inr ⟨hk, ht, hu⟩, trivial⟩

/-- What each slot and its events become in `tick` (43_group_assembler.md R170). -/
def tickTurns (timeout : Nat) (touched : Option Nat) (slots : List Slot) (n : Nat) : List (Slot × List Item) :=
  (slots.zipIdx n).map fun (t, j) => tickSlot timeout (touched == some j) t

theorem tick_eq_tickTurns (touched : Option Nat) (s : State) :
    tick touched s =
      State.emitAll { s with slots := (tickTurns s.grpTimeout.toNat touched s.slots 0).map Prod.fst }
        ((tickTurns s.grpTimeout.toNat touched s.slots 0).map Prod.snd).flatten := by
  rw [← List.flatMap_def]
  rfl

theorem tickTurns_twin {xs ys : List Slot} (h : List.Forall₂ (SlotTwin k) xs ys) (timeout : Nat) (touched : Option Nat)
    (n : Nat) :
    List.Forall₂ (SlotTwin k) ((tickTurns timeout touched xs n).map Prod.fst)
        ((tickTurns timeout touched ys n).map Prod.fst) ∧
      (tickTurns timeout touched xs n).map Prod.snd = (tickTurns timeout touched ys n).map Prod.snd := by
  induction h generalizing n with
  | nil => exact ⟨.nil, rfl⟩
  | cons hab _ ih =>
    obtain ⟨hslot, hitems⟩ := tickSlot_twin hab timeout (touched == some n)
    obtain ⟨hslots, hrest⟩ := ih (n + 1)
    exact ⟨.cons hslot hslots, congrArg₂ List.cons hitems hrest⟩

theorem Twin.tick {s t : State} (h : Twin k s t) (touched : Option Nat) :
    Twin k (Machine.tick touched s) (Machine.tick touched t) := by
  obtain ⟨hslots, hitems⟩ := tickTurns_twin h.slots s.grpTimeout.toNat touched 0
  rw [tick_eq_tickTurns, tick_eq_tickTurns, show t.grpTimeout.toNat = s.grpTimeout.toNat by rw [h.grpTimeout], hitems]
  exact (h.withSlots hslots).emitAll _

theorem Twin.deliver {s t : State} (h : Twin k s t) (r : Role) (b : Bool) (f : BlockFields) :
    Twin k (Machine.deliver r b f s) (Machine.deliver r b f t) := by
  unfold Machine.deliver assemble
  rw [h.cfg]
  obtain ⟨hact, htouched⟩ := (h.emitAll (decoderEvents (blockDecode s.cfg r b f))).roleAction (blockDecode s.cfg r b f)
  simp only [← htouched]
  exact hact.tick _

/-! ### BIT -/

theorem Twin.emitBlock {s t : State} (h : Twin k s t) (r : Role) (b : Bool) (f : BlockFields) :
    Twin k (Machine.emitBlock r b f s) (Machine.emitBlock r b f t) :=
  (h.deliver r b f).map (fun s => { s with fill := 0 }) fun _ _ _ _ => rfl

theorem Twin.acquireLock {s t : State} (h : Twin k s t) (i : Nat) :
    Twin k (Machine.acquireLock i s) (Machine.acquireLock i t) :=
  (h.map (fun s => { s with sync := .synchronized, missCnt := 0 }) fun _ _ _ _ => rfl).emit
    (mkEvent .syncAcquired i 0 0 0)

theorem Twin.loseLock {s t : State} (h : Twin k s t) : Twin k (Machine.loseLock s) (Machine.loseLock t) :=
  (h.map (fun s => { s with sync := .unsynchronized, missCnt := 0 }) fun _ _ _ _ => rfl).emit (mkEvent .syncLost 0 0 0 0)

theorem Twin.countMiss {s t : State} (h : Twin k s t) : Twin k (Machine.countMiss s) (Machine.countMiss t) := by
  have hcount := h.map (fun s => { s with missCnt := s.missCnt + 1 }) fun _ _ _ _ => rfl
  have hlost : (t.missCnt + 1 = t.missTol.toNat) = (s.missCnt + 1 = s.missTol.toNat) := by rw [h.missCnt, h.missTol]
  unfold Machine.countMiss
  simp only [hlost]
  split
  · exact hcount.loseLock
  · exact hcount

theorem Twin.scanStep {s t : State} (h : Twin k s t) (m : Option Nat) (f : BlockFields) :
    Twin k (Machine.scanStep m f s) (Machine.scanStep m f t) := by
  cases m with
  | none => exact h
  | some i =>
    have hrole : roleAt t.cfg i = roleAt s.cfg i := by rw [h.cfg]
    simp only [Machine.scanStep, hrole]
    exact (h.acquireLock i).emitBlock _ _ f

theorem Twin.lockStep {s t : State} (h : Twin k s t) (m : Option Nat) (f : BlockFields) :
    Twin k (Machine.lockStep m f s) (Machine.lockStep m f t) := by
  cases m with
  | none => exact h.countMiss.emitBlock _ _ f
  | some i =>
    have hrole : roleAt t.cfg i = roleAt s.cfg i := by rw [h.cfg]
    simp only [Machine.lockStep, hrole]
    exact (h.map (fun s => { s with missCnt := 0 }) fun _ _ _ _ => rfl).emitBlock _ _ f

theorem Twin.syncCompare {s t : State} (h : Twin k s t) : Twin k (Machine.syncCompare s) (Machine.syncCompare t) := by
  unfold Machine.syncCompare
  rw [h.cfg, h.win, h.sync]
  cases s.sync with
  | unsynchronized => exact h.scanStep _ _
  | synchronized => exact h.lockStep _ _

theorem Twin.bitStep {s t : State} (h : Twin k s t) (b : Bool) : Twin k (Machine.bitStep b s) (Machine.bitStep b t) := by
  have hshift : Twin k (shiftIn b s) (shiftIn b t) := h.map (shiftIn b) fun _ _ _ _ => rfl
  unfold Machine.bitStep
  simp only [hshift.fill, hshift.cfg]
  split
  · exact hshift.syncCompare
  · exact hshift

/-! ### The other commands -/

theorem Twin.inPhase {s t : State} (h : Twin k s t) {legal : Phase} {body : State → State}
    (hbody : Twin k (body s) (body t)) : Twin k (Machine.inPhase legal body s) (Machine.inPhase legal body t) := by
  unfold Machine.inPhase
  rw [h.phase]
  split
  · exact h
  · split
    · exact hbody
    · exact h.raiseFault _

theorem Twin.illegalWord {s t : State} (h : Twin k s t) : Twin k (Machine.illegalWord s) (Machine.illegalWord t) := by
  unfold Machine.illegalWord
  rw [h.phase]
  split
  · exact h
  · exact h.raiseFault _

theorem Twin.startBody {s t : State} (h : Twin k s t) : Twin k (Machine.startBody s) (Machine.startBody t) := by
  have hok : startOk t = startOk s := by
    rw [h.frame]
    rfl
  unfold Machine.startBody
  rw [hok]
  split
  · exact h.map (fun s => { s with phase := .run }) fun _ _ _ _ => rfl
  · exact h.raiseFault _

/-- A write of `SRC_SEL` makes it equal; a write of another register commutes with the three elements. -/
theorem Twin.regWrite {s t : State} (h : Twin k s t) (r : RegName) (v : Reg16) :
    Twin k (Machine.regWrite s r v) (Machine.regWrite t r v) := by
  cases r with
  | srcSel =>
    refine ⟨?_, .inl rfl, h.slots, h.items⟩
    rw [h.frame]
    rfl
  | status => exact h
  | missCnt => exact h
  | fill => exact h
  | openCnt => exact h
  | missTol => exact h.map (fun s => Machine.regWrite s .missTol v) fun _ _ _ _ => rfl
  | grpTimeout => exact h.map (fun s => Machine.regWrite s .grpTimeout v) fun _ _ _ _ => rfl
  | allowCtrl => exact h.map (fun s => Machine.regWrite s .allowCtrl v) fun _ _ _ _ => rfl
  | allowMask j => exact h.map (fun s => Machine.regWrite s (.allowMask j) v) fun _ _ _ _ => rfl

theorem Twin.cfgwrBody {s t : State} (h : Twin k s t) (a : Addr) (v : Reg16) :
    Twin k (Machine.cfgwrBody a v s) (Machine.cfgwrBody a v t) := by
  unfold Machine.cfgwrBody
  rw [h.cfg]
  split
  · exact h.regWrite _ v
  · exact h.raiseFault _

theorem Twin.eosBody {s t : State} (h : Twin k s t) : Twin k (Machine.eosBody s) (Machine.eosBody t) := by
  have hflush : Twin k (flushSlots { s with fill := 0 }) (flushSlots { t with fill := 0 }) := by
    unfold flushSlots
    simp only [← filter_isOpen_twin h.slots]
    refine ((h.map (fun s => { s with fill := 0 }) fun _ _ _ _ => rfl).withSlots ?_).emitAll _
    rw [List.forall₂_map_left_iff, List.forall₂_map_right_iff]
    refine h.slots.imp fun t u htu => ?_
    rw [← htu.isOpen_eq]
    split
    · exact htu.freed
    · exact htu
  exact (hflush.emit .endOfStream).map (fun s => { s with phase := .drained }) fun _ _ _ _ => rfl

theorem Twin.stopBody {s t : State} (h : Twin k s t) : Twin k (Machine.stopBody s) (Machine.stopBody t) := by
  have hfreed : List.Forall₂ (SlotTwin k) (s.slots.map Slot.freed) (t.slots.map Slot.freed) := by
    rw [List.forall₂_map_left_iff, List.forall₂_map_right_iff]
    exact h.slots.imp fun _ _ htu => htu.freed
  exact (h.map (fun s => { s with fill := 0, phase := .halted }) fun _ _ _ _ => rfl).withSlots hfreed

theorem Twin.resetDevice {s t : State} (h : Twin k s t) : Twin k (Machine.resetDevice s) (Machine.resetDevice t) := by
  refine ⟨?_, .inl rfl, ?_, h.items⟩
  · rw [h.frame]
    rfl
  · rw [resetDevice_slots, resetDevice_slots, h.cfg]
    exact List.forall₂_same.mpr fun u _ => .refl u

/-- Every register but `SRC_SEL` reads the same in twins: `OPEN_CNT` counts OPEN slots, and the others do not see slots. -/
theorem Twin.regRead {s t : State} (h : Twin k s t) (r : RegName) (hr : r = .srcSel → s.srcSel = t.srcSel) :
    Machine.regRead t r = Machine.regRead s r := by
  cases r with
  | srcSel => exact (hr rfl).symm
  | openCnt => exact congrArg (BitVec.ofNat 16) (openCount_twin h.slots).symm
  | _ =>
    rw [h.frame]
    rfl

theorem Twin.rdregBody {s t : State} (h : Twin k s t) {a : Addr} (ha : k.srcSel → a ≠ 0x03) :
    Twin k (Machine.rdregBody a s) (Machine.rdregBody a t) := by
  unfold Machine.rdregBody
  rw [h.cfg, h.phase]
  split
  · next r hreg =>
    rw [h.regRead r ?_]
    · exact h.emit _
    · rintro rfl
      refine h.srcSel.resolve_right fun hk => ha hk ?_
      have ha3 : a.toNat = 3 := by simpa using regAt_cases hreg
      exact BitVec.eq_of_toNat_eq ha3
  · split
    · exact h
    · exact h.raiseFault _

/-! ### The step -/

theorem Twin.effect {s t : State} (h : Twin k s t) {i : Instr} (hi : k.srcSel → i ≠ .rdreg 0x03) :
    Twin k (Machine.effect i s) (Machine.effect i t) := by
  cases i with
  | nop => exact h
  | bit b => exact h.inPhase (h.bitStep b)
  | eos => exact h.inPhase h.eosBody
  | stop => exact h.inPhase h.stopBody
  | reset => exact h.resetDevice
  | start => exact h.inPhase h.startBody
  | cfgwr a v => exact h.inPhase (h.cfgwrBody a v)
  | rdreg a => exact h.rdregBody fun hk ha => hi hk (congrArg Instr.rdreg ha)
  | blkFirst f => exact h.deliver _ _ f
  | blkCont f => exact h.deliver _ _ f
  | blkLast f => exact h.deliver _ _ f
  | blkNone f => exact h.deliver _ _ f

/-- Twins step to twins. -/
theorem Twin.step {s t : State} (h : Twin k s t)
    (hi : k.srcSel → s.port.head?.map decodeCommand ≠ some (.ok (.rdreg 0x03))) :
    ∃ s' t', Machine.step s = .next s' ∧ Machine.step t = .next t' ∧ Twin k s' t' := by
  cases hp : s.port with
  | nil => exact ⟨s, t, step_nil hp, step_nil (h.port.trans hp), h⟩
  | cons w rest =>
    have hrest : Twin k { s with port := rest } { t with port := rest } :=
      h.map (fun s => { s with port := rest }) fun _ _ _ _ => rfl
    cases hd : decodeCommand w with
    | error e => exact ⟨_, _, step_error hp hd, step_error (h.port.trans hp) hd, hrest.illegalWord⟩
    | ok i =>
      refine ⟨_, _, (step_ok hp hd).trans (exec_eq_effect i _),
        (step_ok (h.port.trans hp) hd).trans (exec_eq_effect i _), hrest.effect fun hk he => hi hk ?_⟩
      rw [hp, List.head?_cons, Option.map_some, hd, he]

/-! ### What is not read -/

theorem Twin.srcSel_eq {s t : State} (h : Twin k s t) (hk : ¬k.srcSel) : t.srcSel = s.srcSel :=
  (h.srcSel.resolve_right hk).symm

theorem Twin.slots_eq {s t : State} (h : Twin k s t) (hk : ¬k.freeSlots) : t.slots = s.slots := by
  have heq : List.Forall₂ Eq s.slots t.slots := h.slots.imp fun _ _ htu => htu.resolve_right fun hf => hk hf.1
  exact (List.forall₂_eq_eq_eq ▸ heq : s.slots = t.slots).symm

theorem Twin.out_eq {s t : State} (h : Twin k s t) (hk : k.out₁ = k.out₂) : t.out = s.out := by
  obtain ⟨is, hs, ht⟩ := h.items
  rw [hs, ht, hk]

theorem forall₂_slotTwin_refl (slots : List Slot) : List.Forall₂ (SlotTwin k) slots slots :=
  List.forall₂_same.mpr fun t _ => .refl t

/-- Settles O15: the run from the empty output gives the items and the next state; the run from another is its twin. -/
theorem outputIsAppendedAndNeverRead : Obligations.OutputIsAppendedAndNeverRead := by
  intro s
  have htwin (o : List Item) : Twin ⟨False, False, [], o⟩ { s with out := [] } { s with out := o } :=
    ⟨rfl, .inl rfl, forall₂_slotTwin_refl _, [], rfl, (List.append_nil o).symm⟩
  obtain ⟨t, -, ht, -, -⟩ := (htwin []).step False.elim
  refine ⟨t.out, t, fun o => ?_⟩
  obtain ⟨u, u', hu, hu', h⟩ := (htwin o).step False.elim
  obtain rfl : t = u := Host.Outcome.next.inj (ht.symm.trans hu)
  obtain ⟨is, his, hout⟩ := h.items
  rw [hu', h.frame, h.srcSel_eq not_false, h.slots_eq not_false, hout, his]
  rfl

/-- Settles O16: states that differ in `SRC_SEL` are twins. -/
theorem srcSelIsNeverRead : Obligations.SrcSelIsNeverRead := by
  intro s t v hstep hword
  have htwin : Twin ⟨False, True, s.out, s.out⟩ s { s with srcSel := v } :=
    ⟨rfl, .inr trivial, forall₂_slotTwin_refl _, [], (List.append_nil _).symm, (List.append_nil _).symm⟩
  obtain ⟨u, t', hu, ht', h⟩ := htwin.step fun _ => hword
  obtain rfl : t = u := Host.Outcome.next.inj (hstep.symm.trans hu)
  refine ⟨t'.srcSel, ?_⟩
  rw [ht', ← h.slots_eq not_false, ← h.out_eq rfl, ← h.frame]

/-- `sameOpen` is `SlotTwin` place by place. -/
theorem sameOpen_iff {xs ys : List Slot} (hk : k.freeSlots) : sameOpen xs ys ↔ List.Forall₂ (SlotTwin k) xs ys := by
  rw [List.forall₂_iff_get]
  refine and_congr_right fun _ => ⟨fun h i hx hy => ?_, fun h i t u ht hu => ?_⟩
  · rcases h i _ _ (List.getElem?_eq_getElem hx) (List.getElem?_eq_getElem hy) with hfree | heq
    · exact .inr ⟨hk, hfree⟩
    · exact .inl heq
  · obtain ⟨hx, rfl⟩ := List.getElem?_eq_some_iff.mp ht
    obtain ⟨hy, rfl⟩ := List.getElem?_eq_some_iff.mp hu
    exact (h i hx hy).symm.imp And.right id

/-- Settles O17: states that differ in FREE slots are twins. -/
theorem freeSlotFieldsAreNeverRead : Obligations.FreeSlotFieldsAreNeverRead := by
  intro s t slots hslots hstep
  have htwin : Twin ⟨True, False, s.out, s.out⟩ s { s with slots := slots } :=
    ⟨rfl, .inl rfl, (sameOpen_iff trivial).mp hslots, [], (List.append_nil _).symm, (List.append_nil _).symm⟩
  obtain ⟨u, t', hu, ht', h⟩ := htwin.step False.elim
  obtain rfl : t = u := Host.Outcome.next.inj (hstep.symm.trans hu)
  refine ⟨t'.slots, (sameOpen_iff trivial).mpr h.slots, ?_⟩
  rw [ht', ← h.srcSel_eq not_false, ← h.out_eq rfl, ← h.frame]

end Sys2Proof.Machine
end

section
/-! PROOFS. The command port (20_memory.md R62) and the configuration: which commands change it (20_memory.md R65, 40_commands.md
R107). -/

namespace Sys2Proof.Machine

/-- Settles O6: `step_ok` for the oldest pending word. -/
theorem stepRunsDecodedCommand : Obligations.StepRunsDecodedCommand :=
  fun _ _ _ _ hport hd => step_ok hport hd

/-! ### The configuration -/

/-- `Cfg` and the configuration registers (20_memory.md R65). -/
def State.configuration (s : State) : Cfg × Reg16 × Reg16 × Reg16 × Bool × List Reg16 :=
  (s.cfg, s.missTol, s.grpTimeout, s.srcSel, s.allowEn, s.allowMask)

theorem configuration_eq_iff {s t : State} :
    t.configuration = s.configuration ↔
      t.cfg = s.cfg ∧ t.missTol = s.missTol ∧ t.grpTimeout = s.grpTimeout ∧ t.srcSel = s.srcSel ∧
        t.allowEn = s.allowEn ∧ t.allowMask = s.allowMask := by
  simp only [State.configuration, Prod.mk.injEq]

theorem illegalWord_configuration (s : State) : (illegalWord s).configuration = s.configuration := by
  unfold illegalWord
  split <;> rfl

theorem inPhase_configuration {legal : Phase} {body : State → State} {s : State}
    (hbody : s.phase = legal → (body s).configuration = s.configuration) :
    (inPhase legal body s).configuration = s.configuration := by
  rcases inPhase_cases legal body s with ⟨-, he⟩ | ⟨-, -, he⟩ | ⟨-, hl, he⟩ <;> rw [he]
  · rfl
  · exact hbody hl

theorem startBody_configuration (s : State) : (startBody s).configuration = s.configuration := by
  unfold startBody
  split <;> rfl

theorem rdregBody_configuration (a : Addr) (s : State) : (rdregBody a s).configuration = s.configuration := by
  unfold rdregBody
  split
  · rfl
  · split <;> rfl

theorem bitStep_configuration (b : Bool) (s : State) : (bitStep b s).configuration = s.configuration := by
  rw [bitStep_frame]
  rfl

theorem deliver_configuration (r : Role) (b : Bool) (f : BlockFields) (s : State) :
    (deliver r b f s).configuration = s.configuration := by
  rw [(deliver_pipe r b f s).frame]
  rfl

theorem regWrite_cfg (s : State) (r : RegName) (v : Reg16) : (regWrite s r v).cfg = s.cfg := by cases r <;> rfl

theorem cfgwrBody_cfg (a : Addr) (v : Reg16) (s : State) : (cfgwrBody a v s).cfg = s.cfg := by
  unfold cfgwrBody
  split
  · exact regWrite_cfg s _ v
  · rfl

/-- All an instruction can do to the configuration (20_memory.md R65): keep it, or keep `Cfg` alone, by RESET or by CFGWR in
CONFIG. -/
theorem effect_configuration_cases (i : Instr) (s : State) :
    (effect i s).configuration = s.configuration ∨
    ((effect i s).cfg = s.cfg ∧ (i = .reset ∨ (s.phase = .config ∧ ∃ a d, i = .cfgwr a d))) := by
  cases i with
  | reset => exact .inr ⟨rfl, .inl rfl⟩
  | cfgwr a d =>
    by_cases hp : s.phase = .config
    · refine .inr ⟨?_, .inr ⟨hp, a, d, rfl⟩⟩
      rw [effect, inPhase_legal hp (by decide)]
      exact cfgwrBody_cfg a d s
    · exact .inl (inPhase_configuration fun h => absurd h hp)
  | nop => exact .inl rfl
  | bit b => exact .inl (inPhase_configuration fun _ => bitStep_configuration b s)
  | eos => exact .inl (inPhase_configuration fun _ => rfl)
  | stop => exact .inl (inPhase_configuration fun _ => rfl)
  | start => exact .inl (inPhase_configuration fun _ => startBody_configuration s)
  | rdreg a => exact .inl (rdregBody_configuration a s)
  | blkFirst f => exact .inl (deliver_configuration _ _ f s)
  | blkCont f => exact .inl (deliver_configuration _ _ f s)
  | blkLast f => exact .inl (deliver_configuration _ _ f s)
  | blkNone f => exact .inl (deliver_configuration _ _ f s)

/-- All a step can do to the configuration, by the command word it takes. -/
theorem step_configuration_cases {s t : State} (h : step s = .next t) :
    t.configuration = s.configuration ∨
    (t.cfg = s.cfg ∧ ∃ i, s.port.head?.map decodeCommand = some (.ok i) ∧
      (i = .reset ∨ (s.phase = .config ∧ ∃ a d, i = .cfgwr a d))) := by
  rcases step_effect_cases h with ⟨-, rfl⟩ | ⟨w, rest, hport, ⟨e, -, rfl⟩ | ⟨i, hd, rfl⟩⟩
  · exact .inl rfl
  · exact .inl (illegalWord_configuration { s with port := rest })
  · refine (effect_configuration_cases i { s with port := rest }).imp_right fun ⟨hcfg, hi⟩ => ⟨hcfg, i, ?_, hi⟩
    rw [hport, List.head?_cons, Option.map_some, hd]

/-- Settles O14: a step that does not keep the configuration took RESET, or CFGWR in CONFIG, which keep `Cfg`. -/
theorem configurationChangesOnlyInConfig : Obligations.ConfigurationChangesOnlyInConfig := by
  intro s t hstep
  rcases step_configuration_cases hstep with hkeep | ⟨hcfg, i, hport, rfl | ⟨hp, a, d, rfl⟩⟩
  · obtain ⟨hcfg, hregs⟩ := configuration_eq_iff.mp hkeep
    exact ⟨hcfg, fun hne => absurd hregs hne⟩
  · exact ⟨hcfg, fun _ => .inl hport⟩
  · exact ⟨hcfg, fun _ => .inr ⟨hp, a, d, hport⟩⟩

end Sys2Proof.Machine
end

section
/-! PROOFS. Encoding and decoding (30_encoding.md R70 to R81): each format is put together from its fields again, and so is
a block. -/

namespace Sys2Proof

open Machine

/-! ### The formats -/

/-- Format N (30_encoding.md R72), bit by bit. -/
theorem encodeN_eq_iff {op : BitVec 4} {w : Word} : encodeN op = w ↔ opField w = op ∧ zeroN w = true := by
  rw [opField_eq_iff, zeroN_iff]
  constructor
  · rintro rfl
    grind [encodeN]
  · rintro ⟨hop, hz⟩
    apply BitVec.eq_of_getLsbD_eq
    intro i hi
    have := hop (i - 28)
    have := hz i
    grind [encodeN]

/-- Format B (30_encoding.md R73), bit by bit. -/
theorem encodeB_eq_iff {op : BitVec 4} {b : Bool} {w : Word} :
    encodeB op b = w ↔ opField w = op ∧ zeroB w = true ∧ w.getLsbD 0 = b := by
  rw [opField_eq_iff, zeroB_iff]
  constructor
  · rintro rfl
    grind [encodeB]
  · rintro ⟨hop, hz, hb⟩
    apply BitVec.eq_of_getLsbD_eq
    intro i hi
    have := hop (i - 28)
    have := hz (i - 1)
    grind [encodeB]

theorem addrField_eq_iff {w : Word} {a : Addr} :
    addrField w = a ↔ ∀ i, i < 8 → w.getLsbD (20 + i) = a.getLsbD i := by
  constructor
  · rintro rfl
    grind [addrField]
  · intro h
    apply BitVec.eq_of_getLsbD_eq
    grind [addrField]

theorem dataField_eq_iff {w : Word} {d : Reg16} : dataField w = d ↔ ∀ i, i < 16 → w.getLsbD i = d.getLsbD i := by
  constructor
  · rintro rfl
    grind [dataField]
  · intro h
    apply BitVec.eq_of_getLsbD_eq
    grind [dataField]

/-- Format W (30_encoding.md R74), bit by bit. -/
theorem encodeW_eq_iff {op : BitVec 4} {a : Addr} {d : Reg16} {w : Word} :
    encodeW op a d = w ↔ opField w = op ∧ zeroW w = true ∧ addrField w = a ∧ dataField w = d := by
  rw [opField_eq_iff, zeroW_iff, addrField_eq_iff, dataField_eq_iff]
  constructor
  · rintro rfl
    grind [encodeW]
  · rintro ⟨hop, hz, ha, hd⟩
    apply BitVec.eq_of_getLsbD_eq
    intro i hi
    have := hop (i - 28)
    have := hz (i - 16)
    have := ha (i - 20)
    have := hd i
    grind [encodeW]

/-- Format R (30_encoding.md R75), bit by bit. -/
theorem encodeR_eq_iff {op : BitVec 4} {a : Addr} {w : Word} :
    encodeR op a = w ↔ opField w = op ∧ zeroR w = true ∧ addrField w = a := by
  rw [opField_eq_iff, zeroR_iff, addrField_eq_iff]
  constructor
  · rintro rfl
    grind [encodeR]
  · rintro ⟨hop, hz, ha⟩
    apply BitVec.eq_of_getLsbD_eq
    intro i hi
    have := hop (i - 28)
    have := hz i
    have := ha (i - 20)
    grind [encodeR]

/-! ### Commands -/

theorem opField_eq_ofNat {w : Word} {n : Nat} (h : (opField w).toNat = n) : opField w = BitVec.ofNat 4 n := by
  rw [← h, BitVec.ofNat_toNat, BitVec.setWidth_eq]

/-- A word that decodes is the encoding of what it decodes to: its format's fields make up the whole word. -/
theorem encode_of_decodeCommand {w : Word} {i : Instr} (h : decodeCommand w = .ok i) : encode i = .command w := by
  have hN {n : Nat} (hop : (opField w).toNat = n) (hz : zeroN w = true) : encodeN (BitVec.ofNat 4 n) = w :=
    encodeN_eq_iff.mpr ⟨opField_eq_ofNat hop, hz⟩
  rcases decodeCommand_ok h with ⟨hop, hz, rfl⟩ | ⟨hop, hz, rfl⟩ | ⟨hop, hz, rfl⟩ | ⟨hop, hz, rfl⟩ | ⟨hop, hz, rfl⟩ |
    ⟨hop, hz, rfl⟩ | ⟨hop, hz, rfl⟩ | ⟨hop, hz, rfl⟩
  · exact congrArg Code.command (hN hop hz)
  · exact congrArg Code.command (encodeB_eq_iff.mpr ⟨opField_eq_ofNat hop, hz, rfl⟩)
  · exact congrArg Code.command (hN hop hz)
  · exact congrArg Code.command (hN hop hz)
  · exact congrArg Code.command (hN hop hz)
  · exact congrArg Code.command (hN hop hz)
  · exact congrArg Code.command (encodeW_eq_iff.mpr ⟨opField_eq_ofNat hop, hz, rfl, rfl⟩)
  · exact congrArg Code.command (encodeR_eq_iff.mpr ⟨opField_eq_ofNat hop, hz, rfl⟩)

/-- A command has no operand that could be ill-formed. -/
theorem wf_of_decodeCommand (c : Cfg) {w : Word} {i : Instr} (h : decodeCommand w = .ok i) : i.wf c = true := by
  rcases decodeCommand_ok h with ⟨-, -, rfl⟩ | ⟨-, -, rfl⟩ | ⟨-, -, rfl⟩ | ⟨-, -, rfl⟩ | ⟨-, -, rfl⟩ |
    ⟨-, -, rfl⟩ | ⟨-, -, rfl⟩ | ⟨-, -, rfl⟩ <;> rfl

/-! ### Blocks -/

theorem wf_blockInstr (c : Cfg) (r : Role) (f : BlockFields) :
    (blockInstr r f).wf c = true ↔ f.widthsOk c = true ∧ roleOfBic c f.bic = r := by
  cases r <;> simp [blockInstr, Instr.wf]

theorem encode_blockInstr (r : Role) (f : BlockFields) : encode (blockInstr r f) = .block (joinBlock f) := by
  cases r <;> rfl

/-- Fields of the right widths, joined, decode to the block of the role the BIC gives (30_encoding.md R80, R81). -/
theorem decodeBlock_joinBlock {c : Cfg} {f : BlockFields} (h : f.widthsOk c = true) :
    decodeBlock c (joinBlock f) = .ok (blockInstr (roleOfBic c f.bic) f) := by
  rw [decodeBlock, if_pos (Laws.Shape.of_block h), splitBlock_joinBlock h]

theorem decode_encode_blockInstr {c : Cfg} {r : Role} {f : BlockFields} (h : (blockInstr r f).wf c = true) :
    decode c (encode (blockInstr r f)) = .ok (blockInstr r f) := by
  obtain ⟨hw, rfl⟩ := (wf_blockInstr c r f).mp h
  rw [encode_blockInstr]
  exact decodeBlock_joinBlock hw

/-! ### Round trips -/

/-- Settles O1: a command without operands is one word; the fields of an encoded format are the operands; a block is the
split of its joined fields. -/
theorem decodeOfEncodeGivesInstruction : Obligations.DecodeOfEncodeGivesInstruction := by
  intro c i h
  cases i with
  | nop => rfl
  | bit b => cases b <;> rfl
  | eos => rfl
  | stop => rfl
  | reset => rfl
  | start => rfl
  | cfgwr a d =>
    obtain ⟨hop, hz, ha, hd⟩ := (encodeW_eq_iff (op := 6) (a := a) (d := d)).mp rfl
    simp only [encode, decode, decodeCommand, hop, hz, ha, hd]
    rfl
  | rdreg a =>
    obtain ⟨hop, hz, ha⟩ := (encodeR_eq_iff (op := 7) (a := a)).mp rfl
    simp only [encode, decode, decodeCommand, hop, hz, ha]
    rfl
  | blkFirst f => exact decode_encode_blockInstr (r := .first) h
  | blkCont f => exact decode_encode_blockInstr (r := .cont) h
  | blkLast f => exact decode_encode_blockInstr (r := .last) h
  | blkNone f => exact decode_encode_blockInstr (r := .none) h

/-- Settles O2: `encode_of_decodeCommand` for a word; `L` bits are their split fields, joined. -/
theorem encodeOfDecodeGivesCode : Obligations.EncodeOfDecodeGivesCode := by
  intro c k i h
  cases k with
  | command w => exact ⟨encode_of_decodeCommand h, wf_of_decodeCommand c h⟩
  | block bits =>
    simp only [decode, decodeBlock] at h
    split at h
    · next hlen =>
      rw [← Except.ok.inj h, encode_blockInstr, joinBlock_splitBlock hlen, wf_blockInstr]
      exact ⟨rfl, splitBlock_widthsOk hlen, rfl⟩
    · cases h

end Sys2Proof
end

section
/-! PROOFS. The opcode map (30_encoding.md R76): a word is of a row exactly when its opcode is the row's and the zero field of
the format is 0, which the row's mask and match say at once. -/

namespace Sys2Proof

open Machine Claim

/-! ### Masks -/

/-- A field of a word is 0 exactly when the word masked with the field's bits is. -/
theorem extractLsb'_eq_zero_iff (w : Word) (lo len : Nat) :
    w.extractLsb' lo len = 0#len ↔ w &&& ((BitVec.allOnes len).setWidth 32 <<< lo) = 0#32 := by
  rw [and_mask_eq_iff]
  constructor
  · intro h i hi
    have hbit : (w.extractLsb' lo len).getLsbD (i - lo) = false := by rw [h, BitVec.getLsbD_zero]
    grind
  · intro h
    apply BitVec.eq_of_getLsbD_eq
    intro i hi
    have := h (lo + i)
    grind

/-- The bits of the opcode (30_encoding.md R71). -/
def opcodeMask : Word := BitVec.allOnes 32 <<< 28

theorem getLsbD_opcodeMask {i : Nat} (hi : i < 32) : opcodeMask.getLsbD i = decide (28 ≤ i) := by
  simp only [opcodeMask, BitVec.getLsbD_shiftLeft, BitVec.getLsbD_allOnes]
  grind

/-- A mask of the opcode and a zero field asks for both at once (30_encoding.md R76). -/
theorem and_opcodeMask_or_eq_iff (w : Word) {z : Word} (hz : z.toNat < 2 ^ 28) {op : Nat} (hop : op < 16) :
    w &&& (opcodeMask ||| z) = BitVec.ofNat 32 op <<< 28 ↔ (opField w).toNat = op ∧ w &&& z = 0#32 := by
  have hop' : (opField w).toNat = op ↔ opField w = BitVec.ofNat 4 op := by
    rw [← BitVec.toNat_inj, BitVec.toNat_ofNat, Nat.mod_eq_of_lt hop]
  have hzero (i : Nat) (hi : 28 ≤ i) : z.getLsbD i = false :=
    Nat.testBit_lt_two_pow (lt_of_lt_of_le hz (Nat.pow_le_pow_right (by decide) hi))
  have hmatch (i : Nat) (hi : i < 32) :
      (BitVec.ofNat 32 op <<< 28).getLsbD i = (decide (28 ≤ i) && op.testBit (i - 28)) := by
    simp only [BitVec.getLsbD_shiftLeft, BitVec.getLsbD_ofNat]
    grind
  have hfield (i : Nat) (hi : i < 4) : (BitVec.ofNat 4 op).getLsbD i = op.testBit i := by
    simp only [BitVec.getLsbD_ofNat, hi, decide_true, Bool.true_and]
  rw [hop', opField_eq_iff, and_mask_eq_iff, and_mask_eq_iff]
  simp only [BitVec.getLsbD_or, BitVec.getLsbD_zero]
  constructor
  · intro h
    refine ⟨fun i hi => ?_, fun i hi => ?_⟩
    · have := h (28 + i) (by omega)
      grind [getLsbD_opcodeMask]
    · have := h i hi
      grind [getLsbD_opcodeMask]
  · rintro ⟨hfields, hzeros⟩ i hi
    have := hfields (i - 28)
    have := hzeros i hi
    grind [getLsbD_opcodeMask]

theorem zeroMask_lt (op : Nat) : (zeroMask op).toNat < 2 ^ 28 := by
  unfold zeroMask
  split <;> decide

/-! ### Rows -/

/-- The instruction of the row of opcode `op`, with the fields of its format (30_encoding.md R72 to R76). -/
def rowInstr (w : Word) : Nat → Option Instr
  | 0 => some .nop
  | 1 => some (.bit (w.getLsbD 0))
  | 2 => some .eos
  | 3 => some .stop
  | 4 => some .reset
  | 5 => some .start
  | 6 => some (.cfgwr (addrField w) (dataField w))
  | 7 => some (.rdreg (addrField w))
  | _ => none

theorem exists_rowInstr_iff {w : Word} {op : Nat} : (∃ i, rowInstr w op = some i) ↔ op < 8 := by
  match op with
  | 0 | 1 | 2 | 3 | 4 | 5 | 6 | 7 => simp [rowInstr]
  | op + 8 => simp [rowInstr]

theorem opcodeOf_rowInstr {w : Word} {op : Nat} {i : Instr} (h : rowInstr w op = some i) :
    Laws.opcodeOf i = some (BitVec.ofNat 4 op) := by
  unfold rowInstr at h
  split at h <;> simp at h <;> subst h <;> rfl

/-- No instruction is in two rows. -/
theorem rowInstr_injective {w : Word} {op op' : Nat} {i : Instr} (h : rowInstr w op = some i)
    (h' : rowInstr w op' = some i) : op = op' := by
  have hlt := exists_rowInstr_iff.mp ⟨i, h⟩
  have hlt' := exists_rowInstr_iff.mp ⟨i, h'⟩
  have hop := congrArg BitVec.toNat (Option.some.inj ((opcodeOf_rowInstr h).symm.trans (opcodeOf_rowInstr h')))
  simp only [BitVec.toNat_ofNat] at hop
  omega

theorem ifZero_eq_ok_iff {ok : Bool} {op : Nat} {i j : Instr} : ifZero ok op i = .ok j ↔ i = j ∧ ok = true := by
  cases ok <;> simp [ifZero]

/-- What the decoder answers: the instruction of the opcode's row where the zero field of its format is 0 (30_encoding.md
R78). -/
theorem decodeCommand_eq_ok_iff (w : Word) (i : Instr) :
    decodeCommand w = .ok i ↔ rowInstr w (opField w).toNat = some i ∧ w &&& zeroMask (opField w).toNat = 0#32 := by
  have hN : zeroN w = true ↔ w &&& 0x0FFFFFFF#32 = 0#32 := beq_iff_eq.trans (extractLsb'_eq_zero_iff w 0 28)
  have hB : zeroB w = true ↔ w &&& 0x0FFFFFFE#32 = 0#32 := beq_iff_eq.trans (extractLsb'_eq_zero_iff w 1 27)
  have hW : zeroW w = true ↔ w &&& 0x000F0000#32 = 0#32 := beq_iff_eq.trans (extractLsb'_eq_zero_iff w 16 4)
  have hR : zeroR w = true ↔ w &&& 0x000FFFFF#32 = 0#32 := beq_iff_eq.trans (extractLsb'_eq_zero_iff w 0 20)
  unfold decodeCommand
  generalize (opField w).toNat = n
  split <;> simp [rowInstr, zeroMask, ifZero_eq_ok_iff, ← hN, ← hB, ← hW, ← hR]

/-- The word is the instruction of a row exactly when `c & mask = match` (30_encoding.md R76). -/
theorem decodeCommand_row_iff {w : Word} {op : Nat} {i : Instr} (hrow : rowInstr w op = some i) :
    decodeCommand w = .ok i ↔ w &&& (opcodeMask ||| zeroMask op) = BitVec.ofNat 32 op <<< 28 := by
  have hlt := exists_rowInstr_iff.mp ⟨i, hrow⟩
  rw [decodeCommand_eq_ok_iff, and_opcodeMask_or_eq_iff w (zeroMask_lt op) (by omega)]
  constructor
  · rintro ⟨hi, hz⟩
    rw [rowInstr_injective hrow hi]
    exact ⟨rfl, hz⟩
  · rintro ⟨rfl, hz⟩
    exact ⟨hrow, hz⟩

/-! ### Illegal words -/

/-- A word is refused where its opcode has no row or a bit of its zero field is 1 (30_encoding.md R77, R78). -/
theorem decodeCommand_error_iff (w : Word) :
    (∃ e, decodeCommand w = .error e) ↔ 8 ≤ (opField w).toNat ∨ w &&& zeroMask (opField w).toNat ≠ 0#32 := by
  have hnot : (∃ e, decodeCommand w = .error e) ↔ ¬∃ i, decodeCommand w = .ok i := by
    cases decodeCommand w <;> simp
  simp only [hnot, decodeCommand_eq_ok_iff, exists_and_right, not_and_or, exists_rowInstr_iff, Nat.not_lt, ne_eq]

theorem opcodeMap_eq :
    opcodeMap = (List.range 8).map fun op => (BitVec.ofNat 32 op <<< 28, opcodeMask ||| zeroMask op) := by
  decide

/-- The words of no row (30_encoding.md R77). -/
theorem illegal_iff (w : Word) : illegal w ↔ 8 ≤ (opField w).toNat ∨ w &&& zeroMask (opField w).toNat ≠ 0#32 := by
  have hrow (op : Nat) (hop : op < 8) := and_opcodeMask_or_eq_iff w (zeroMask_lt op) (show op < 16 by omega)
  simp only [illegal, opcodeMap_eq, List.forall_mem_map, List.mem_range]
  constructor
  · intro h
    by_contra hc
    obtain ⟨hop, hz⟩ := not_or.mp hc
    exact h _ (Nat.not_le.mp hop) ((hrow _ (Nat.not_le.mp hop)).mpr ⟨rfl, not_not.mp hz⟩)
  · intro h op hop hm
    obtain ⟨rfl, hz⟩ := (hrow op hop).mp hm
    exact h.elim (Nat.not_le.mpr hop) fun hne => hne hz

/-- Settles O3: each row's mask is the opcode and its zero field, so `decodeCommand_row_iff` says it eight times. -/
theorem wordDecodesByMatchAndMask : Obligations.WordDecodesByMatchAndMask := by
  intro w
  exact ⟨decodeCommand_row_iff (op := 0) rfl, decodeCommand_row_iff (op := 1) rfl, decodeCommand_row_iff (op := 2) rfl,
    decodeCommand_row_iff (op := 3) rfl, decodeCommand_row_iff (op := 4) rfl, decodeCommand_row_iff (op := 5) rfl,
    decodeCommand_row_iff (op := 6) rfl, decodeCommand_row_iff (op := 7) rfl,
    (decodeCommand_error_iff w).trans (illegal_iff w).symm⟩

/-- Settles O4: `illegal_iff`, with the opcode written as a shift; the decoder refuses an illegal word, and the step takes
its fault. -/
theorem illegalWordFaultsOrIsIgnored : Obligations.IllegalWordFaultsOrIsIgnored := by
  refine ⟨fun w => ?_, fun s w rest hport hill => ?_⟩
  · have hop : (w >>> 28).toNat = (opField w).toNat := by
      rw [opField_toNat, BitVec.toNat_ushiftRight, Nat.shiftRight_eq_div_pow]
    rw [hop]
    exact illegal_iff w
  · obtain ⟨e, he⟩ := (decodeCommand_error_iff w).mpr ((illegal_iff w).mp hill)
    exact step_error hport he

/-- Settles O5: the examples of 30_encoding.md R90 evaluate. -/
theorem exampleWordsDecode : Obligations.ExampleWordsDecode := by
  unfold Obligations.ExampleWordsDecode
  decide

end Sys2Proof
end

section
/-! PROOFS. Codewords and checksums (30_encoding.md R83, R84), and the block of the reference encoder (R85). -/

namespace Sys2Proof.Machine

/-- A message is a codeword exactly with its own parity (30_encoding.md R84). -/
theorem syn_append_eq_zero_iff {c : Cfg} (h : cfgWf c = true) {msg par : BitSeq} (hpar : par.length = c.wPar) :
    syn c (msg ++ par) = 0 ↔ val par = pmod (val msg <<< c.wPar) c.fecG := by
  obtain ⟨hg, hdeg⟩ := fecG_of_wf h
  rw [← hdeg] at hpar ⊢
  exact pmod_append_eq_zero_iff hg hpar

/-- An information field is checksum-correct exactly with its own checksum (30_encoding.md R83). -/
theorem checksum_append_eq_zero_iff {c : Cfg} (h : cfgWf c = true) (hc : 0 < c.wCrc) {info crc : BitSeq}
    (hcrc : crc.length = c.wCrc) :
    pmod (val (info ++ crc)) c.crcP = 0 ↔ val crc = pmod (val info <<< c.wCrc) c.crcP := by
  obtain ⟨hp, hdeg⟩ := crcP_of_wf h hc
  rw [← hdeg] at hcrc ⊢
  exact pmod_append_eq_zero_iff hp hcrc

/-- Settles O45: the two remainders, for the generator and the checksum polynomial of a well-formed `Cfg`. -/
theorem codewordAndChecksumByRemainder : Obligations.CodewordAndChecksumByRemainder := by
  intro c msg par info crc h
  exact ⟨fun _ hpar => syn_append_eq_zero_iff h hpar, fun hc hcrc => checksum_append_eq_zero_iff h hc hcrc⟩

/-! ### The reference encoder -/

/-- A shifted word with a remainder below it is the two sequences, one after the other (30_encoding.md R85). -/
theorem seq_shiftLeft_xor (n m : Nat) {a b : Nat} (hb : b < 2 ^ m) : seq (n + m) ((a <<< m) ^^^ b) = seq n a ++ seq m b := by
  apply List.ext_getElem (by simp)
  intro i h1 h2
  rw [seq_getElem, List.getElem_append]
  rw [seq_length] at h1
  split
  · next hi =>
    rw [seq_length] at hi
    have hbit : b.testBit (n + m - 1 - i) = false :=
      Nat.testBit_lt_two_pow (lt_of_lt_of_le hb (Nat.pow_le_pow_right (by decide) (by omega)))
    rw [seq_getElem, Nat.testBit_xor, Nat.testBit_shiftLeft, hbit, Bool.xor_false, decide_eq_true (by omega),
      Bool.true_and]
    congr 1
    omega
  · next hi =>
    rw [seq_length] at hi
    simp only [seq_length]
    rw [seq_getElem, Nat.testBit_xor, Nat.testBit_shiftLeft, decide_eq_false (by omega), Bool.false_and, Bool.false_xor]
    congr 1
    omega

theorem refCrc_lt {c : Cfg} (h : cfgWf c = true) (info : BitSeq) : refCrc c info < 2 ^ c.wCrc := by
  unfold refCrc
  split
  · exact Nat.two_pow_pos _
  · obtain ⟨hp, hdeg⟩ := crcP_of_wf h (by omega)
    rw [← hdeg]
    exact pmod_lt hp _

theorem refPar_lt {c : Cfg} (h : cfgWf c = true) (msg : Nat) : refPar c msg < 2 ^ c.wPar := by
  obtain ⟨hg, hdeg⟩ := fecG_of_wf h
  rw [refPar, ← hdeg]
  exact pmod_lt hg _

/-- The fields of a reference block (30_encoding.md R85). -/
def refFields (c : Cfg) (bicValue : Nat) (info : BitSeq) : BlockFields :=
  { bic := seq c.wBic bicValue
    info := info
    crc := seq c.wCrc (refCrc c info)
    par := seq c.wPar (refPar c (refMsg c info)) }

/-- The message of 30_encoding.md R85 is the information field with its checksum. -/
theorem seq_refMsg {c : Cfg} (h : cfgWf c = true) {info : BitSeq} (hi : info.length = c.wInfo) :
    seq c.msgLen (refMsg c info) = info ++ seq c.wCrc (refCrc c info) := by
  rw [Cfg.msgLen, refMsg, seq_shiftLeft_xor _ _ (refCrc_lt h info), poly, ← hi, seq_val]

/-- The codeword of 30_encoding.md R85 is the last three fields. -/
theorem codeword_refFields {c : Cfg} (h : cfgWf c = true) (v : Nat) {info : BitSeq} (hi : info.length = c.wInfo) :
    codeword (refFields c v info) = refCodeword c info := by
  rw [refCodeword, Cfg.codeLen, seq_shiftLeft_xor _ _ (refPar_lt h _), seq_refMsg h hi]
  rfl

/-- The block of 30_encoding.md R85 is the four fields. -/
theorem joinBlock_refFields {c : Cfg} (h : cfgWf c = true) (v : Nat) {info : BitSeq} (hi : info.length = c.wInfo) :
    joinBlock (refFields c v info) = refBlock c v info := by
  rw [refBlock, ← codeword_refFields h v hi]
  simp [joinBlock, codeword, refFields]

theorem refFields_widthsOk {c : Cfg} (v : Nat) {info : BitSeq} (hi : info.length = c.wInfo) :
    (refFields c v info).widthsOk c = true := by
  simp [BlockFields.widthsOk, refFields, hi]

/-- An information field with its checksum, as a word (30_encoding.md R85). -/
theorem val_info_append_refCrc {c : Cfg} (h : cfgWf c = true) {info : BitSeq} (hi : info.length = c.wInfo) :
    val (info ++ seq c.wCrc (refCrc c info)) = refMsg c info := by
  rw [← seq_refMsg h hi, val_seq]
  refine Nat.xor_lt_two_pow ?_ (lt_of_lt_of_le (refCrc_lt h info) (Nat.pow_le_pow_right (by decide) (Nat.le_add_left _ _)))
  rw [poly, Nat.shiftLeft_eq, Cfg.msgLen, ← hi, Nat.pow_add]
  exact Nat.mul_lt_mul_of_pos_right (val_lt info) (by positivity)

/-- The parity of the reference encoder makes a codeword (30_encoding.md R84, R85). -/
theorem syn_refFields {c : Cfg} (h : cfgWf c = true) (v : Nat) {info : BitSeq} (hi : info.length = c.wInfo) :
    syn c (codeword (refFields c v info)) = 0 := by
  refine (syn_append_eq_zero_iff h (seq_length _ _)).mpr ?_
  rw [refFields, val_seq (refPar_lt h _), val_info_append_refCrc h hi, refPar]

/-- The checksum of the reference encoder is right (30_encoding.md R83, R85). -/
theorem checksumRight_refFields {c : Cfg} (h : cfgWf c = true) (v : Nat) {info : BitSeq} (hi : info.length = c.wInfo) :
    Claim.checksumRight c (codeword (refFields c v info)) := by
  rcases Nat.eq_zero_or_pos c.wCrc with h0 | hc
  · exact .inl h0
  · right
    have hmsg : (codeword (refFields c v info)).take (c.wInfo + c.wCrc) = info ++ seq c.wCrc (refCrc c info) :=
      List.take_left' (by simp [refFields, hi])
    rw [hmsg, checksum_append_eq_zero_iff h hc (seq_length _ _), val_seq (refCrc_lt h info), refCrc, if_neg (by omega), poly]

/-- The value of a table entry gives the entry's role (30_encoding.md R81). -/
theorem roleOfBic_value {c : Cfg} (h : cfgWf c = true) {e : BicEntry} (he : e ∈ c.bicTab) :
    roleOfBic c (seq c.wBic e.value) = e.role.toRole := by
  obtain ⟨i, hi⟩ := List.getElem?_of_mem he
  obtain ⟨hlt, -⟩ := (cfgBicTabOk_iff c).mp ((cfgWf_iff c).mp h).2.1
  rw [roleOfBic, val_seq (hlt e he), bicMatch_value h hi]
  simp only [roleAt, hi]

/-- Settles O49: the block is the joined `refFields`, whose BIC is the entry's value. -/
theorem referenceBlockIsAccepted : Obligations.ReferenceBlockIsAccepted := by
  intro c info e h hi he
  refine ⟨refFields c e.value info, ?_, rfl, codeword_refFields h _ hi, syn_refFields h _ hi, checksumRight_refFields h _ hi⟩
  rw [← joinBlock_refFields h _ hi, decodeBlock_joinBlock (refFields_widthsOk _ hi), refFields, roleOfBic_value h he]

end Sys2Proof.Machine
end

section
/-! PROOFS. The RECORDs of the output (30_encoding.md R86, 44_service_output.md R191 to R194): where each stage puts them. -/

namespace Sys2Proof.Machine

/-! ### Lists of items -/

/-- What the rules ask of an item that `pre` comes before, for a device in state `s`; they ask it of RECORDs only. -/
def RecordOk (s : State) (pre : List Item) : Item → Prop
  | .record si gseq degraded _ nblocks payload =>
    (s.allowEn = true → allowBit s si = true) ∧ 1 ≤ nblocks ∧ nblocks ≤ 2 ^ s.cfg.wPos ∧
      payload.length = nblocks * s.cfg.wInfo ∧ si < 2 ^ s.cfg.wSi ∧ gseq < 2 ^ s.cfg.wGseq ∧
      (degraded = true → ∃ pre', pre = pre' ++
        [.event .degradedGroupEmitted (eventArg si) (eventArg gseq) (eventArg nblocks) 0])
  | _ => True

/-- What comes before the announcement of a degraded group does not matter. -/
theorem RecordOk.append_left {s : State} {pre : List Item} {i : Item} (h : RecordOk s pre i) (as : List Item) :
    RecordOk s (as ++ pre) i := by
  cases i with
  | record si gseq degraded corrected nblocks payload =>
    obtain ⟨hallow, hge, hle, hlen, hsi, hgseq, hann⟩ := h
    refine ⟨hallow, hge, hle, hlen, hsi, hgseq, fun hd => ?_⟩
    obtain ⟨pre', rfl⟩ := hann hd
    exact ⟨as ++ pre', by rw [List.append_assoc]⟩
  | _ => trivial

/-- Every RECORD of a list of items is as the rules ask, for a device in state `s`. -/
def RecordsOk (s : State) (items : List Item) : Prop :=
  ∀ (pre post : List Item) (i : Item), items = pre ++ i :: post → RecordOk s pre i

theorem RecordsOk.append {s : State} {as bs : List Item} (ha : RecordsOk s as) (hb : RecordsOk s bs) :
    RecordsOk s (as ++ bs) := by
  intro pre post i h
  rcases List.append_eq_append_iff.mp h with ⟨as', rfl, hbs⟩ | ⟨cs, has, hcs⟩
  · exact (hb as' post i hbs).append_left as
  · cases cs with
    | nil =>
      obtain rfl : as = pre := by simpa using has
      simpa using (hb [] post i hcs.symm).append_left as
    | cons c cs =>
      obtain ⟨rfl, -⟩ := List.cons.inj hcs
      exact ha pre cs i has

/-- One more item at the end, with all the others before it. -/
theorem RecordsOk.concat {s : State} {as : List Item} {i : Item} (has : RecordsOk s as) (hi : RecordOk s as i) :
    RecordsOk s (as ++ [i]) := by
  intro pre post k h
  rcases List.eq_nil_or_concat post with rfl | ⟨post', l, rfl⟩
  · obtain ⟨rfl, rfl⟩ : as = pre ∧ i = k := by simpa using h
    exact hi
  · rw [List.concat_eq_append, ← List.cons_append, ← List.append_assoc] at h
    exact has pre post' k (List.append_inj_left' h rfl)

/-- No item of the list is a RECORD, by the kind codes of 30_encoding.md R86. -/
def NoRecord (items : List Item) : Prop := ∀ i ∈ items, i.kindCode ≠ 2

theorem NoRecord.recordsOk {items : List Item} (h : NoRecord items) (s : State) : RecordsOk s items := by
  rintro pre post i rfl
  have hi : i.kindCode ≠ 2 := h i (by simp)
  cases i with
  | record => exact absurd rfl hi
  | _ => trivial

/-! ### Outputs -/

/-- `t` has the output of `s` and then items whose RECORDs are as the rules ask for a device in state `c`. -/
def Outputs (c s t : State) : Prop := ∃ items, t.out = s.out ++ items ∧ RecordsOk c items

theorem Outputs.of_noRecord {c s t : State} {items : List Item} (h : t.out = s.out ++ items) (hn : NoRecord items) :
    Outputs c s t :=
  ⟨items, h, hn.recordsOk c⟩

theorem Outputs.of_out_eq {c s t : State} (h : t.out = s.out) : Outputs c s t :=
  .of_noRecord (items := []) (by rw [h, List.append_nil]) (by simp [NoRecord])

theorem Outputs.trans {c s t u : State} (h : Outputs c s t) (k : Outputs c t u) : Outputs c s u := by
  obtain ⟨as, ha, has⟩ := h
  obtain ⟨bs, hb, hbs⟩ := k
  exact ⟨as ++ bs, by rw [hb, ha, List.append_assoc], has.append hbs⟩

/-- One item that is no RECORD. -/
theorem Outputs.single {c s t : State} {i : Item} (h : t.out = s.out ++ [i]) (hi : i.kindCode ≠ 2) : Outputs c s t :=
  .of_noRecord h (by simpa [NoRecord] using hi)

@[simp] theorem mkEvent_kindCode (k : EventKind) (a b c d : Nat) : (mkEvent k a b c d).kindCode = 1 := rfl

/-- One event. -/
theorem Outputs.event {c s t : State} {k : EventKind} {w x y z : Nat} (h : t.out = s.out ++ [mkEvent k w x y z]) :
    Outputs c s t :=
  .single h (by simp)

/-! ### The stages behind the synchronizer -/

/-- What the rules ask of a group that is let out. -/
structure GroupOk (c : Cfg) (g : Group) : Prop where
  si_lt : g.si < 2 ^ c.wSi
  gseq_lt : g.gseq < 2 ^ c.wGseq
  blocks_ge : 1 ≤ g.blocks.length
  blocks_le : g.blocks.length ≤ 2 ^ c.wPos
  blocks_width : ∀ b ∈ g.blocks, b.length = c.wInfo

theorem length_flatten_of_width {blocks : List BitSeq} {w : Nat} (h : ∀ b ∈ blocks, b.length = w) :
    blocks.flatten.length = blocks.length * w := by
  rw [List.length_flatten, List.map_congr_left h, List.map_const', List.sum_replicate, smul_eq_mul]

theorem singleGroup_ok {c : Cfg} {d : DecodedBlock} (h : DecodedOk c d) : GroupOk c (singleGroup d) :=
  ⟨h.si_lt, h.gseq_lt, Nat.le_refl 1, Nat.one_le_two_pow, by simpa [singleGroup] using h.info_width⟩

/-- The last block is at the position the slot waits for, so the group has as many blocks as there are positions at most. -/
theorem completedGroup_ok {c : Cfg} {timeout : Nat} {d : DecodedBlock} {t : Slot} (hd : DecodedOk c d)
    (ht : SlotOk c timeout t) (hp : d.pos = t.nextPos) : GroupOk c (completedGroup t d) := by
  have hcount : (completedGroup t d).blocks.length = t.nextPos + 1 := by simp [completedGroup, ht.blocks_count]
  have hpos := hd.pos_lt
  refine ⟨hd.si_lt, hd.gseq_lt, by omega, by omega, fun b hb => ?_⟩
  rcases List.mem_append.mp hb with hb | hb
  · exact ht.blocks_width b hb
  · rw [List.mem_singleton.mp hb]
    exact hd.info_width

/-- A degraded group's RECORD stands right after its event (44_service_output.md R194). -/
theorem groupItems_recordsOk {s : State} {g : Group} (h : GroupOk s.cfg g) (hallow : allowed s g.si = true) :
    RecordsOk s (groupItems g) := by
  refine RecordsOk.concat (NoRecord.recordsOk ?_ s) ⟨(allowed_iff s g.si).mp hallow, h.blocks_ge, h.blocks_le,
    length_flatten_of_width h.blocks_width, h.si_lt, h.gseq_lt, fun hd => ⟨[], by rw [if_pos hd]; rfl⟩⟩
  split <;> simp [NoRecord]

/-- `emit_group` in a state that has the allow-list of `c`. -/
theorem emitGroup_outputs {c s : State} {g : Group} (h : GroupOk c.cfg g) (hc : s.configuration = c.configuration) :
    Outputs c s (emitGroup g s) := by
  rcases emitGroup_cases g s with ⟨hallow, he⟩ | ⟨-, he⟩ <;> rw [he]
  · obtain ⟨-, -, -, -, hen, hmask⟩ := configuration_eq_iff.mp hc
    refine ⟨groupItems g, rfl, groupItems_recordsOk h ?_⟩
    rwa [allowed, allowBit, ← hen, ← hmask]
  · exact .of_out_eq rfl

theorem abandonSlot_outputs (c : State) (j : Nat) (r : AbandonReason) (s : State) : Outputs c s (abandonSlot j r s) := by
  unfold abandonSlot
  split
  · exact .event rfl
  · exact .of_out_eq rfl

theorem abandonFound_outputs (c : State) (j : Option Nat) (r : AbandonReason) (s : State) :
    Outputs c s (abandonFound j r s) := by
  cases j with
  | none => exact .of_out_eq rfl
  | some j => exact abandonSlot_outputs c j r s

theorem allocate_outputs (c s : State) : Outputs c s (allocate s).1 := by
  unfold allocate
  split
  · exact .of_out_eq rfl
  · exact abandonSlot_outputs c _ _ s

theorem dropBlock_outputs (c : State) (d : DecodedBlock) (s : State) : Outputs c s (dropBlock d s) :=
  .event rfl

theorem tickSlot_noRecord (timeout : Nat) (touched : Bool) (t : Slot) : NoRecord (tickSlot timeout touched t).2 := by
  rcases tickSlot_cases timeout touched t with ⟨he, -⟩ | ⟨-, -, -, he⟩ | ⟨-, -, -, he⟩ <;> rw [he]
  · simp [NoRecord]
  · simp [NoRecord, abandonEvent]
  · simp [NoRecord]

theorem tick_outputs (c : State) (touched : Option Nat) (s : State) : Outputs c s (tick touched s) := by
  refine .of_noRecord rfl fun i hi => ?_
  obtain ⟨turn, hturn, hi⟩ := List.mem_flatMap.mp hi
  obtain ⟨⟨t, j⟩, -, rfl⟩ := List.mem_map.mp hturn
  exact tickSlot_noRecord _ _ t i hi

theorem decoderEvents_noRecord (d : DecodedBlock) : NoRecord (decoderEvents d) := by
  unfold decoderEvents NoRecord
  grind [mkEvent_kindCode]

/-- Only the action of a LAST block lets a group out (43_group_assembler.md R160). -/
theorem roleAction_outputs {c s : State} {d : DecodedBlock} {timeout : Nat} (hc : s.configuration = c.configuration)
    (hd : DecodedOk c.cfg d) (hs : SlotsInv c.cfg timeout none s.slots) : Outputs c s (roleAction d s).1 := by
  unfold roleAction
  cases d.role with
  | none => exact dropBlock_outputs c d s
  | first =>
    simp only [doFirst]
    split
    · exact (abandonFound_outputs c _ _ s).trans ((allocate_outputs c _).trans (.of_out_eq rfl))
    · exact dropBlock_outputs c d s
  | cont =>
    simp only [doCont]
    split
    · exact .of_out_eq rfl
    · exact dropBlock_outputs c d s
  | last =>
    dsimp only
    split
    · refine (abandonFound_outputs c _ _ s).trans (emitGroup_outputs (singleGroup_ok hd) ?_)
      rw [(abandonFound_pipe _ _ s).frame]
      exact hc
    · unfold doLast
      split
      · next j t hw =>
        obtain ⟨-, hj, ho, -, -, hp⟩ := awaitingSlot_some hw
        have hfreed : Outputs c s (s.setSlot j t.freed) := .of_out_eq rfl
        exact hfreed.trans (emitGroup_outputs (completedGroup_ok hd (hs.ok j t hj ho) hp) hc)
      · exact dropBlock_outputs c d s

theorem assemble_outputs {c s : State} {d : DecodedBlock} {timeout : Nat} (hc : s.configuration = c.configuration)
    (hd : DecodedOk c.cfg d) (hs : SlotsInv c.cfg timeout none s.slots) : Outputs c s (assemble d s) :=
  (roleAction_outputs hc hd hs).trans (tick_outputs c _ _)

/-- A block of a codeword's length, delivered to slots that meet the invariant, in a state with the configuration of `c`. -/
theorem emitBlock_outputs {c s : State} {r : Role} {b : Bool} {f : BlockFields} {timeout : Nat}
    (hc : s.configuration = c.configuration) (hf : (codeword f).length = c.cfg.codeLen)
    (hs : SlotsInv c.cfg timeout none s.slots) : Outputs c s (emitBlock r b f s) := by
  obtain ⟨hcfg, -⟩ := configuration_eq_iff.mp hc
  have hd : DecodedOk c.cfg (blockDecode s.cfg r b f) := by
    rw [hcfg]
    exact blockDecode_ok hf r b
  have hevents : Outputs c s (s.emitAll (decoderEvents (blockDecode s.cfg r b f))) :=
    .of_noRecord rfl (decoderEvents_noRecord _)
  exact hevents.trans (assemble_outputs (s := s.emitAll _) hc hd hs)

/-! ### The commands -/

theorem Emission.outputs {c s u : State} {r : Role} {b : Bool} (h : Emission s r b u) : Outputs c s u := by
  cases h with
  | acquire i _ => exact .event rfl
  | hit i _ => exact .of_out_eq rfl
  | miss _ _ => exact .of_out_eq rfl
  | lost _ _ => exact .event rfl

theorem State.Inv.shifted_length {s : State} (h : s.Inv) (hp : s.phase = .run) (b : Bool) :
    (shiftIn b s).win.length = s.cfg.blockLen := by
  have hwin := h.win_length
  obtain ⟨hpos, -, -⟩ := h.started_bounds hp
  simp only [shiftIn_win, List.length_append, List.length_drop, List.length_singleton]
  omega

/-- The window a BIT command completes is delivered with the invariant's slots. -/
theorem bitStep_outputs {s : State} (h : s.Inv) (hp : s.phase = .run) (b : Bool) : Outputs s s (bitStep b s) := by
  rcases bitStep_cases b s with ⟨-, he⟩ | ⟨-, he⟩ <;> rw [he]
  · exact .of_out_eq rfl
  · rcases syncCompare_cases (shiftIn b s) with ⟨-, -, he⟩ | ⟨r, m, u, hu, he⟩ <;> rw [he]
    · exact .of_out_eq rfl
    · have hshift : Outputs s s (shiftIn b s) := .of_out_eq rfl
      refine (hshift.trans hu.outputs).trans (emitBlock_outputs (timeout := s.grpTimeout.toNat) ?_ ?_ ?_)
      · rw [hu.frame]
        rfl
      · exact splitBlock_codeword_length (h.shifted_length hp b)
      · rw [hu.frame]
        exact h.slotsInv

theorem raiseFault_outputs (c : State) (k : FaultCause) (s : State) : Outputs c s (raiseFault k s) :=
  .single rfl (by simp [Item.kindCode])

theorem inPhase_outputs {c s : State} {legal : Phase} {body : State → State}
    (hbody : s.phase = legal → Outputs c s (body s)) :
    Outputs c s (inPhase legal body s) := by
  rcases inPhase_cases legal body s with ⟨-, he⟩ | ⟨-, -, he⟩ | ⟨-, hl, he⟩ <;> rw [he]
  · exact .of_out_eq rfl
  · exact raiseFault_outputs c _ s
  · exact hbody hl

theorem illegalWord_outputs (c s : State) : Outputs c s (illegalWord s) := by
  unfold illegalWord
  split
  · exact .of_out_eq rfl
  · exact raiseFault_outputs c _ s

theorem startBody_outputs (c s : State) : Outputs c s (startBody s) := by
  unfold startBody
  split
  · exact .of_out_eq rfl
  · exact raiseFault_outputs c _ s

theorem cfgwrBody_outputs (c : State) (a : Addr) (v : Reg16) (s : State) : Outputs c s (cfgwrBody a v s) := by
  unfold cfgwrBody
  split
  · next r _ => exact .of_out_eq (by cases r <;> rfl)
  · exact raiseFault_outputs c _ s

theorem rdregBody_outputs (c : State) (a : Addr) (s : State) : Outputs c s (rdregBody a s) := by
  unfold rdregBody
  split
  · exact .single rfl (by simp [Item.kindCode])
  · split
    · exact .of_out_eq rfl
    · exact raiseFault_outputs c _ s

theorem eosBody_outputs (c s : State) : Outputs c s (eosBody s) := by
  have hflush : Outputs c s (flushSlots { s with fill := 0 }) := by
    refine .of_noRecord rfl fun i hi => ?_
    obtain ⟨t, -, rfl⟩ := List.mem_map.mp hi
    simp [abandonEvent]
  exact hflush.trans (.single rfl (by simp [Item.kindCode]))

/-- Of the commands only BIT can output a RECORD. -/
theorem effect_outputs {s : State} (h : s.Inv) {i : Instr} (hb : ∀ r f, i ≠ blockInstr r f) :
    Outputs s s (effect i s) := by
  cases i with
  | nop => exact .of_out_eq rfl
  | bit b => exact inPhase_outputs fun hp => bitStep_outputs h hp b
  | eos => exact inPhase_outputs fun _ => eosBody_outputs s s
  | stop => exact inPhase_outputs fun _ => .of_out_eq rfl
  | reset => exact .of_out_eq rfl
  | start => exact inPhase_outputs fun _ => startBody_outputs s s
  | cfgwr a v => exact inPhase_outputs fun _ => cfgwrBody_outputs s a v s
  | rdreg a => exact rdregBody_outputs s a s
  | blkFirst f => exact absurd rfl (hb .first f)
  | blkCont f => exact absurd rfl (hb .cont f)
  | blkLast f => exact absurd rfl (hb .last f)
  | blkNone f => exact absurd rfl (hb .none f)

/-- A step appends items whose RECORDs are as the rules ask (30_encoding.md R86, 44_service_output.md R193, R194). -/
theorem step_outputs {s t : State} (h : s.Inv) (hstep : step s = .next t) : Outputs s s t := by
  rcases step_effect_cases hstep with ⟨-, rfl⟩ | ⟨w, rest, -, ⟨-, -, rfl⟩ | ⟨i, hd, rfl⟩⟩
  · exact .of_out_eq rfl
  · exact illegalWord_outputs s { s with port := rest }
  · exact effect_outputs (h.withPort rest) fun r f hi => decodeCommand_not_block w r f (hi ▸ hd)

/-- Settles O57: the items the step appends are the ones of `step_outputs`. -/
theorem recordsAreAllowedAndWhole : Obligations.RecordsAreAllowedAndWhole := by
  intro s t pre post si gseq degraded corrected nblocks payload h hstep hout
  obtain ⟨items, hitems, hok⟩ := step_outputs h hstep
  have heq : items = pre ++ .record si gseq degraded corrected nblocks payload :: post := by
    rw [hitems] at hout
    simpa using hout
  exact hok pre post _ heq

end Sys2Proof.Machine
end

section
/-! PROOFS. The round trip of one group (30_encoding.md R85, 95_test_vectors.md section 1.1 property 1): in lock, the bits
of a reference block end in the action of its role on the block as it was encoded; the actions build the group up in one
slot. -/

namespace Sys2Proof.Machine

/-! ### A block in lock -/

/-- Locked, in RUN, at the start of a block, for a well-formed `Cfg`. -/
structure State.AtBoundary (s : State) : Prop where
  cfg_wf : cfgWf s.cfg = true
  phase : s.phase = .run
  sync : s.sync = .synchronized
  fill : s.fill = 0
  win_length : s.win.length = s.cfg.blockLen

/-- The state after the BIT commands of bits that do not fill the window (10_state.md R23, R24). -/
def State.collected (s : State) (bits : BitSeq) : State :=
  { s with win := s.win.drop bits.length ++ bits, fill := s.fill + bits.length }

/-- Below the full window the bits are shifted in and counted, one after another (40_commands.md R102). -/
theorem execSeq_pseudoBits_collect {s : State} (hp : s.phase = .run) (hwin : s.win.length = s.cfg.blockLen)
    {bits : BitSeq} (hlt : s.fill + bits.length < s.cfg.blockLen) :
    execSeq (pseudoBits bits) s = .next (s.collected bits) := by
  induction bits generalizing s with
  | nil => simp [pseudoBits, execSeq, State.collected]
  | cons b bits ih =>
    rw [List.length_cons] at hlt
    have hexec := bitCollectsBelowFullWindow s b hp (by omega)
    have hshift : (s.win.drop 1 ++ [b]).drop bits.length ++ bits = s.win.drop (bits.length + 1) ++ b :: bits := by
      rw [List.drop_append_of_le_length (by simp; omega), List.drop_drop, Nat.add_comm 1]
      simp
    rw [pseudoBits, List.map_cons, execSeq, hexec]
    refine (ih (s := { s with win := Claim.shifted s b, fill := s.fill + 1 }) hp ?_ ?_).trans ?_
    · simp [Claim.shifted]; omega
    · simp only; omega
    · simp only [State.collected, Claim.shifted, hshift, List.length_cons, Nat.add_assoc, Nat.add_comm 1]

/-- The window full of a block that matched, in lock (41_frame_sync.md R123, R125). -/
def State.withBlock (s : State) (bits : BitSeq) : State :=
  { s with win := bits, fill := s.cfg.blockLen, sync := .synchronized, missCnt := 0 }

/-- The state at the end of a block (41_frame_sync.md R129). -/
def State.emptied (s : State) : State := { s with fill := 0 }

/-- A BIC that gives a role matches an entry of that role (30_encoding.md R81). -/
theorem exists_bicMatch_of_role {c : Cfg} {bic : BitSeq} (h : roleOfBic c bic ≠ .none) :
    ∃ i, bicMatch c (val bic) = some i ∧ roleAt c i = roleOfBic c bic := by
  cases hm : bicMatch c (val bic) with
  | none => exact absurd (by rw [roleOfBic, hm]) h
  | some i => exact ⟨i, rfl, by rw [roleOfBic, hm]⟩

/-- The last bit of a block whose BIC matches runs it with the role of its entry (41_frame_sync.md R125, R128). -/
theorem bitStep_hit {s : State} (hsync : s.sync = .synchronized) (hfill : s.fill + 1 = s.cfg.blockLen) {b : Bool}
    {bits : BitSeq} (hwin : s.win.drop 1 ++ [b] = bits) (hrole : roleOfBic s.cfg (splitBlock s.cfg bits).bic ≠ .none) :
    bitStep b s =
      emitBlock (roleOfBic s.cfg (splitBlock s.cfg bits).bic) false (splitBlock s.cfg bits) (s.withBlock bits) := by
  obtain ⟨i, hm, hi⟩ := exists_bicMatch_of_role hrole
  have hshift : shiftIn b s = { s with win := bits, fill := s.cfg.blockLen } := by
    rw [shiftIn, hwin, if_pos (by omega), hfill]
  rw [bitStep, hshift]
  simp only [if_true, syncCompare, hsync, hm, lockStep, hi]
  rfl

theorem execSeq_bit {s : State} (b : Bool) (hp : s.phase = .run) : execSeq [.bit b] s = .next (bitStep b s) := by
  rw [execSeq, exec_bit_run b hp]
  rfl

/-- All bits of a block but the last are collected, and the last one runs it. -/
theorem execSeq_pseudoBits_block {s : State} (h : s.AtBoundary) {bits : BitSeq} (hlen : bits.length = s.cfg.blockLen)
    (hrole : roleOfBic s.cfg (splitBlock s.cfg bits).bic ≠ .none) :
    execSeq (pseudoBits bits) s =
      .next (emitBlock (roleOfBic s.cfg (splitBlock s.cfg bits).bic) false (splitBlock s.cfg bits) (s.withBlock bits)) := by
  obtain ⟨hwf, hp, hsync, hfill, hwin⟩ := h
  obtain ⟨-, hpos, -⟩ := blockLen_pos hwf
  rcases List.eq_nil_or_concat bits with rfl | ⟨pre, b, rfl⟩
  · rw [List.length_nil] at hlen
    omega
  rw [List.concat_eq_append] at *
  rw [List.length_append, List.length_singleton] at hlen
  have hcollect := execSeq_pseudoBits_collect hp hwin (bits := pre) (by omega)
  have hshift : (s.win.drop pre.length ++ pre).drop 1 ++ [b] = pre ++ [b] := by
    rw [List.drop_append_of_le_length (by rw [List.length_drop]; omega), List.drop_drop,
      List.drop_of_length_le (by omega), List.nil_append]
  rw [pseudoBits, List.map_append]
  refine (execSeq_append hcollect).trans ((execSeq_bit (s := s.collected pre) b hp).trans (congrArg Host.Outcome.next ?_))
  exact bitStep_hit (s := s.collected pre) hsync (by simp only [State.collected]; omega) hshift hrole

/-! ### The reference block -/

/-- A block received as it was sent (42_block_decoder.md R151 (a)). -/
def cleanBlock (r : Role) (info : BitSeq) (si gseq pos : Nat) : DecodedBlock :=
  { role := r, suspect := false, info := info, fec := .none, nflips := 0, crcOk := true, valid := true
    si := si, gseq := gseq, pos := pos }

theorem decoderEvents_cleanBlock (r : Role) (info : BitSeq) (si gseq pos : Nat) :
    decoderEvents (cleanBlock r info si gseq pos) = [] := rfl

theorem crcOk_of_checksumRight {c : Cfg} {r : BitSeq} (h : Claim.checksumRight c r) : crcOk c r = true := by
  simpa [crcOk, Claim.checksumRight, slice, poly, Cfg.msgLen] using h

@[simp] theorem State.emitAll_nil (s : State) : s.emitAll [] = s := by
  rw [State.emitAll, List.append_nil]

section
variable {info : BitSeq} {si gseq pos : Nat}

/-- Syndrome 0 and a right checksum: the reference block is decoded as it was encoded (42_block_decoder.md R144 to R149). -/
theorem blockDecode_refFields {c : Cfg} (h : cfgWf c = true) (r : Role) (v : Nat) (hi : info.length = c.wInfo)
    (hh : Claim.headerOf c info = (si, gseq, pos)) :
    blockDecode c r false (refFields c v info) = cleanBlock r info si gseq pos := by
  have hinfo : slice (codeword (refFields c v info)) 0 c.wInfo = info := by
    rw [slice, List.drop_zero, codeword, List.append_assoc]
    exact List.take_left' hi
  have hfec : fecDecode c (codeword (refFields c v info)) = ⟨.none, codeword (refFields c v info), 0⟩ :=
    if_pos (syn_refFields h v hi)
  have hcrc := crcOk_of_checksumRight (checksumRight_refFields h v hi)
  obtain ⟨hsi, hgseq, hpos⟩ : siOf c info = si ∧ gseqOf c info = gseq ∧ posOf c info = pos := by
    rw [Claim.headerOf, Prod.mk.injEq, Prod.mk.injEq] at hh
    exact hh
  simp only [blockDecode, hfec, hinfo, hcrc, hsi, hgseq, hpos]
  rfl

theorem deliver_refFields {s : State} (h : cfgWf s.cfg = true) (r : Role) (v : Nat) (hi : info.length = s.cfg.wInfo)
    (hh : Claim.headerOf s.cfg info = (si, gseq, pos)) :
    deliver r false (refFields s.cfg v info) s = assemble (cleanBlock r info si gseq pos) s := by
  rw [deliver, blockDecode_refFields h _ _ hi hh, decoderEvents_cleanBlock, State.emitAll_nil]

theorem refBlock_length {c : Cfg} (h : cfgWf c = true) (v : Nat) (hi : info.length = c.wInfo) :
    (refBlock c v info).length = c.blockLen := by
  rw [← joinBlock_refFields h v hi, Laws.Shape.of_block (refFields_widthsOk v hi)]

/-- A reference block with a table entry's BIC value, in lock, is assembled as it was encoded. -/
theorem execSeq_refBlock {s : State} (h : s.AtBoundary) {e : BicEntry} (he : e ∈ s.cfg.bicTab)
    (hi : info.length = s.cfg.wInfo) (hh : Claim.headerOf s.cfg info = (si, gseq, pos)) :
    execSeq (pseudoBits (refBlock s.cfg e.value info)) s =
      .next (assemble (cleanBlock e.role.toRole info si gseq pos) (s.withBlock (refBlock s.cfg e.value info))).emptied := by
  have hsplit : splitBlock s.cfg (refBlock s.cfg e.value info) = refFields s.cfg e.value info := by
    rw [← joinBlock_refFields h.cfg_wf e.value hi, splitBlock_joinBlock (refFields_widthsOk e.value hi)]
  have hrole : roleOfBic s.cfg (refFields s.cfg e.value info).bic = e.role.toRole := roleOfBic_value h.cfg_wf he
  have hnone : e.role.toRole ≠ .none := by cases e.role <;> decide
  rw [execSeq_pseudoBits_block h (refBlock_length h.cfg_wf _ hi) (by rwa [hsplit, hrole]), hsplit, hrole]
  exact congrArg (fun u => Host.Outcome.next u.emptied) (deliver_refFields (s := s.withBlock _) h.cfg_wf _ _ hi hh)

end

/-! ### One group in its slot -/

/-- No slot but `j` is OPEN. -/
def OthersFree (slots : List Slot) (j : Nat) : Prop :=
  ∀ (i : Nat) (u : Slot), slots[i]? = some u → u.isOpen = true → i = j

/-- Slot `j` holds `t`, OPEN, and no other slot is OPEN. -/
structure OnlyOpen (slots : List Slot) (j : Nat) (t : Slot) : Prop where
  here : slots[j]? = some t
  isOpen : t.isOpen = true
  others : OthersFree slots j

theorem AllFree.othersFree {slots : List Slot} (h : AllFree slots) (j : Nat) : OthersFree slots j :=
  fun _ u hi ho => by simp [h u (List.mem_of_getElem? hi)] at ho

theorem OthersFree.set {slots : List Slot} {j : Nat} (h : OthersFree slots j) (x : Slot) :
    OthersFree (slots.set j x) j := by
  intro i u hi ho
  rw [List.getElem?_set] at hi
  split at hi
  · next hji => exact hji.symm
  · exact h i u hi ho

theorem OthersFree.onlyOpen_set {slots : List Slot} {j : Nat} (h : OthersFree slots j) (hj : j < slots.length) {x : Slot}
    (hx : x.isOpen = true) : OnlyOpen (slots.set j x) j x :=
  ⟨List.getElem?_set_self hj, hx, h.set x⟩

theorem OthersFree.allFree_set {slots : List Slot} {j : Nat} (h : OthersFree slots j) {x : Slot}
    (hx : x.isOpen = false) : AllFree (slots.set j x) := by
  intro u hu
  obtain ⟨i, hi⟩ := List.getElem?_of_mem hu
  cases ho : u.isOpen with
  | false => rfl
  | true =>
    obtain rfl := h.set x i u hi ho
    obtain ⟨-, rfl⟩ : i < slots.length ∧ x = u := by simpa [List.getElem?_set] using hi
    exact ho.symm.trans hx

theorem OnlyOpen.lt {slots : List Slot} {j : Nat} {t : Slot} (h : OnlyOpen slots j t) : j < slots.length :=
  (List.getElem?_eq_some_iff.mp h.here).1

/-- Where no OPEN slot has to age, `tick` changes nothing (43_group_assembler.md R170). -/
theorem tick_eq_self {touched : Option Nat} {s : State}
    (h : ∀ (i : Nat) (u : Slot), s.slots[i]? = some u → u.isOpen = true → touched = some i) : tick touched s = s := by
  have hturns : tickTurns s.grpTimeout.toNat touched s.slots 0 = s.slots.map fun t => (t, []) := by
    apply List.ext_getElem?
    intro i
    cases hi : s.slots[i]? with
    | none => simp [tickTurns, hi]
    | some t =>
      have hturn : tickSlot s.grpTimeout.toNat (touched == some i) t = (t, []) := by
        cases ho : t.isOpen with
        | false => simp [tickSlot, ho]
        | true => simp [tickSlot, h i t hi ho]
      simp [tickTurns, hi, hturn]
  rw [tick_eq_tickTurns, hturns]
  simp [Function.comp_def, State.emitAll]

theorem OthersFree.tick_eq_self {s : State} {j : Nat} (h : OthersFree s.slots j) : tick (some j) s = s :=
  Machine.tick_eq_self fun i u hi ho => by rw [h i u hi ho]

theorem AllFree.tick_eq_self {s : State} (h : AllFree s.slots) : tick none s = s :=
  Machine.tick_eq_self fun _ u hi ho => by simp [h u (List.mem_of_getElem? hi)] at ho

/-- A FIRST block where no group is in progress opens slot 0 (43_group_assembler.md R162, R168). -/
theorem assemble_first {s : State} {d : DecodedBlock} (hfree : AllFree s.slots) (hn : 0 < s.slots.length)
    (hr : d.role = .first) (hp : d.pos = 0) : assemble d s = s.setSlot 0 (openedSlot d) := by
  have hfind : findSlot s.slots d.si d.gseq = none :=
    findSlot_eq_none_iff.mpr fun t ht ho => by simp [hfree t ht] at ho
  have hslot : freeSlot s.slots = some 0 :=
    freeSlot_eq_some_iff.mpr ⟨hn, hfree _ (List.getElem_mem hn), by simp⟩
  have hact : roleAction d s = (s.setSlot 0 (openedSlot d), some 0) := by
    simp only [roleAction, hr, doFirst, if_pos hp, hfind, abandonFound, allocate, hslot]
  rw [assemble, hact]
  exact OthersFree.tick_eq_self ((hfree.othersFree 0).set _)

/-- The only group in progress is found by its key (43_group_assembler.md R161). -/
theorem OnlyOpen.awaitingSlot_eq {s : State} {d : DecodedBlock} {j : Nat} {t : Slot} (h : OnlyOpen s.slots j t)
    (hsi : t.si = d.si) (hgseq : t.gseq = d.gseq) (hp : d.pos = t.nextPos) : awaitingSlot d s = some (j, t) := by
  have hfind : findSlot s.slots d.si d.gseq = some j := by
    obtain ⟨hj, hjt⟩ := List.getElem?_eq_some_iff.mp h.here
    refine findSlot_eq_some_iff.mpr ⟨hj, by rw [hjt]; exact ⟨h.isOpen, hsi, hgseq⟩, fun i hi ho => ?_⟩
    have := h.others i _ (List.getElem?_eq_getElem (by omega)) ho.1
    omega
  simp only [awaitingSlot, hfind, h.here, if_pos hp]

/-- A CONT block the only group waits for is appended (43_group_assembler.md R163). -/
theorem OnlyOpen.assemble_cont {s : State} {d : DecodedBlock} {j : Nat} {t : Slot} (h : OnlyOpen s.slots j t)
    (hr : d.role = .cont) (hsi : t.si = d.si) (hgseq : t.gseq = d.gseq) (hp : d.pos = t.nextPos) :
    assemble d s = s.setSlot j (appendedSlot t d) := by
  have hact : roleAction d s = (s.setSlot j (appendedSlot t d), some j) := by
    simp only [roleAction, hr, doCont, h.awaitingSlot_eq hsi hgseq hp]
  rw [assemble, hact]
  exact OthersFree.tick_eq_self (h.others.set _)

/-- A LAST block the only group waits for completes it (43_group_assembler.md R164). -/
theorem OnlyOpen.assemble_last {s : State} {d : DecodedBlock} {j : Nat} {t : Slot} (h : OnlyOpen s.slots j t)
    (hr : d.role = .last) (hsi : t.si = d.si) (hgseq : t.gseq = d.gseq) (hp : d.pos = t.nextPos) (h0 : d.pos ≠ 0) :
    assemble d s = emitGroup (completedGroup t d) (s.setSlot j t.freed) := by
  have hact : roleAction d s = (emitGroup (completedGroup t d) (s.setSlot j t.freed), none) := by
    simp only [roleAction, hr, if_neg h0, doLast, h.awaitingSlot_eq hsi hgseq hp]
  rw [assemble, hact]
  apply AllFree.tick_eq_self
  have hfree : AllFree (s.slots.set j t.freed) := h.others.allFree_set rfl
  rcases emitGroup_cases (completedGroup t d) (s.setSlot j t.freed) with ⟨-, he⟩ | ⟨-, he⟩ <;> (rw [he]; exact hfree)

/-! ### The blocks of a group -/

/-- The slot of a group of which `blocks` came, each as it was sent. -/
def groupSlot (si gseq : Nat) (blocks : List BitSeq) : Slot :=
  { state := .opened, si := si, gseq := gseq, nextPos := blocks.length, idle := 0
    degraded := false, corrected := false, blocks := blocks }

theorem appendedSlot_groupSlot (r : Role) (info : BitSeq) (si gseq pos : Nat) (blocks : List BitSeq) :
    appendedSlot (groupSlot si gseq blocks) (cleanBlock r info si gseq pos) = groupSlot si gseq (blocks ++ [info]) := by
  simp [appendedSlot, groupSlot, cleanBlock, degradedAfter, correctedAfter]

/-- The last block of a group whose blocks all came as they were sent (44_service_output.md R191). -/
theorem emitGroup_clean {s : State} {r : Role} {info : BitSeq} {si gseq pos : Nat} {blocks : List BitSeq}
    (h : allowed s si = true) :
    emitGroup (completedGroup (groupSlot si gseq blocks) (cleanBlock r info si gseq pos)) s =
      s.emit (.record si gseq false false (blocks ++ [info]).length (blocks ++ [info]).flatten) :=
  if_pos h

/-- The run that began in `s` has come to a block boundary, has output nothing, and has the group in slot 0. -/
structure Collecting (s : State) (si gseq : Nat) (blocks : List BitSeq) (t : State) : Prop where
  boundary : t.AtBoundary
  configuration : t.configuration = s.configuration
  out : t.out = s.out
  slot : OnlyOpen t.slots 0 (groupSlot si gseq blocks)

section
variable {s t : State} {e : BicEntry} {info : BitSeq} {si gseq : Nat} {blocks : List BitSeq}

/-- A block that leaves slots and output as given ends at a boundary. -/
theorem State.AtBoundary.emptied {bits : BitSeq} (h : s.AtBoundary) (hlen : bits.length = s.cfg.blockLen) (slots : List Slot)
    (out : List Item) : State.AtBoundary (State.emptied { s.withBlock bits with slots := slots, out := out }) :=
  ⟨h.cfg_wf, h.phase, rfl, rfl, hlen⟩

/-- The FIRST block opens the group's slot. -/
theorem firstBlock_collecting (h : s.AtBoundary) (hfree : AllFree s.slots) (hn : 0 < s.slots.length)
    (he : e ∈ s.cfg.bicTab ∧ e.role = .first) (hi : info.length = s.cfg.wInfo)
    (hh : Claim.headerOf s.cfg info = (si, gseq, 0)) :
    ∃ t, execSeq (pseudoBits (refBlock s.cfg e.value info)) s = .next t ∧ Collecting s si gseq [info] t := by
  obtain ⟨hmem, hrole⟩ := he
  refine ⟨_, execSeq_refBlock h hmem hi hh, ?_⟩
  rw [hrole, assemble_first (s := s.withBlock _) hfree hn rfl rfl]
  exact ⟨h.emptied (refBlock_length h.cfg_wf _ hi) _ _, rfl, rfl, (hfree.othersFree 0).onlyOpen_set hn rfl⟩

/-- A CONT block at the next position is added to the group. -/
theorem Collecting.contBlock (h : Collecting s si gseq blocks t) (he : e ∈ s.cfg.bicTab ∧ e.role = .cont)
    (hi : info.length = s.cfg.wInfo) (hh : Claim.headerOf s.cfg info = (si, gseq, blocks.length)) :
    ∃ u, execSeq (pseudoBits (refBlock s.cfg e.value info)) t = .next u ∧ Collecting s si gseq (blocks ++ [info]) u := by
  obtain ⟨hmem, hrole⟩ := he
  obtain ⟨hb, hconf, hout, hslot⟩ := h
  obtain ⟨hcfg, -⟩ := configuration_eq_iff.mp hconf
  rw [← hcfg] at hmem hi hh ⊢
  refine ⟨_, execSeq_refBlock hb hmem hi hh, ?_⟩
  rw [hrole, OnlyOpen.assemble_cont (s := t.withBlock _) hslot rfl rfl rfl rfl, appendedSlot_groupSlot]
  exact ⟨hb.emptied (refBlock_length hb.cfg_wf _ hi) _ _, hconf, hout, hslot.others.onlyOpen_set hslot.lt rfl⟩

/-- The CONT blocks at the next positions are added to the group, one after another. -/
theorem Collecting.contBlocks (h : Collecting s si gseq blocks t) (he : e ∈ s.cfg.bicTab ∧ e.role = .cont)
    {infos : List BitSeq} (hinfos : ∀ (p : Nat) (info : BitSeq), infos[p]? = some info →
      info.length = s.cfg.wInfo ∧ Claim.headerOf s.cfg info = (si, gseq, blocks.length + p)) :
    ∃ u, execSeq (pseudoBits (infos.map (refBlock s.cfg e.value)).flatten) t = .next u ∧
      Collecting s si gseq (blocks ++ infos) u := by
  induction infos generalizing blocks t with
  | nil => exact ⟨t, rfl, by rwa [List.append_nil]⟩
  | cons info infos ih =>
    obtain ⟨hi, hh⟩ := hinfos 0 info rfl
    obtain ⟨u, hu, hcu⟩ := h.contBlock he hi hh
    obtain ⟨v, hv, hcv⟩ := ih hcu fun p i hp => by
      have := hinfos (p + 1) i hp
      rwa [List.length_append, List.length_singleton, Nat.add_assoc, Nat.add_comm 1]
    rw [List.append_assoc] at hcv
    refine ⟨v, ?_, hcv⟩
    rw [pseudoBits, List.map_cons, List.flatten_cons, List.map_append]
    exact (execSeq_append hu).trans hv

/-- The LAST block outputs the group's RECORD and frees its slot. -/
theorem Collecting.lastBlock (h : Collecting s si gseq blocks t) (he : e ∈ s.cfg.bicTab ∧ e.role = .last)
    (hne : blocks ≠ []) (hallow : allowed s si = true) (hi : info.length = s.cfg.wInfo)
    (hh : Claim.headerOf s.cfg info = (si, gseq, blocks.length)) :
    ∃ u, execSeq (pseudoBits (refBlock s.cfg e.value info)) t = .next u ∧
      u.out = s.out ++ [.record si gseq false false (blocks ++ [info]).length (blocks ++ [info]).flatten] ∧
      AllFree u.slots ∧ u.fill = 0 ∧ u.sync = .synchronized := by
  obtain ⟨hmem, hrole⟩ := he
  obtain ⟨hb, hconf, hout, hslot⟩ := h
  obtain ⟨hcfg, -, -, -, hen, hmask⟩ := configuration_eq_iff.mp hconf
  rw [← hcfg] at hmem hi hh ⊢
  have hallow' : allowed t si = true := by rwa [allowed, allowBit, hen, hmask]
  refine ⟨_, execSeq_refBlock hb hmem hi hh, ?_⟩
  rw [hrole, OnlyOpen.assemble_last (s := t.withBlock _) hslot rfl rfl rfl rfl (by simpa [cleanBlock] using hne),
    emitGroup_clean (s := State.setSlot (t.withBlock _) 0 _) hallow']
  refine ⟨?_, hslot.others.allFree_set rfl, rfl, rfl⟩
  rw [← hout]
  rfl

end

/-- The blocks of a group, apart from the first and the last, are CONT blocks (30_encoding.md R85). -/
theorem groupBits_eq (c : Cfg) (first cont last : Nat) (i₀ i₁ : BitSeq) (infos : List BitSeq) :
    Claim.groupBits c first cont last (i₀ :: (infos ++ [i₁])) =
      refBlock c first i₀ ++ ((infos.map (refBlock c cont)).flatten ++ refBlock c last i₁) := by
  have hmid : (infos.zipIdx 1).map (fun (info, p) =>
      refBlock c (if p = 0 then first else if p + 1 = infos.length + 1 + 1 then last else cont) info) =
        infos.map (refBlock c cont) := by
    conv_rhs => rw [← List.zipIdx_map_fst 1 infos, List.map_map]
    refine List.map_congr_left fun ⟨info, p⟩ hmem => ?_
    have := List.mem_zipIdx hmem
    simp only [Function.comp]
    rw [if_neg (by omega), if_neg (by omega)]
  simp only [Claim.groupBits, List.zipIdx_cons, List.zipIdx_append, List.map_cons, List.map_append, List.length_cons,
    List.length_append, Nat.zero_add, List.length_nil]
  rw [hmid]
  simp [Nat.add_comm]

/-- Settles O58: the FIRST block opens slot 0, the CONT blocks fill it, the LAST block completes the group. -/
theorem groupRoundTripGivesItsRecord : Obligations.GroupRoundTripGivesItsRecord := by
  intro s si gseq infos first cont last h hp hsync hfill hfree hallow hge _ hfirst hcont hlast hinfos
  obtain ⟨hwf, -, -⟩ := (startOk_iff s).mp (h.started (.inl hp))
  have hb : s.AtBoundary := ⟨hwf, hp, hsync, hfill, h.win_length⟩
  have hn : 0 < s.slots.length := by
    rw [h.slots_length]
    obtain ⟨-, -, -, -, -, -, -, -, -, hacc, -⟩ := (cfgRangesOk_iff s.cfg).mp ((cfgWf_iff s.cfg).mp hwf).1
    exact hacc
  obtain ⟨i₀, mid, i₁, rfl⟩ : ∃ i₀ mid i₁, infos = i₀ :: (mid ++ [i₁]) := by
    match infos with
    | i₀ :: rest =>
      rcases List.eq_nil_or_concat rest with rfl | ⟨mid, i₁, rfl⟩
      · simp at hge
      · exact ⟨i₀, mid, i₁, by rw [List.concat_eq_append]⟩
  obtain ⟨hi₀, hh₀⟩ := hinfos 0 i₀ rfl
  obtain ⟨t, ht, hct⟩ := firstBlock_collecting hb hfree hn hfirst hi₀ hh₀
  obtain ⟨u, hu, hcu⟩ := hct.contBlocks hcont (infos := mid) fun p i hp => hinfos (1 + p) i (by
    rw [Nat.add_comm, List.getElem?_cons_succ]
    exact (List.getElem?_append_left (List.getElem?_eq_some_iff.mp hp).1).trans hp)
  obtain ⟨hi₁, hh₁⟩ : i₁.length = s.cfg.wInfo ∧ Claim.headerOf s.cfg i₁ = (si, gseq, ([i₀] ++ mid).length) :=
    hinfos _ i₁ (by simp)
  obtain ⟨v, hv, hout, hend⟩ := hcu.lastBlock hlast (by simp) ((allowed_iff s si).mpr hallow) hi₁ hh₁
  refine ⟨v, ?_, ?_, hend⟩
  · rw [groupBits_eq, pseudoBits, List.map_append, List.map_append]
    exact (execSeq_append ht).trans ((execSeq_append hu).trans hv)
  · simpa using hout

end Sys2Proof.Machine
end

section
/-! PROOFS. The commands of 40_commands.md in every phase: where the table of R100 lets a command run, what it does there,
and what it does elsewhere. -/

namespace Sys2Proof.Machine

open Sys2Proof.Claim

/-! ### The table of phases -/

/-- Outside its phases a command raises BAD_PHASE (40_commands.md R100). -/
theorem exec_of_not_legalIn {i : Instr} {s : State} (h : legalIn i s.phase = false) (hf : s.phase ≠ .fault) :
    exec i s = .next (raiseFault .badPhase s) := by
  have hwrong {legal : Phase} {body : State → State} (h : (s.phase == legal) = false) :
      inPhase legal body s = raiseFault .badPhase s := inPhase_wrong (beq_eq_false_iff_ne.mp h) hf
  rw [exec_eq_effect]
  cases i with
  | bit b => exact congrArg _ (hwrong h)
  | eos => exact congrArg _ (hwrong h)
  | stop => exact congrArg _ (hwrong h)
  | start => exact congrArg _ (hwrong h)
  | cfgwr a d => exact congrArg _ (hwrong h)
  | _ => cases h

/-- In FAULT a command that is not legal in every phase is ignored (60_exceptions.md R216). -/
theorem exec_ignored_in_fault {i : Instr} {s : State} (h : legalIn i .fault = false) (hp : s.phase = .fault) :
    exec i s = .next s := by
  have hblock : ∀ r f, i ≠ blockInstr r f := by
    rintro r f rfl
    cases r <;> cases h
  rw [exec_in_fault hp hblock]
  split
  · cases h
  · cases h
  · rfl

/-! ### NOP and RESET -/

/-- Settles O23: NOP has no effect to make. -/
theorem nopChangesNothing : Obligations.NopChangesNothing :=
  ⟨rfl, fun s => exec_eq_effect .nop s⟩

/-- Settles O19: the effect of RESET is `resetDevice`. -/
theorem resetCommandGivesResetState : Obligations.ResetCommandGivesResetState :=
  fun s => exec_eq_effect .reset s

/-! ### START -/

/-- START in CONFIG where `start_ok()` holds enters RUN (40_commands.md R103). -/
theorem exec_start_of_startOk {s : State} (hp : s.phase = .config) (h : startOk s = true) :
    exec .start s = .next { s with phase := .run } := by
  rw [exec_eq_effect, effect, inPhase_legal hp (by decide), startBody, if_pos h]

/-- Settles O24: `start_ok()` decides in CONFIG, the phase elsewhere. -/
theorem startChecksConfigurationAndRuns : Obligations.StartChecksConfigurationAndRuns := by
  refine ⟨rfl, fun s => ⟨fun hp hwf hmiss hgrp => ?_, fun hp hbad => ?_, fun hp hf => ?_, fun hp => ?_⟩⟩
  · exact exec_start_of_startOk hp ((startOk_iff s).mpr ⟨hwf, hmiss, hgrp⟩)
  · exact exec_start_of_not_startOk hp (Bool.eq_false_iff.mpr (mt (startOk_iff s).mp hbad))
  · exact exec_of_not_legalIn (beq_eq_false_iff_ne.mpr hp) hf
  · exact exec_ignored_in_fault rfl hp

/-! ### EOS and STOP -/

/-- Settles O29: in RUN the flush, END and DRAINED of `eosBody`. -/
theorem eosFlushesOpenGroups : Obligations.EosFlushesOpenGroups := by
  refine ⟨rfl, fun s => ⟨fun hp => ?_, fun hp hf => ?_, fun hp => ?_⟩⟩
  · rw [exec_eq_effect, effect, inPhase_legal hp (by decide)]
    rfl
  · exact exec_of_not_legalIn (beq_eq_false_iff_ne.mpr hp) hf
  · exact exec_ignored_in_fault rfl hp

/-- Settles O30: in RUN the freed slots and HALTED of `stopBody`. -/
theorem stopDiscardsSilently : Obligations.StopDiscardsSilently := by
  refine ⟨rfl, fun s => ⟨fun hp => ?_, fun hp hf => ?_, fun hp => ?_⟩⟩
  · rw [exec_eq_effect, effect, inPhase_legal hp (by decide)]
    rfl
  · exact exec_of_not_legalIn (beq_eq_false_iff_ne.mpr hp) hf
  · exact exec_ignored_in_fault rfl hp

/-! ### BIT -/

/-- Settles O34: RUN is the one phase of BIT. -/
theorem bitOutsideRunFaults : Obligations.BitOutsideRunFaults :=
  fun _ _ => ⟨fun hp hf => exec_of_not_legalIn (beq_eq_false_iff_ne.mpr hp) hf, exec_ignored_in_fault rfl⟩

/-- Slots are opened and freed, never added or removed (10_state.md R40). -/
theorem bitStep_slots_length (b : Bool) (s : State) : (bitStep b s).slots.length = s.slots.length := by
  rcases bitStep_cases b s with ⟨-, he⟩ | ⟨-, he⟩ <;> rw [he]
  · rfl
  · rcases syncCompare_cases (shiftIn b s) with ⟨-, -, he⟩ | ⟨r, m, u, hu, he⟩ <;> rw [he]
    · rfl
    · refine (deliver_pipe r m _ u).length.trans ?_
      rw [hu.frame]
      rfl

/-- Settles O40: `bitStep` with its frame and the number of its slots. -/
theorem bitFrame : Obligations.BitFrame :=
  fun s b hp => ⟨bitStep b s, exec_bit_run b hp, bitStep_frame b s, bitStep_slots_length b s⟩

end Sys2Proof.Machine
end

section
/-! PROOFS. CFGWR and RDREG (40_commands.md R104, R108): their words, and their answer at every address. -/

namespace Sys2Proof.Machine

open Sys2Proof.Claim

/-! ### The words -/

/-- Format W (30_encoding.md R74) as a sum of shifted fields. -/
theorem encodeW_eq_or (op : BitVec 4) (a : Addr) (d : Reg16) :
    encodeW op a d = op.setWidth 32 <<< 28 ||| a.setWidth 32 <<< 20 ||| d.setWidth 32 := by
  apply BitVec.eq_of_getLsbD_eq
  intro i hi
  grind [encodeW]

/-- Format R (30_encoding.md R75) as a sum of shifted fields. -/
theorem encodeR_eq_or (op : BitVec 4) (a : Addr) :
    encodeR op a = op.setWidth 32 <<< 28 ||| a.setWidth 32 <<< 20 := by
  apply BitVec.eq_of_getLsbD_eq
  intro i hi
  grind [encodeR]

/-! ### The addresses -/

/-- The mapped addresses (20_memory.md R52) are those with a register. -/
theorem regAt_eq_none_iff {c : Cfg} {a : Addr} : regAt c a = none ↔ mapped c a = false := by
  rw [regAt_none, mapped]
  simp only [Bool.or_eq_false_iff, decide_eq_false_iff_not, ← Bool.decide_and]
  omega

theorem writable_of_regWritable {c : Cfg} {a : Addr} {r : RegName} (hr : regAt c a = some r) (hw : regWritable r = true) :
    writable c a = true := by
  simp only [writable, Bool.or_eq_true, Bool.and_eq_true, decide_eq_true_eq]
  rcases regAt_cases hr with ⟨-, rfl⟩ | ⟨ha, rfl⟩ | ⟨ha, rfl⟩ | ⟨ha, rfl⟩ | ⟨ha, rfl⟩ | ⟨-, rfl⟩ | ⟨-, rfl⟩ | ⟨-, rfl⟩ |
    ⟨j, hj, ha, rfl⟩
  any_goals cases hw
  all_goals omega

/-- The addresses CFGWR may write (10_state.md R29) are those with a writable register. -/
theorem writableAt_eq_none_iff {c : Cfg} {a : Addr} : writableAt c a = none ↔ writable c a = false := by
  rw [writableAt]
  cases hr : regAt c a with
  | none =>
    rw [regAt_none] at hr
    simp only [writable, Bool.or_eq_false_iff, ← Bool.decide_and, decide_eq_false_iff_not, true_iff]
    omega
  | some r =>
    have hwr : regWritable r = writable c a :=
      Bool.eq_iff_iff.mpr ⟨writable_of_regWritable hr, fun hw => regWritable_of_writable hw hr⟩
    simp [hwr]

theorem regAt_of_mapped {c : Cfg} {a : Addr} (h : mapped c a = true) : ∃ r, regAt c a = some r := by
  rw [← Option.ne_none_iff_exists', Ne, regAt_eq_none_iff, h]
  decide

theorem writableAt_of_writable {c : Cfg} {a : Addr} (h : writable c a = true) : ∃ r, writableAt c a = some r := by
  rw [← Option.ne_none_iff_exists', Ne, writableAt_eq_none_iff, h]
  decide

/-! ### CFGWR -/

/-- CFGWR in CONFIG to an unmapped address or a read-only register (40_commands.md R104). -/
theorem exec_cfgwr_of_not_writable {s : State} {a : Addr} (hp : s.phase = .config) (h : writable s.cfg a = false)
    (d : Reg16) : exec (.cfgwr a d) s = .next (raiseFault .badAddr s) := by
  rw [exec_eq_effect, effect, inPhase_legal hp (by decide), cfgwrBody, writableAt_eq_none_iff.mpr h]

/-- Settles O27: in CONFIG each writable address is a row of the address map, and CFGWR is `regWrite` of its register. -/
theorem cfgwrWritesItsRegister : Obligations.CfgwrWritesItsRegister := by
  intro s a d
  refine ⟨congrArg Code.command (encodeW_eq_or 6 a d), ?_, ?_, ?_, ?_, fun j hp hj ha => ?_, fun hp hw => ?_,
    fun hp hf => ?_, fun hp => ?_⟩
  · rintro hp rfl
    exact exec_cfgwr_of_writable hp (r := .missTol) rfl rfl d
  · rintro hp rfl
    exact exec_cfgwr_of_writable hp (r := .grpTimeout) rfl rfl d
  · rintro hp rfl
    exact exec_cfgwr_of_writable hp (r := .srcSel) rfl rfl d
  · rintro hp rfl
    exact exec_cfgwr_of_writable hp (r := .allowCtrl) rfl rfl d
  · refine ⟨d &&& allowBits s.cfg j, exec_cfgwr_of_writable hp (regAt_allowMask hj ha) rfl d, fun k hk => ?_⟩
    rw [BitVec.getLsbD_and, allowBits_getLsbD _ _ _ hk]
  · exact exec_cfgwr_of_not_writable hp hw d
  · exact exec_of_not_legalIn (beq_eq_false_iff_ne.mpr hp) hf
  · exact exec_ignored_in_fault rfl hp

/-! ### RDREG -/

theorem exec_rdreg_of_regAt {s : State} {a : Addr} {r : RegName} (h : regAt s.cfg a = some r) :
    exec (.rdreg a) s = .next (s.emit (.regval a (regRead s r))) := by
  rw [exec_eq_effect, effect, rdregBody, h]

/-- RDREG of an unmapped address is a fault, but not a second one (40_commands.md R108, 60_exceptions.md R216). -/
theorem exec_rdreg_of_not_mapped {s : State} {a : Addr} (h : mapped s.cfg a = false) :
    exec (.rdreg a) s = .next (if s.phase = .fault then s else raiseFault .badAddr s) := by
  rw [exec_eq_effect, effect, rdregBody, regAt_eq_none_iff.mpr h]

/-- Settles O31: by what `regAt` answers; at an unmapped address by the phase. -/
theorem rdregAnswersRegisterValue : Obligations.RdregAnswersRegisterValue := by
  intro s a
  refine ⟨congrArg Code.command (encodeR_eq_or 7 a), fun r hr => exec_rdreg_of_regAt hr, fun hm hf => ?_, fun hm hf => ?_⟩
  · rw [exec_rdreg_of_not_mapped hm, if_neg hf]
    rfl
  · rw [exec_rdreg_of_not_mapped hm, if_pos hf]

end Sys2Proof.Machine
end

section
/-! PROOFS. Which fault a command word raises (60_exceptions.md R211), and what FAULT ignores (R216). -/

namespace Sys2Proof.Machine

open Sys2Proof.Claim

/-! ### In FAULT -/

theorem regRead_withPort (s : State) (port : List Word) (r : RegName) : regRead { s with port := port } r = regRead s r := by
  cases r <;> rfl

/-- Settles O10: `exec_in_fault`, with RDREG split by its address. -/
theorem faultPhaseIgnoresOtherWords : Obligations.FaultPhaseIgnoresOtherWords := by
  intro s w rest hport hp
  cases hd : decodeCommand w with
  | error e => rw [step_error hport hd, illegalWord, if_pos hp]
  | ok i =>
    have hblock (r : Role) (f : BlockFields) : i ≠ blockInstr r f := fun hi => decodeCommand_not_block w r f (hi ▸ hd)
    rw [step_ok hport hd, exec_in_fault (s := { s with port := rest }) hp hblock]
    cases i with
    | rdreg a =>
      cases hr : regAt s.cfg a with
      | none => simp only [rdregBody, hr, hp, if_true]
      | some r => simp only [rdregBody, hr, regRead_withPort, State.emit]
    | _ => rfl

/-- All a step in FAULT can output is a REGVAL, so it outputs no second FAULT (60_exceptions.md R216). -/
theorem step_in_fault_no_fault_item {s : State} {w : Word} {rest : List Word} (hport : s.port = w :: rest)
    (hp : s.phase = .fault) : ∃ t, step s = .next t ∧ ∀ c, .fault c ∉ t.out.drop s.out.length := by
  refine ⟨_, faultPhaseIgnoresOtherWords s w rest hport hp, fun c => ?_⟩
  split
  · simp
  · split <;> simp
  · simp

/-! ### Outside FAULT -/

/-- A legal command whose operands fail their check raises that fault and does nothing else (60_exceptions.md R211). -/
theorem exec_of_operandFault {i : Instr} {s : State} {c : FaultCause} (hl : legalIn i s.phase = true)
    (hf : s.phase ≠ .fault) (h : operandFault s i = some c) : exec i s = .next (raiseFault c s) := by
  cases i with
  | start =>
    simp only [operandFault, ← startOk_iff, Option.ite_none_left_eq_some, Option.some.injEq] at h
    obtain ⟨hbad, rfl⟩ := h
    exact exec_start_of_not_startOk (beq_iff_eq.mp hl) (Bool.eq_false_iff.mpr hbad)
  | cfgwr a d =>
    simp only [operandFault, Option.ite_none_left_eq_some, Option.some.injEq] at h
    obtain ⟨hbad, rfl⟩ := h
    exact exec_cfgwr_of_not_writable (beq_iff_eq.mp hl) (Bool.eq_false_iff.mpr hbad) d
  | rdreg a =>
    simp only [operandFault, Option.ite_none_left_eq_some, Option.some.injEq] at h
    obtain ⟨hbad, rfl⟩ := h
    rw [exec_rdreg_of_not_mapped (Bool.eq_false_iff.mpr hbad), if_neg hf]
  | _ => cases h

/-- A legal command whose operands pass their check does not enter FAULT (60_exceptions.md R211). -/
theorem effect_phase_ne_fault {i : Instr} {s : State} (hl : legalIn i s.phase = true) (hf : s.phase ≠ .fault)
    (h : operandFault s i = none) : (effect i s).phase ≠ .fault := by
  have hrun {legal : Phase} {body : State → State} (hp : (s.phase == legal) = true) : inPhase legal body s = body s :=
    have hp := beq_iff_eq.mp hp
    inPhase_legal hp (hp ▸ hf)
  have hdeliver (r : Role) (b : Bool) (f : BlockFields) : (deliver r b f s).phase ≠ .fault := by
    rw [(deliver_pipe r b f s).frame]
    exact hf
  cases i with
  | nop => exact hf
  | reset => simp [effect]
  | bit b =>
    rw [effect, hrun hl, bitStep_frame]
    exact hf
  | eos => simp [effect, hrun hl, eosBody]
  | stop => simp [effect, hrun hl, stopBody]
  | start =>
    have hok : startOk s = true := by simpa [operandFault, ← startOk_iff] using h
    simp [effect, hrun hl, startBody, hok]
  | cfgwr a d =>
    obtain ⟨r, hr⟩ := writableAt_of_writable (c := s.cfg) (a := a) (by simpa [operandFault] using h)
    rw [effect, hrun hl, cfgwrBody, hr]
    exact (regWrite_phase s r d).symm ▸ hf
  | rdreg a =>
    obtain ⟨r, hr⟩ := regAt_of_mapped (c := s.cfg) (a := a) (by simpa [operandFault] using h)
    simpa [effect, rdregBody, hr] using hf
  | blkFirst f => exact hdeliver _ _ f
  | blkCont f => exact hdeliver _ _ f
  | blkLast f => exact hdeliver _ _ f
  | blkNone f => exact hdeliver _ _ f

theorem operandFault_withPort (s : State) (port : List Word) (i : Instr) :
    operandFault { s with port := port } i = operandFault s i := by
  cases i <;> rfl

/-- The first check of 60_exceptions.md R211 that a command word fails: decoding, then the phase, then the operands. -/
theorem faultOf_cases (s : State) (w : Word) :
    (∃ e, decodeCommand w = .error e ∧ faultOf s w = some .illegalCmd) ∨
    ∃ i, decodeCommand w = .ok i ∧
      ((legalIn i s.phase = false ∧ faultOf s w = some .badPhase) ∨
       (legalIn i s.phase = true ∧ faultOf s w = operandFault s i)) := by
  rw [faultOf]
  cases hd : decodeCommand w with
  | error e => exact .inl ⟨e, rfl, rfl⟩
  | ok i =>
    refine .inr ⟨i, rfl, ?_⟩
    cases hl : legalIn i s.phase
    · exact .inl ⟨rfl, by simp [hl]⟩
    · exact .inr ⟨rfl, by simp [hl]⟩

theorem step_of_faultOf_some {s : State} {w : Word} {rest : List Word} {c : FaultCause} (hport : s.port = w :: rest)
    (hf : s.phase ≠ .fault) (h : faultOf s w = some c) : step s = .next (raiseFault c { s with port := rest }) := by
  rcases faultOf_cases s w with ⟨e, hd, he⟩ | ⟨i, hd, ⟨hl, he⟩ | ⟨hl, he⟩⟩ <;> rw [he] at h
  · cases h
    rw [step_error hport hd, illegalWord, if_neg hf]
  · cases h
    rw [step_ok hport hd]
    exact exec_of_not_legalIn (s := { s with port := rest }) hl hf
  · rw [step_ok hport hd]
    exact exec_of_operandFault (s := { s with port := rest }) hl hf ((operandFault_withPort s rest i).trans h)

theorem step_of_faultOf_none {s : State} {w : Word} {rest : List Word} (hport : s.port = w :: rest)
    (hf : s.phase ≠ .fault) (h : faultOf s w = none) : ∃ t, step s = .next t ∧ t.phase ≠ .fault := by
  rcases faultOf_cases s w with ⟨e, -, he⟩ | ⟨i, hd, ⟨-, he⟩ | ⟨hl, he⟩⟩ <;> rw [he] at h
  · cases h
  · cases h
  · rw [step_ok hport hd, exec_eq_effect]
    have hop := (operandFault_withPort s rest i).trans h
    exact ⟨_, rfl, effect_phase_ne_fault (s := { s with port := rest }) hl hf hop⟩

/-- Settles O9: in FAULT by the words that FAULT does not ignore; outside, check by check in the order of R211. -/
theorem firstFailingCheckDecidesFault : Obligations.FirstFailingCheckDecidesFault :=
  fun _ _ _ hport =>
    ⟨step_in_fault_no_fault_item hport, fun _ => step_of_faultOf_some hport, step_of_faultOf_none hport⟩

end Sys2Proof.Machine
end

section
/-! PROOFS. BIT on a full window (41_frame_sync.md R123 to R126): the window slides, or its block runs as the instruction of
its role. -/

namespace Sys2Proof.Machine

open Sys2Proof.Claim

/-- The state a full window is compared in (10_state.md R23, R24). -/
def State.filled (s : State) (b : Bool) : State := { s with win := shifted s b, fill := s.cfg.blockLen }

section
variable {s u : State} {b : Bool} {r : Role}

theorem shiftIn_of_fills (h : fills s) : shiftIn b s = s.filled b := by
  rcases h with h | h
  · rw [shiftIn, if_pos (by omega), h]
    rfl
  · rw [shiftIn, if_neg (by omega), h]
    rfl

theorem exec_bit_of_fills (hp : s.phase = .run) (h : fills s) :
    exec (.bit b) s = .next (syncCompare (s.filled b)) := by
  rw [exec_bit_run b hp, bitStep, shiftIn_of_fills h]
  exact congrArg _ (if_pos rfl)

theorem syncCompare_filled_unsynchronized (hs : s.sync = .unsynchronized) :
    syncCompare (s.filled b) = scanStep (windowMatch s b) (splitBlock s.cfg (shifted s b)) (s.filled b) := by
  have hs : (s.filled b).sync = .unsynchronized := hs
  simp only [syncCompare, hs]
  rfl

theorem syncCompare_filled_synchronized (hs : s.sync = .synchronized) :
    syncCompare (s.filled b) = lockStep (windowMatch s b) (splitBlock s.cfg (shifted s b)) (s.filled b) := by
  have hs : (s.filled b).sync = .synchronized := hs
  simp only [syncCompare, hs]
  rfl

/-- The emission of a block is its block instruction, then `FILL <- 0` (41_frame_sync.md R128, R129): only a block of role
NONE is emitted as suspect. -/
theorem exec_bit_of_emitBlock (hp : s.phase = .run) (hfull : fills s)
    (he : syncCompare (s.filled b) = emitBlock r (decide (r = .none)) (splitBlock s.cfg (shifted s b)) u) :
    ∃ t, exec (blockInstr r (splitBlock s.cfg (shifted s b))) u = .next t ∧
      exec (.bit b) s = .next { t with fill := 0 } :=
  ⟨_, exec_blockInstr _ _ _, by rw [exec_bit_of_fills hp hfull, he]; rfl⟩

/-- A matched block has a role other than NONE and is not suspect (41_frame_sync.md R124, R125). -/
theorem decide_roleAt_eq_none {i : Nat} (hm : windowMatch s b = some i) : decide (roleAt s.cfg i = .none) = false :=
  decide_eq_false (roleAt_ne_none hm)

end

/-- Settles O36: without a match the comparison leaves the full window; with one the block runs after `acquireLock`. -/
theorem scanStepFollowsItsRule : Obligations.ScanStepFollowsItsRule := by
  intro s b hp hfull hs
  refine ⟨fun hm => ?_, fun i hm => exec_bit_of_emitBlock hp hfull ?_⟩
  · rw [exec_bit_of_fills hp hfull, syncCompare_filled_unsynchronized hs, hm]
    rfl
  · rw [syncCompare_filled_unsynchronized hs, decide_roleAt_eq_none hm, hm]
    rfl

/-- Settles O37: the block of a hit runs after `MISS_CNT <- 0`. -/
theorem lockedHitRunsBlock : Obligations.LockedHitRunsBlock := by
  intro s b i hp hfull hs hm
  refine exec_bit_of_emitBlock hp hfull ?_
  rw [syncCompare_filled_synchronized hs, decide_roleAt_eq_none hm, hm]
  rfl

/-- Settles O38: the block of a miss runs as NONE after `countMiss`, whose two branches are those of the statement. -/
theorem lockedMissCountsOrLosesLock : Obligations.LockedMissCountsOrLosesLock := by
  intro s b hp hfull hs hm
  refine exec_bit_of_emitBlock (r := .none) hp hfull ?_
  rw [syncCompare_filled_synchronized hs, hm]
  rfl

end Sys2Proof.Machine
end

section
/-! PROOFS. The table of the synchronizer (41_frame_sync.md R130): the stages behind it output none of its events and leave its
state alone, so what the comparison did is what the BIT command leaves. -/

namespace Sys2Proof.Machine

open Sys2Proof.Claim

/-! ### The items of a block -/

/-- `t` has the output of `s` and then items of which none is an event of the synchronizer. -/
def SyncSilent (s t : State) : Prop := ∃ items, t.out = s.out ++ items ∧ ∀ x ∈ items, isSyncEvent x = false

theorem SyncSilent.of_out_eq {s t : State} (h : t.out = s.out) : SyncSilent s t :=
  ⟨[], by rw [h, List.append_nil], by simp⟩

theorem SyncSilent.single {s t : State} {i : Item} (h : t.out = s.out ++ [i]) (hi : isSyncEvent i = false) :
    SyncSilent s t :=
  ⟨[i], h, by simpa using hi⟩

theorem SyncSilent.trans {s t u : State} (h : SyncSilent s t) (k : SyncSilent t u) : SyncSilent s u := by
  obtain ⟨as, ha, has⟩ := h
  obtain ⟨bs, hb, hbs⟩ := k
  exact ⟨as ++ bs, by rw [hb, ha, List.append_assoc], List.forall_mem_append.mpr ⟨has, hbs⟩⟩

theorem abandonSlot_syncSilent (j : Nat) (r : AbandonReason) (s : State) : SyncSilent s (abandonSlot j r s) := by
  unfold abandonSlot
  split
  · exact .single rfl rfl
  · exact .of_out_eq rfl

theorem abandonFound_syncSilent (j : Option Nat) (r : AbandonReason) (s : State) : SyncSilent s (abandonFound j r s) := by
  cases j with
  | none => exact .of_out_eq rfl
  | some j => exact abandonSlot_syncSilent j r s

theorem allocate_syncSilent (s : State) : SyncSilent s (allocate s).1 := by
  unfold allocate
  split
  · exact .of_out_eq rfl
  · exact abandonSlot_syncSilent _ _ s

theorem dropBlock_syncSilent (d : DecodedBlock) (s : State) : SyncSilent s (dropBlock d s) := .single rfl rfl

theorem emitGroup_syncSilent (g : Group) (s : State) : SyncSilent s (emitGroup g s) := by
  unfold emitGroup
  split
  · refine ⟨groupItems g, rfl, List.forall_mem_append.mpr ⟨fun x hx => ?_, by simp [isSyncEvent]⟩⟩
    split at hx
    · rw [List.mem_singleton.mp hx]
      rfl
    · cases hx
  · exact .of_out_eq rfl

theorem tick_syncSilent (touched : Option Nat) (s : State) : SyncSilent s (tick touched s) := by
  refine ⟨_, rfl, fun x hx => ?_⟩
  obtain ⟨turn, hturn, hx⟩ := List.mem_flatMap.mp hx
  obtain ⟨⟨t, j⟩, -, rfl⟩ := List.mem_map.mp hturn
  rcases tickSlot_cases s.grpTimeout.toNat (touched == some j) t with ⟨he, -⟩ | ⟨-, -, -, he⟩ | ⟨-, -, -, he⟩ <;>
    simp only [he] at hx
  · cases hx
  · rw [List.mem_singleton.mp hx]
    rfl
  · cases hx

theorem isSyncEvent_decoderEvents (d : DecodedBlock) : ∀ x ∈ decoderEvents d, isSyncEvent x = false := by
  intro x hx
  have hcases : x = mkEvent .blockCorrected d.nflips 0 0 0 ∨ x = mkEvent .blockUncorrectable 0 0 0 0 ∨
      x = mkEvent .checksumMismatch 0 0 0 0 := by
    simp only [decoderEvents, List.mem_append, List.mem_ite_nil_right, List.mem_singleton] at hx
    tauto
  rcases hcases with rfl | rfl | rfl <;> rfl

/-- No role's action outputs an event of the synchronizer (43_group_assembler.md R160). -/
theorem roleAction_syncSilent (d : DecodedBlock) (s : State) : SyncSilent s (roleAction d s).1 := by
  unfold roleAction
  cases d.role with
  | none => exact dropBlock_syncSilent d s
  | first =>
    dsimp only [doFirst]
    split
    · exact (abandonFound_syncSilent _ _ s).trans ((allocate_syncSilent _).trans (.of_out_eq rfl))
    · exact dropBlock_syncSilent d s
  | cont =>
    dsimp only [doCont]
    split
    · exact .of_out_eq rfl
    · exact dropBlock_syncSilent d s
  | last =>
    dsimp only [doSingle, doLast]
    split
    · exact (abandonFound_syncSilent _ _ s).trans (emitGroup_syncSilent _ _)
    · split
      · exact (SyncSilent.of_out_eq (t := s.setSlot _ _) rfl).trans (emitGroup_syncSilent _ _)
      · exact dropBlock_syncSilent d s

theorem deliver_syncSilent (r : Role) (m : Bool) (f : BlockFields) (s : State) : SyncSilent s (deliver r m f s) := by
  have hevents : SyncSilent s (s.emitAll (decoderEvents (blockDecode s.cfg r m f))) :=
    ⟨_, rfl, isSyncEvent_decoderEvents _⟩
  exact hevents.trans ((roleAction_syncSilent _ _).trans (tick_syncSilent _ _))

/-! ### The state a block leaves -/

/-- What a block leaves of the state `u` it runs in: the window, the synchronizer and its events (41_frame_sync.md R128). -/
structure BlockRan (u t : State) : Prop where
  win : t.win = u.win
  sync : t.sync = u.sync
  missCnt : t.missCnt = u.missCnt
  silent : SyncSilent u t

theorem blockRan_of_exec {r : Role} {f : BlockFields} {u t : State} (h : exec (blockInstr r f) u = .next t) :
    BlockRan u t := by
  rw [exec_blockInstr, Host.Outcome.next.injEq] at h
  subst h
  have hframe := (deliver_pipe r (decide (r = .none)) f u).frame
  exact ⟨by rw [hframe], by rw [hframe], by rw [hframe], deliver_syncSilent _ _ _ _⟩

/-- Settles O39: row by row from the rules of scanning (R124), of a hit (R125) and of a miss (R126). -/
theorem synchronizerFollowsItsTable : Obligations.SynchronizerFollowsItsTable := by
  intro s b h hp hfull
  cases hs : s.sync with
  | unsynchronized =>
    obtain ⟨hslide, hacquire⟩ := scanStepFollowsItsRule s b hp hfull hs
    cases hm : windowMatch s b with
    | none =>
      exact ⟨_, [], [], hslide hm, by simp, by simp, rfl, rfl, rfl, hs, h.miss_unsync hs, rfl⟩
    | some i =>
      obtain ⟨t, hblk, hbit⟩ := hacquire i hm
      obtain ⟨-, hsync, hmiss, items, hout, hsilent⟩ := blockRan_of_exec hblk
      exact ⟨_, _, items, hbit, hout, hsilent, rfl, hsync, hmiss, rfl⟩
  | synchronized =>
    cases hm : windowMatch s b with
    | some i =>
      obtain ⟨t, hblk, hbit⟩ := lockedHitRunsBlock s b i hp hfull hs hm
      obtain ⟨-, hsync, hmiss, items, hout, hsilent⟩ := blockRan_of_exec hblk
      exact ⟨_, [], items, hbit, by simpa using hout, hsilent, rfl, hsync.trans hs, hmiss, rfl⟩
    | none =>
      obtain ⟨-, htol, -⟩ := h.started_bounds hp
      have hlt := h.miss_lt
      obtain ⟨t, hblk, hbit⟩ := lockedMissCountsOrLosesLock s b hp hfull hs hm
      obtain ⟨-, hsync, hmiss, items, hout, hsilent⟩ := blockRan_of_exec (r := .none) hblk
      by_cases hlost : s.missCnt + 1 = s.missTol.toNat
      · rw [if_pos hlost] at hsync hmiss hout
        refine ⟨_, _, items, hbit, hout, hsilent, ?_⟩
        rw [if_neg (by omega)]
        exact ⟨by omega, rfl, hsync, hmiss, rfl⟩
      · rw [if_neg hlost] at hsync hmiss hout
        refine ⟨_, [], items, hbit, by simpa using hout, hsilent, ?_⟩
        rw [if_pos (by omega)]
        exact ⟨rfl, hsync.trans hs, hmiss, rfl⟩

end Sys2Proof.Machine
end

section
/-! PROOFS. The correlator (41_frame_sync.md R122): the entry within the tolerance is unique for a well-formed `Cfg`. -/

namespace Sys2Proof.Machine

theorem bicEntry_value_lt {c : Cfg} (h : cfgWf c = true) {i : Nat} {e : BicEntry} (hi : c.bicTab[i]? = some e) :
    e.value < 2 ^ c.wBic := by
  obtain ⟨-, htab, -⟩ := cfgWf_items h
  exact ((cfgBicTabOk_iff c).mp htab).1 e (List.mem_of_getElem? hi)

/-- Settles O41: with tolerance 0 an entry matches the words at distance 0, of which there is one of `W_BIC` bits. -/
theorem bicMatchIsTheUniqueEntryInTolerance : Obligations.BicMatchIsTheUniqueEntryInTolerance := by
  intro c w h hw
  refine ⟨fun i j e f hi hj he hf => bicEntry_unique h hi hj he hf, fun i => bicMatch_eq_some_iff h, fun h0 i => ?_⟩
  rw [bicMatch_eq_some_iff h, h0]
  refine exists_congr fun e => and_congr_right fun hi => ?_
  rw [Nat.le_zero, ham_eq_zero hw (bicEntry_value_lt h hi)]

end Sys2Proof.Machine
end

section
/-! PROOFS. Recovery (41_frame_sync.md R131): without lock, bits that complete no matching window only move the window, up to
the last bit of the block that matches. -/

namespace Sys2Proof.Machine

open Sys2Proof.Claim

/-- The state after bits that complete no matching window, without lock (41_frame_sync.md R124). -/
def State.scanned (s : State) (bits : BitSeq) : State :=
  { s with win := (s.win ++ bits).drop bits.length, fill := min (s.fill + bits.length) s.cfg.blockLen }

/-- No window that the bits complete matches a table entry (41_frame_sync.md R123). -/
def State.NoWindowMatches (s : State) (bits : BitSeq) : Prop :=
  ∀ n, 1 ≤ n → n ≤ bits.length → s.cfg.blockLen ≤ s.fill + n →
    bicMatch s.cfg (val (((s.win ++ bits).drop n).take s.cfg.wBic)) = none

/-- In RUN without lock, with a window of `L` bits. -/
structure State.Scanning (s : State) : Prop where
  phase : s.phase = .run
  sync : s.sync = .unsynchronized
  win_length : s.win.length = s.cfg.blockLen
  blockLen_pos : 0 < s.cfg.blockLen
  fill_le : s.fill ≤ s.cfg.blockLen

section
variable {s : State} {b : Bool} {bits : BitSeq}

theorem State.Scanning.scanned (h : s.Scanning) (bits : BitSeq) : (s.scanned bits).Scanning := by
  obtain ⟨hp, hs, hwin, hpos, -⟩ := h
  refine ⟨hp, hs, ?_, hpos, Nat.min_le_right _ _⟩
  simp only [State.scanned, List.length_drop, List.length_append]
  omega

theorem State.Scanning.shifted_eq (h : s.Scanning) (b : Bool) : shifted s b = (s.win ++ [b]).drop 1 := by
  obtain ⟨-, -, hwin, hpos, -⟩ := h
  rw [shifted, List.drop_append_of_le_length (by omega)]

theorem State.Scanning.scanned_win_append (h : s.Scanning) (b : Bool) (bits : BitSeq) :
    (s.scanned [b]).win ++ bits = (s.win ++ b :: bits).drop 1 := by
  obtain ⟨-, -, hwin, hpos, -⟩ := h
  simp only [State.scanned, List.length_singleton]
  rw [← List.drop_append_of_le_length (by simp), List.append_assoc]
  rfl

theorem State.Scanning.scanned_cons (h : s.Scanning) (b : Bool) (bits : BitSeq) :
    (s.scanned [b]).scanned bits = s.scanned (b :: bits) := by
  have hwin : ((s.scanned [b]).win ++ bits).drop bits.length = (s.win ++ b :: bits).drop (bits.length + 1) := by
    rw [h.scanned_win_append, List.drop_drop, Nat.add_comm]
  have hfill : min (min (s.fill + 1) s.cfg.blockLen + bits.length) s.cfg.blockLen =
      min (s.fill + (bits.length + 1)) s.cfg.blockLen := by omega
  rw [State.scanned, hwin]
  exact congrArg (fun n => { s with win := (s.win ++ b :: bits).drop (bits.length + 1), fill := n }) hfill

/-- One bit without lock: below the full window it is collected, and a full window that does not match slides. -/
theorem State.Scanning.exec_bit (h : s.Scanning) (hno : s.NoWindowMatches [b]) :
    exec (.bit b) s = .next (s.scanned [b]) := by
  have hshift := h.shifted_eq b
  have hfill := h.fill_le
  rw [State.scanned, List.length_singleton, ← hshift]
  by_cases hlt : s.fill + 1 < s.cfg.blockLen
  · rw [Nat.min_eq_left hlt.le]
    exact bitCollectsBelowFullWindow s b h.phase hlt
  · have hm : windowMatch s b = none := by
      rw [windowMatch, hshift]
      exact hno 1 (Nat.le_refl 1) (Nat.le_refl 1) (by omega)
    rw [Nat.min_eq_right (by omega)]
    exact (scanStepFollowsItsRule s b h.phase (by unfold fills; omega) h.sync).1 hm

/-- A stretch of `m` bits from bit `n` on does not depend on what follows it. -/
theorem take_drop_append {as : BitSeq} (bs : BitSeq) {n m : Nat} (h : n + m ≤ as.length) :
    ((as ++ bs).drop n).take m = (as.drop n).take m := by
  rw [List.drop_append_of_le_length (by omega), List.take_append_of_le_length (by rw [List.length_drop]; omega)]

theorem wBic_le_blockLen (c : Cfg) : c.wBic ≤ c.blockLen := by
  unfold Cfg.blockLen
  omega

theorem State.Scanning.noWindowMatches_head (h : s.Scanning) (hno : s.NoWindowMatches (b :: bits)) :
    s.NoWindowMatches [b] := by
  intro n h1 hn hfull
  rw [List.length_singleton] at hn
  have hwin := h.win_length
  have hbic := wBic_le_blockLen s.cfg
  rw [← take_drop_append bits (by rw [List.length_append, List.length_singleton]; omega), List.append_assoc]
  exact hno n h1 (by rw [List.length_cons]; omega) hfull

theorem State.Scanning.noWindowMatches_tail (h : s.Scanning) (hno : s.NoWindowMatches (b :: bits)) :
    (s.scanned [b]).NoWindowMatches bits := by
  intro n h1 hn hfull
  rw [h.scanned_win_append, List.drop_drop]
  refine hno (1 + n) (by omega) (by rw [List.length_cons]; omega) ?_
  have hfill : (s.scanned [b]).fill ≤ s.fill + 1 := Nat.min_le_left _ _
  have hlen : (s.scanned [b]).cfg.blockLen = s.cfg.blockLen := rfl
  omega

/-- Any number of bits without lock and without a match. -/
theorem State.Scanning.execSeq_pseudoBits (h : s.Scanning) (hno : s.NoWindowMatches bits) :
    execSeq (pseudoBits bits) s = .next (s.scanned bits) := by
  induction bits generalizing s with
  | nil =>
    have hfill : min s.fill s.cfg.blockLen = s.fill := Nat.min_eq_left h.fill_le
    simp [pseudoBits, execSeq, State.scanned, hfill]
  | cons b bits ih =>
    rw [pseudoBits, List.map_cons, execSeq, h.exec_bit (h.noWindowMatches_head hno)]
    exact (ih (h.scanned [b]) (h.noWindowMatches_tail hno)).trans (congrArg _ (h.scanned_cons b bits))

theorem State.Inv.scanning (h : s.Inv) (hp : s.phase = .run) (hs : s.sync = .unsynchronized) : s.Scanning :=
  ⟨hp, hs, h.win_length, (h.started_bounds hp).1, h.fill_le⟩

end

section
variable {s : State} {b : Bool} {pre body : BitSeq}

/-- From `FILL = 0` every window before the block's last bit starts at a bit of `pre`. -/
theorem State.Scanning.noWindowMatches_before_block (h : s.Scanning) (hfill : s.fill = 0)
    (hbody : body.length + 1 = s.cfg.blockLen)
    (hno : ∀ k, k < pre.length → bicMatch s.cfg (val (((pre ++ (body ++ [b])).drop k).take s.cfg.wBic)) = none) :
    s.NoWindowMatches (pre ++ body) := by
  intro n _ hn hfull
  rw [List.length_append] at hn
  have hwin := h.win_length
  have hbic := wBic_le_blockLen s.cfg
  rw [List.drop_append, List.drop_of_length_le (by omega), List.nil_append, hwin,
    ← take_drop_append [b] (by rw [List.length_append]; omega), List.append_assoc]
  exact hno (n - s.cfg.blockLen) (by omega)

/-- The block's last bit fills the window with the block. -/
theorem State.Scanning.shifted_scanned_block (h : s.Scanning) (hbody : body.length + 1 = s.cfg.blockLen) :
    shifted (s.scanned (pre ++ body)) b = body ++ [b] := by
  have hwin := h.win_length
  have hblock : s.win ++ (pre ++ body) ++ [b] = (s.win ++ pre) ++ (body ++ [b]) := by simp only [List.append_assoc]
  rw [(h.scanned _).shifted_eq]
  simp only [State.scanned]
  rw [← List.drop_append_of_le_length (by simp), List.drop_drop, hblock]
  exact List.drop_left' (by simp only [List.length_append]; omega)

end

/-- Settles O42: the bits before the block's last one are scanned, and the last one acquires lock on the block. -/
theorem lockIsRegainedWithinTwoBlocks : Obligations.LockIsRegainedWithinTwoBlocks := by
  intro s pre blk i h hp hs hfill hpre hblk hm hno
  have hscan := h.scanning hp hs
  refine ⟨by rw [List.length_append]; omega, ?_⟩
  rcases List.eq_nil_or_concat' blk with rfl | ⟨body, b, rfl⟩
  · exact absurd hblk hscan.blockLen_pos.ne
  have hbody : body.length + 1 = s.cfg.blockLen := by simpa using hblk
  have hrun := hscan.execSeq_pseudoBits (hscan.noWindowMatches_before_block hfill hbody hno)
  have hu := hscan.scanned (pre ++ body)
  have hfull : fills (s.scanned (pre ++ body)) := by
    simp only [fills, State.scanned, List.length_append]
    omega
  have hwin : shifted (s.scanned (pre ++ body)) b = body ++ [b] := hscan.shifted_scanned_block hbody
  have hmatch : windowMatch (s.scanned (pre ++ body)) b = some i := by
    rw [windowMatch, hwin]
    exact hm
  obtain ⟨t, hblock, hbit⟩ := (scanStepFollowsItsRule _ b hu.phase hfull hu.sync).2 i hmatch
  obtain ⟨hwin', hsync, -, -⟩ := blockRan_of_exec hblock
  rw [← List.append_assoc, List.dropLast_concat]
  refine ⟨_, { t with fill := 0 }, hrun, hu.sync, rfl, ?_, hsync, rfl, hwin'.trans hwin⟩
  rw [pseudoBits, List.map_append]
  refine (execSeq_append hrun).trans ?_
  rw [List.map_singleton, execSeq, hbit]
  rfl

end Sys2Proof.Machine
end

section
/-! PROOFS. The block decoder (42_block_decoder.md): the syndrome (R142), the outcome of the FEC step (R144) and what is
computed from the corrected word (R146, R147, R149), the events (R148), and recovery within the radius (R151). -/

namespace Sys2Proof.Machine

open Sys2Proof.Claim

variable {c : Cfg} {f : BlockFields} {e : BitSeq}

/-! ### The syndrome -/

/-- The syndrome is a `W_PAR`-bit word, since the generator has degree `W_PAR` (42_block_decoder.md R142). -/
theorem syn_lt (h : cfgWf c = true) (v : BitSeq) : syn c v < 2 ^ c.wPar := by
  obtain ⟨hg, hdeg⟩ := fecG_of_wf h
  rw [← hdeg]
  exact pmod_lt hg _

theorem val_replicate_false (n : Nat) : val (List.replicate n false) = 0 := by
  induction n with
  | zero => rfl
  | succ n ih => rw [List.replicate_succ, val_cons, ih]; simp

/-- A single 1 with `n` bits after it is the monomial `x^n` (00_scope.md R14). -/
theorem val_singleError (i n : Nat) : val (List.replicate i false ++ true :: List.replicate n false) = 2 ^ n := by
  rw [val_append, val_cons, val_replicate_false, val_replicate_false]
  simp

/-- Settles O44: the bound is that of a remainder, linearity is `syn_xorSeq`, and a single error is a monomial. -/
theorem syndromeIsLinear : Obligations.SyndromeIsLinear := by
  intro c h
  refine ⟨fun v => ⟨rfl, syn_lt h v⟩, fun u v hl => syn_xorSeq h hl, fun i _ => ?_⟩
  rw [syn, poly, val_singleError]

/-! ### The outcome -/

/-- The model's checksum test is the remainder of 42_block_decoder.md R146. -/
theorem crcOk_iff {r : BitSeq} : crcOk c r = true ↔ checksumRight c r := by
  simp [crcOk, checksumRight, slice, poly, Cfg.msgLen]

theorem blockValid_iff {o : FecOutcome} {crc : Bool} : blockValid o crc = true ↔ o ≠ .uncorrectable ∧ crc = true := by
  simp [blockValid]

/-- All else the decoder answers follows from the result of the FEC step (42_block_decoder.md R146, R147, R149). -/
theorem decodedAs_of_fecDecode {o : FecOutcome} {word : BitSeq} {n : Nat} (hfec : fecDecode c (codeword f) = ⟨o, word, n⟩)
    (role : Role) (suspect : Bool) : decodedAs c (blockDecode c role suspect f) o word n := by
  simp only [decodedAs, blockDecode, hfec, true_and]
  exact ⟨rfl, crcOk_iff, blockValid_iff.trans (and_congr_right fun _ => crcOk_iff), rfl, rfl, rfl⟩

theorem fecDecode_of_syn_eq_zero {r : BitSeq} (hs : syn c r = 0) : fecDecode c r = ⟨.none, r, 0⟩ :=
  if_pos hs

/-- A well-formed `Cfg` has no other pattern with the syndrome, and none of syndrome 0 (42_block_decoder.md R143, R144). -/
theorem fecDecode_of_inRadius (h : cfgWf c = true) {r : BitSeq} (he : inRadius c e) (hs : syn c r = syn c e) :
    fecDecode c r = ⟨.corrected, xorSeq r e, wt e⟩ := by
  have hmem : e ∈ errorPatterns c.codeLen c.fecT := mem_errorPatterns.mpr he
  rw [fecDecode, hs, if_neg (syn_ne_zero h hmem), corr_syn h hmem]

theorem fecDecode_of_no_pattern {r : BitSeq} (h0 : syn c r ≠ 0) (hno : ∀ e, inRadius c e → syn c r ≠ syn c e) :
    fecDecode c r = ⟨.uncorrectable, r, 0⟩ := by
  have hcorr : corr c (syn c r) = none :=
    corr_eq_none_iff.mpr fun e he => (hno e (mem_errorPatterns.mp he)).symm
  rw [fecDecode, if_neg h0, hcorr]

/-- Settles O46: the FEC step in each case of the syndrome, and what `decodedAs_of_fecDecode` computes from its result. -/
theorem decoderOutcomeFollowsSyndrome : Obligations.DecoderOutcomeFollowsSyndrome := by
  intro c role suspect f h _
  exact ⟨fun hs => decodedAs_of_fecDecode (fecDecode_of_syn_eq_zero hs) role suspect,
    fun e he hs => decodedAs_of_fecDecode (fecDecode_of_inRadius h he hs) role suspect,
    fun h0 hno => decodedAs_of_fecDecode (fecDecode_of_no_pattern h0 hno) role suspect⟩

/-! ### Recovery within the radius -/

/-- The syndrome of a codeword with errors is that of the errors alone (42_block_decoder.md R142). -/
theorem syn_xorSeq_of_codeword (h : cfgWf c = true) {sent : BitSeq} (hl : sent.length = e.length) (hsent : syn c sent = 0) :
    syn c (xorSeq sent e) = syn c e := by
  rw [syn_xorSeq h hl, hsent, Nat.zero_xor]

/-- A codeword with an error pattern within the radius is corrected to what was sent (42_block_decoder.md R151 (b)). -/
theorem fecDecode_xorSeq_of_inRadius (h : cfgWf c = true) {sent : BitSeq} (hlen : sent.length = c.codeLen)
    (hsent : syn c sent = 0) (he : inRadius c e) : fecDecode c (xorSeq sent e) = ⟨.corrected, sent, wt e⟩ := by
  have hl : sent.length = e.length := hlen.trans he.1.symm
  rw [fecDecode_of_inRadius h he (syn_xorSeq_of_codeword h hl hsent), xorSeq_cancel hl]

/-- Settles O48: the FEC step answers the word that was sent, whose checksum is right. -/
theorem errorsWithinRadiusAreCorrected : Obligations.ErrorsWithinRadiusAreCorrected := by
  intro c role suspect f sent h hlen hsent hcrc
  constructor
  · rintro rfl
    obtain ⟨hfec, -, hinfo, -, hvalid, -⟩ := decodedAs_of_fecDecode (fecDecode_of_syn_eq_zero hsent) role suspect
    exact ⟨hfec, hvalid.mpr ⟨nofun, hcrc⟩, hinfo⟩
  · intro e he hf
    have hword := fecDecode_xorSeq_of_inRadius h hlen hsent he
    rw [← hf] at hword
    obtain ⟨hfec, hflips, hinfo, hok, hvalid, -⟩ := decodedAs_of_fecDecode hword role suspect
    exact ⟨hfec, hflips, hinfo, hok.mpr hcrc, hvalid.mpr ⟨nofun, hcrc⟩⟩

/-! ### The events -/

/-- A count of at most 16 bits is its own event argument (44_service_output.md R195, R196). -/
theorem eventArg_of_lt {n : Nat} (h : n < 65536) : eventArg n = BitVec.ofNat 16 n := if_pos h

/-- Settles O47: the events of each outcome, with a right and with a wrong checksum. -/
theorem decoderEventsInOrder : Obligations.DecoderEventsInOrder := by
  intro d hn
  have harg := eventArg_of_lt hn
  cases hfec : d.fec with
  | none => cases hcrc : d.crcOk <;> simp [decoderEvents, mkEvent, hfec, hcrc]
  | corrected => cases hcrc : d.crcOk <;> simp [decoderEvents, mkEvent, hfec, hcrc, harg]
  | uncorrectable => simp [decoderEvents, mkEvent, hfec]

end Sys2Proof.Machine
end

section
/-! PROOFS. One block through the assembler (43_group_assembler.md): the searches over the slots in the words of the claims
(R161, R168), `tick` as the ageing of the slots (R170), and the action of each role (R162 to R167). -/

namespace Sys2Proof.Machine

open Sys2Proof.Claim

/-! ### The searches -/

theorem findSlot_eq_some_iff_found {slots : List Slot} {si gseq j : Nat} :
    findSlot slots si gseq = some j ↔ ∃ t, found slots si gseq j t := by
  rw [findSlot_eq_some_iff]
  constructor
  · rintro ⟨hj, ⟨ho, hsi, hgseq⟩, hlow⟩
    refine ⟨slots[j], List.getElem?_eq_getElem hj, ho, hsi, hgseq, fun i u hi hu => ?_⟩
    obtain ⟨_, rfl⟩ := List.getElem?_eq_some_iff.mp hu
    exact hlow i hi
  · rintro ⟨t, ht, ho, hsi, hgseq, hlow⟩
    obtain ⟨hj, rfl⟩ := List.getElem?_eq_some_iff.mp ht
    exact ⟨hj, ⟨ho, hsi, hgseq⟩, fun i hi => hlow i _ hi (List.getElem?_eq_getElem _)⟩

theorem freeSlot_eq_some_iff_lowestFree {slots : List Slot} {j : Nat} : freeSlot slots = some j ↔ lowestFree slots j := by
  rw [freeSlot_eq_some_iff]
  constructor
  · rintro ⟨hj, hfree, hlow⟩
    refine ⟨⟨slots[j], List.getElem?_eq_getElem hj, hfree⟩, fun i u hi hu => ?_⟩
    obtain ⟨_, rfl⟩ := List.getElem?_eq_some_iff.mp hu
    exact hlow i hi
  · rintro ⟨⟨t, ht, hfree⟩, hlow⟩
    obtain ⟨hj, rfl⟩ := List.getElem?_eq_some_iff.mp ht
    exact ⟨hj, hfree, fun i hi => hlow i _ hi (List.getElem?_eq_getElem _)⟩

theorem idle_le_greatestIdle {slots : List Slot} {u : Slot} (hu : u ∈ slots) : u.idle ≤ greatestIdle slots := by
  have hfold : greatestIdle slots = (slots.map Slot.idle).foldl max 0 := List.foldl_map.symm
  rw [hfold, List.foldl_eq_foldr]
  exact List.le_max_of_le' 0 (List.mem_map_of_mem hu) le_rfl

/-- With every slot OPEN, the slot `allocate` evicts is the lowest of the longest idle (43_group_assembler.md R168). -/
theorem victim_longestIdle {slots : List Slot} {t : Slot} (hopen : ∀ u ∈ slots, u.isOpen = true)
    (ht : slots[longestIdle slots]? = some t) : victim slots (longestIdle slots) t := by
  obtain ⟨hlt, rfl⟩ := List.getElem?_eq_some_iff.mp ht
  obtain ⟨heq, hlow⟩ := (List.findIdx_eq hlt).mp (rfl : longestIdle slots = longestIdle slots)
  have hmax : slots[longestIdle slots].idle = greatestIdle slots := beq_iff_eq.mp heq
  refine ⟨hopen, ht, fun u hu => hmax ▸ idle_le_greatestIdle hu, fun i u hi hu => ?_⟩
  obtain ⟨_, rfl⟩ := List.getElem?_eq_some_iff.mp hu
  have hne := beq_eq_false_iff_ne.mp (hlow i hi)
  have hle := idle_le_greatestIdle (List.mem_of_getElem? hu)
  omega

theorem longestIdle_of_victim {slots : List Slot} {j : Nat} {t : Slot} (h : victim slots j t) : longestIdle slots = j := by
  obtain ⟨-, hj, hmax, hlow⟩ := h
  exact longestIdle_eq hj hmax hlow

/-! ### Ageing, and a block from its action -/

/-- One turn of `tick` in the words of the claims (43_group_assembler.md R170). -/
theorem tickSlot_eq (timeout : Nat) (touched : Option Nat) (t : Slot) (j : Nat) :
    tickSlot timeout (touched == some j) t =
      (if touched = some j then t else aged timeout t,
        if t.isOpen = true ∧ touched ≠ some j ∧ timeout ≤ t.idle + 1 then [abandoned t 0] else []) := by
  rcases tickSlot_cases timeout (touched == some j) t with ⟨he, hc⟩ | ⟨ho, htouch, hle, he⟩ | ⟨ho, htouch, hlt, he⟩
  · rw [he]
    rcases hc with hfree | htouch
    · simp [hfree, aged]
    · simp [beq_iff_eq.mp htouch]
  · have hne := beq_eq_false_iff_ne.mp htouch
    simp [he, ho, hne, hle, aged, Slot.freed, abandonEvent, mkEvent, abandoned, AbandonReason.code]
  · have hne := beq_eq_false_iff_ne.mp htouch
    have hopened := (Slot.isOpen_iff t).mp ho
    simp [he, ho, hne, Nat.not_le.mpr hlt, aged, hopened]

/-- The state an action leaves: the items it outputs and the slots it writes (10_state.md R42). -/
def State.acted (s : State) (items : List Item) (slots : List Slot) : State :=
  { s with slots := slots, out := s.out ++ items }

theorem acted_emitAll (s : State) (events items : List Item) (slots : List Slot) :
    (s.emitAll events).acted items slots = s.acted (events ++ items) slots := by
  simp [State.acted, State.emitAll]

theorem tick_acted (s : State) (items : List Item) (slots : List Slot) (touched : Option Nat) :
    tick touched (s.acted items slots) = afterBlock s items slots touched := by
  simp only [tick, State.acted, afterBlock, timeouts, tickSlot_eq, List.map_map, List.flatMap_map]
  rfl

/-- A block instruction from its role's action: the decoder's events, the action, the ageing (43_group_assembler.md R160). -/
theorem exec_blockInstr_of_roleAction {s : State} {r : Role} {f : BlockFields} {d : DecodedBlock} {items : List Item}
    {slots : List Slot} {touched : Option Nat} (hd : d = blockDecode s.cfg r (decide (r = .none)) f)
    (hact : roleAction d (s.emitAll (decoderEvents d)) = ((s.emitAll (decoderEvents d)).acted items slots, touched)) :
    exec (blockInstr r f) s = .next (afterBlock s (decoderEvents d ++ items) slots touched) := by
  rw [exec_blockInstr, deliver, ← hd, assemble, hact, acted_emitAll]
  exact congrArg _ (tick_acted s _ slots touched)

/-! ### The parts of an action -/

section
variable {s : State} {d : DecodedBlock} {j : Nat} {t : Slot}

theorem dropBlock_eq_acted (d : DecodedBlock) (s : State) : dropBlock d s = s.acted [outOfSequence d] s.slots := rfl

theorem emitGroup_eq_acted (g : Group) (s : State) :
    emitGroup g s = s.acted (groupOut s g.si g.gseq g.degraded g.corrected g.blocks) s.slots := by
  rcases emitGroup_cases g s with ⟨hallow, he⟩ | ⟨hallow, he⟩
  · have hout : ¬(s.allowEn = true ∧ allowBit s g.si = false) := fun hc => by
      simp [allowed, hc.1, hc.2] at hallow
    rw [he, groupOut, if_neg hout]
    rfl
  · have hout : s.allowEn = true ∧ allowBit s g.si = false := by simpa [allowed] using hallow
    rw [he, groupOut, if_pos hout]
    simp [State.acted]

theorem abandonSlot_eq_acted (ht : s.slots[j]? = some t) (reason : AbandonReason) :
    abandonSlot j reason s = s.acted [abandoned t reason.code] (s.slots.set j { t with state := .free }) := by
  simp only [abandonSlot, ht]
  rfl

theorem abandonFound_of_noSlot (h : noSlot s.slots d.si d.gseq) (reason : AbandonReason) :
    abandonFound (findSlot s.slots d.si d.gseq) reason s = s := by
  rw [findSlot_eq_none_iff.mpr h]
  rfl

theorem abandonFound_of_found (h : found s.slots d.si d.gseq j t) (reason : AbandonReason) :
    abandonFound (findSlot s.slots d.si d.gseq) reason s =
      s.acted [abandoned t reason.code] (s.slots.set j { t with state := .free }) := by
  rw [findSlot_eq_some_iff_found.mpr ⟨t, h⟩]
  exact abandonSlot_eq_acted h.1 reason

theorem allocate_of_lowestFree (h : lowestFree s.slots j) : allocate s = (s, j) := by
  simp only [allocate, freeSlot_eq_some_iff_lowestFree.mpr h]

theorem allocate_of_victim (h : victim s.slots j t) :
    allocate s = (s.acted [abandoned t 2] (s.slots.set j { t with state := .free }), j) := by
  have hlongest := longestIdle_of_victim h
  obtain ⟨hopen, hj, -⟩ := h
  simp only [allocate, freeSlot_eq_none_iff.mpr hopen, hlongest, abandonSlot_eq_acted hj]
  rfl

theorem awaitingSlot_of_found (h : found s.slots d.si d.gseq j t) (hp : d.pos = t.nextPos) :
    awaitingSlot d s = some (j, t) := by
  simp only [awaitingSlot, findSlot_eq_some_iff_found.mpr ⟨t, h⟩, h.1, if_pos hp]

theorem awaitingSlot_of_noSlot_or_found
    (h : noSlot s.slots d.si d.gseq ∨ ∃ (j : Nat) (t : Slot), found s.slots d.si d.gseq j t ∧ d.pos ≠ t.nextPos) :
    awaitingSlot d s = none := by
  rw [awaitingSlot_none_iff]
  rcases h with hno | ⟨j, t, hfound, hp⟩
  · exact .inl (findSlot_eq_none_iff.mpr hno)
  · exact .inr ⟨j, t, findSlot_eq_some_iff_found.mpr ⟨t, hfound⟩, hfound.1, hp⟩

/-! ### The action of each role -/

theorem roleAction_first (hr : d.role = .first) : roleAction d s = doFirst d s := by simp [roleAction, hr]

theorem roleAction_cont (hr : d.role = .cont) : roleAction d s = doCont d s := by simp [roleAction, hr]

theorem roleAction_last (hr : d.role = .last) (hp : d.pos ≠ 0) : roleAction d s = doLast d s := by
  simp [roleAction, hr, hp]

theorem roleAction_single (hr : d.role = .last) (hp : d.pos = 0) : roleAction d s = doSingle d s := by
  simp [roleAction, hr, hp]

theorem roleAction_none (hr : d.role = .none) : roleAction d s = (s.acted [outOfSequence d] s.slots, none) := by
  simp [roleAction, hr, dropBlock_eq_acted]

theorem doFirst_of_pos_ne (hp : d.pos ≠ 0) : doFirst d s = (s.acted [outOfSequence d] s.slots, none) := if_neg hp

/-- A FIRST block opens the slot `allocate` gives (43_group_assembler.md R162). -/
theorem doFirst_of_allocate {u v : State} {k : Nat} (hp : d.pos = 0)
    (habandon : abandonFound (findSlot s.slots d.si d.gseq) .restart s = u) (halloc : allocate u = (v, k)) :
    doFirst d s = (v.setSlot k (freshSlot d), some k) := by
  rw [doFirst, if_pos hp, habandon, halloc]
  rfl

theorem doFirst_of_lowestFree (hp : d.pos = 0) (hno : noSlot s.slots d.si d.gseq) (hfree : lowestFree s.slots j) :
    doFirst d s = (s.acted [] (s.slots.set j (freshSlot d)), some j) := by
  rw [doFirst_of_allocate hp (abandonFound_of_noSlot hno _) (allocate_of_lowestFree hfree)]
  simp [State.acted, State.setSlot]

theorem doFirst_of_victim (hp : d.pos = 0) (hno : noSlot s.slots d.si d.gseq) (hvictim : victim s.slots j t) :
    doFirst d s = (s.acted [abandoned t 2] (s.slots.set j (freshSlot d)), some j) := by
  rw [doFirst_of_allocate hp (abandonFound_of_noSlot hno _) (allocate_of_victim hvictim)]
  simp [State.acted, State.setSlot]

theorem doFirst_of_found {k : Nat} (hp : d.pos = 0) (hfound : found s.slots d.si d.gseq j t)
    (hfree : lowestFree (s.slots.set j { t with state := .free }) k) :
    doFirst d s =
      (s.acted [abandoned t 1] ((s.slots.set j { t with state := .free }).set k (freshSlot d)), some k) :=
  doFirst_of_allocate hp (abandonFound_of_found hfound _) (allocate_of_lowestFree hfree)

theorem doCont_of_awaiting (h : awaitingSlot d s = some (j, t)) :
    doCont d s = (s.acted [] (s.slots.set j (appendedSlot t d)), some j) := by
  simp [doCont, h, State.acted, State.setSlot]

theorem doCont_of_not_awaiting (h : awaitingSlot d s = none) :
    doCont d s = (s.acted [outOfSequence d] s.slots, none) := by
  simp [doCont, h, dropBlock_eq_acted]

theorem doLast_of_awaiting (h : awaitingSlot d s = some (j, t)) :
    doLast d s =
      (s.acted
        (groupOut s d.si d.gseq (t.degraded || !d.valid) (t.corrected || (d.fec == .corrected)) (t.blocks ++ [d.info]))
        (s.slots.set j { t with state := .free }), none) := by
  simp only [doLast, h, emitGroup_eq_acted]
  rfl

theorem doLast_of_not_awaiting (h : awaitingSlot d s = none) :
    doLast d s = (s.acted [outOfSequence d] s.slots, none) := by
  simp [doLast, h, dropBlock_eq_acted]

theorem doSingle_of_noSlot (hno : noSlot s.slots d.si d.gseq) :
    doSingle d s = (s.acted (groupOut s d.si d.gseq (!d.valid) (d.fec == .corrected) [d.info]) s.slots, none) := by
  rw [doSingle, abandonFound_of_noSlot hno, emitGroup_eq_acted]
  rfl

theorem doSingle_of_found (hfound : found s.slots d.si d.gseq j t) :
    doSingle d s =
      (s.acted ([abandoned t 1] ++ groupOut s d.si d.gseq (!d.valid) (d.fec == .corrected) [d.info])
        (s.slots.set j { t with state := .free }), none) := by
  rw [doSingle, abandonFound_of_found hfound, emitGroup_eq_acted]
  simp only [State.acted, List.append_assoc]
  rfl

end

/-! ### The rules -/

/-- Settles O50: `doFirst` in each of its cases. -/
theorem firstBlockFollowsItsRule : Obligations.FirstBlockFollowsItsRule := by
  intro s f d hd
  have hrule {items slots touched}
      (h : doFirst d (s.emitAll (decoderEvents d)) = ((s.emitAll (decoderEvents d)).acted items slots, touched)) :
      exec (.blkFirst f) s = .next (afterBlock s (decoderEvents d ++ items) slots touched) :=
    exec_blockInstr_of_roleAction (r := .first) hd ((roleAction_first (by rw [hd]; rfl)).trans h)
  refine ⟨fun hp => ?_, fun j hp hno hfree => ?_, fun j t hp hno hvictim => ?_, fun j k t hp hfound hfree => ?_⟩
  · exact hrule (doFirst_of_pos_ne hp)
  · rw [hrule (doFirst_of_lowestFree hp hno hfree), List.append_nil]
    rfl
  · exact hrule (doFirst_of_victim hp hno hvictim)
  · exact hrule (doFirst_of_found hp hfound hfree)

/-- Settles O51: `doCont` with and without a slot that waits for the block. -/
theorem contBlockFollowsItsRule : Obligations.ContBlockFollowsItsRule := by
  intro s f d hd
  have hrule {items slots touched}
      (h : doCont d (s.emitAll (decoderEvents d)) = ((s.emitAll (decoderEvents d)).acted items slots, touched)) :
      exec (.blkCont f) s = .next (afterBlock s (decoderEvents d ++ items) slots touched) :=
    exec_blockInstr_of_roleAction (r := .cont) hd ((roleAction_cont (by rw [hd]; rfl)).trans h)
  refine ⟨fun j t hfound hp => ?_, fun hdrop => ?_⟩
  · rw [hrule (doCont_of_awaiting (awaitingSlot_of_found hfound hp)), List.append_nil]
    rfl
  · exact hrule (doCont_of_not_awaiting (awaitingSlot_of_noSlot_or_found hdrop))

/-- Settles O52: `doLast` with and without a slot that waits for the block. -/
theorem lastBlockFollowsItsRule : Obligations.LastBlockFollowsItsRule := by
  intro s f d hd hpos
  have hrule {items slots touched}
      (h : doLast d (s.emitAll (decoderEvents d)) = ((s.emitAll (decoderEvents d)).acted items slots, touched)) :
      exec (.blkLast f) s = .next (afterBlock s (decoderEvents d ++ items) slots touched) :=
    exec_blockInstr_of_roleAction (r := .last) hd
      ((roleAction_last (by rw [hd]; rfl) (Nat.ne_of_gt hpos)).trans h)
  refine ⟨fun j t hfound hp => ?_, fun hdrop => ?_⟩
  · exact hrule (doLast_of_awaiting (awaitingSlot_of_found hfound hp))
  · exact hrule (doLast_of_not_awaiting (awaitingSlot_of_noSlot_or_found hdrop))

/-- Settles O53: `doSingle` with and without an OPEN group of the block's key. -/
theorem lastAtPositionZeroIsSingleBlockGroup : Obligations.LastAtPositionZeroIsSingleBlockGroup := by
  intro s f d hd hpos
  have hrule {items slots touched}
      (h : doSingle d (s.emitAll (decoderEvents d)) = ((s.emitAll (decoderEvents d)).acted items slots, touched)) :
      exec (.blkLast f) s = .next (afterBlock s (decoderEvents d ++ items) slots touched) :=
    exec_blockInstr_of_roleAction (r := .last) hd ((roleAction_single (by rw [hd]; rfl) hpos).trans h)
  refine ⟨fun hno => ?_, fun j t hfound => ?_⟩
  · exact hrule (doSingle_of_noSlot hno)
  · rw [List.append_assoc]
    exact hrule (doSingle_of_found hfound)

/-- Settles O54: the action of role NONE is the drop. -/
theorem suspectBlockIsDropped : Obligations.SuspectBlockIsDropped :=
  fun _ _ d hd => exec_blockInstr_of_roleAction (r := .none) hd (roleAction_none (by rw [hd]; rfl))

end Sys2Proof.Machine
end

section
/-! PROOFS. A slot through blocks that leave it alone (43_group_assembler.md R170, R174): the action of such a block does not
write the slot, `tick` ages it, and a list of such blocks ages it once per block until it is abandoned. -/

namespace Sys2Proof.Machine

open Sys2Proof.Claim

/-! ### Actions that leave a slot alone -/

/-- The action wrote other slots only, and the block was not taken by slot `i`. -/
def LeftAlone (s : State) (i : Nat) (r : State × Option Nat) : Prop := r.1.slots[i]? = s.slots[i]? ∧ r.2 ≠ some i

section
variable {s : State} {d : DecodedBlock} {i j : Nat}

theorem dropBlock_leftAlone (d : DecodedBlock) (s : State) (i : Nat) : LeftAlone s i (dropBlock d s, none) :=
  ⟨rfl, nofun⟩

theorem emitGroup_slots (g : Group) (s : State) : (emitGroup g s).slots = s.slots := by
  rw [emitGroup_eq_acted]
  rfl

theorem abandonSlot_getElem?_ne (h : j ≠ i) (reason : AbandonReason) (s : State) :
    (abandonSlot j reason s).slots[i]? = s.slots[i]? := by
  unfold abandonSlot
  split
  · exact List.getElem?_set_ne h
  · rfl

theorem abandonFound_getElem?_ne {k : Option Nat} (h : k ≠ some i) (reason : AbandonReason) (s : State) :
    (abandonFound k reason s).slots[i]? = s.slots[i]? := by
  cases k with
  | none => rfl
  | some j => exact abandonSlot_getElem?_ne (fun hj => h (congrArg some hj)) reason s

theorem allocate_getElem?_ne (h : (allocate s).2 ≠ i) : (allocate s).1.slots[i]? = s.slots[i]? := by
  cases hfree : freeSlot s.slots with
  | some j => simp only [allocate, hfree]
  | none =>
    simp only [allocate, hfree] at h ⊢
    exact abandonSlot_getElem?_ne h _ s

/-- A slot `allocate` gives is the lowest FREE one or the one to evict (43_group_assembler.md R168). -/
theorem lowestFree_or_victim_of_allocate {b : Slot} (hb : s.slots[i]? = some b) (h : (allocate s).2 = i) :
    lowestFree s.slots i ∨ victim s.slots i b := by
  cases hfree : freeSlot s.slots with
  | some j =>
    simp only [allocate, hfree] at h
    exact .inl (freeSlot_eq_some_iff_lowestFree.mp (hfree.trans (congrArg some h)))
  | none =>
    simp only [allocate, hfree] at h
    subst h
    exact .inr (victim_longestIdle (freeSlot_eq_none_iff.mp hfree) hb)

theorem awaitingSlot_ne (h : ∀ t, found s.slots d.si d.gseq i t → d.pos ≠ t.nextPos) {t : Slot}
    (hw : awaitingSlot d s = some (j, t)) : j ≠ i := by
  obtain ⟨hfind, hj, -, -, -, hp⟩ := awaitingSlot_some hw
  rintro rfl
  obtain ⟨u, hu⟩ := findSlot_eq_some_iff_found.mp hfind
  obtain rfl : t = u := Option.some.inj (hj.symm.trans hu.1)
  exact h t hu hp

theorem doCont_leftAlone (h : ∀ t, found s.slots d.si d.gseq i t → d.pos ≠ t.nextPos) : LeftAlone s i (doCont d s) := by
  cases hw : awaitingSlot d s with
  | none =>
    rw [doCont_of_not_awaiting hw]
    exact dropBlock_leftAlone d s i
  | some jt =>
    have hne := awaitingSlot_ne h hw
    rw [doCont_of_awaiting hw]
    exact ⟨List.getElem?_set_ne hne, fun he => hne (Option.some.inj he)⟩

theorem doLast_leftAlone (h : ∀ t, found s.slots d.si d.gseq i t → d.pos ≠ t.nextPos) : LeftAlone s i (doLast d s) := by
  cases hw : awaitingSlot d s with
  | none =>
    rw [doLast_of_not_awaiting hw]
    exact dropBlock_leftAlone d s i
  | some jt =>
    rw [doLast_of_awaiting hw]
    exact ⟨List.getElem?_set_ne (awaitingSlot_ne h hw), nofun⟩

theorem findSlot_ne (h : ∀ t, ¬found s.slots d.si d.gseq i t) : findSlot s.slots d.si d.gseq ≠ some i := fun hfind => by
  obtain ⟨t, ht⟩ := findSlot_eq_some_iff_found.mp hfind
  exact h t ht

theorem doSingle_leftAlone (h : ∀ t, ¬found s.slots d.si d.gseq i t) : LeftAlone s i (doSingle d s) := by
  refine ⟨?_, nofun⟩
  rw [doSingle, emitGroup_slots]
  exact abandonFound_getElem?_ne (findSlot_ne h) _ s

/-- A FIRST block leaves slot `i` alone if it neither restarts its group nor is given the slot by `allocate`. -/
theorem doFirst_leftAlone {b : Slot} (hb : s.slots[i]? = some b)
    (h : d.pos = 0 →
      (noSlot s.slots d.si d.gseq → ¬lowestFree s.slots i ∧ ∀ t, ¬victim s.slots i t) ∧
      ∀ (j : Nat) (t : Slot), found s.slots d.si d.gseq j t →
        j ≠ i ∧ ¬lowestFree (s.slots.set j { t with state := .free }) i) :
    LeftAlone s i (doFirst d s) := by
  by_cases hp : d.pos = 0
  · obtain ⟨hnew, hrestart⟩ := h hp
    have hfind : findSlot s.slots d.si d.gseq ≠ some i := findSlot_ne fun t ht => (hrestart i t ht).1 rfl
    have hkeep := abandonFound_getElem?_ne hfind .restart s
    have halloc : (allocate (abandonFound (findSlot s.slots d.si d.gseq) .restart s)).2 ≠ i := by
      intro hi
      have hcases := lowestFree_or_victim_of_allocate (hkeep.trans hb) hi
      cases hf : findSlot s.slots d.si d.gseq with
      | none =>
        rw [hf] at hcases
        obtain ⟨hfree, hvictim⟩ := hnew (findSlot_eq_none_iff.mp hf)
        exact hcases.elim hfree (hvictim b)
      | some j =>
        obtain ⟨t, ht⟩ := findSlot_eq_some_iff_found.mp hf
        rw [abandonFound_of_found ht] at hcases
        refine hcases.elim (hrestart j t ht).2 fun hvictim => ?_
        have hj := List.mem_set (List.getElem?_eq_some_iff.mp ht.1).1 t.freed
        exact absurd (hvictim.1 _ hj) (by simp)
    rw [doFirst, if_pos hp]
    refine ⟨?_, fun he => halloc (Option.some.inj he)⟩
    exact (List.getElem?_set_ne halloc).trans ((allocate_getElem?_ne halloc).trans hkeep)
  · rw [doFirst_of_pos_ne hp]
    exact dropBlock_leftAlone d s i

end

/-- The claim's condition on a block is one under which its role's action leaves the slot alone. -/
theorem roleAction_leftAlone {s : State} {i : Nat} {b : Slot} {r : Role} {f : BlockFields} {d : DecodedBlock}
    (hd : d = blockDecode s.cfg r (decide (r = .none)) f) (hb : s.slots[i]? = some b) (h : leavesSlot s i r f)
    (events : List Item) : LeftAlone (s.emitAll events) i (roleAction d (s.emitAll events)) := by
  have hr : d.role = r := by rw [hd]; rfl
  unfold leavesSlot at h
  rw [← hd] at h
  cases r with
  | none =>
    rw [roleAction_none hr]
    exact dropBlock_leftAlone d _ i
  | first =>
    rw [roleAction_first hr]
    exact doFirst_leftAlone hb h
  | cont =>
    rw [roleAction_cont hr]
    exact doCont_leftAlone h
  | last =>
    by_cases hp : d.pos = 0
    · rw [roleAction_single hr hp]
      exact doSingle_leftAlone fun t ht => (h t ht).1 hp
    · rw [roleAction_last hr hp]
      exact doLast_leftAlone fun t ht => (h t ht).2

/-! ### One block -/

theorem aged_of_free {timeout : Nat} {t : Slot} (h : t.isOpen = false) : aged timeout t = t := by
  simp [aged, h]

theorem aged_isOpen_iff {timeout : Nat} {t : Slot} :
    (aged timeout t).isOpen = true ↔ t.isOpen = true ∧ t.idle + 1 < timeout := by
  cases ho : t.isOpen with
  | false => simp [aged, ho]
  | true =>
    rw [aged, if_pos ho]
    by_cases h : timeout ≤ t.idle + 1
    · simp [h, Slot.isOpen]
    · simp [h, Slot.isOpen, Nat.not_le.mp h]

theorem aged_of_isOpen {timeout : Nat} {t : Slot} (h : (aged timeout t).isOpen = true) :
    aged timeout t = { t with idle := t.idle + 1 } := by
  obtain ⟨ho, hlt⟩ := aged_isOpen_iff.mp h
  simp [aged, ho, Nat.not_le.mpr hlt, (Slot.isOpen_iff t).mp ho]

theorem abandoned_mem_timeouts {timeout : Nat} {touched : Option Nat} {slots : List Slot} {i : Nat} {t : Slot}
    (ht : slots[i]? = some t) (ho : t.isOpen = true) (htouched : touched ≠ some i) (hle : timeout ≤ t.idle + 1) :
    abandoned t 0 ∈ timeouts timeout touched slots :=
  List.mem_flatMap.mpr ⟨(t, i), List.mk_mem_zipIdx_iff_getElem?.mpr ht, by simp [ho, htouched, hle]⟩

/-- A block ends in `afterBlock` of what its role's action did (43_group_assembler.md R160). -/
theorem deliver_eq_afterBlock {s : State} {r : Role} {f : BlockFields} {d : DecodedBlock}
    (hd : d = blockDecode s.cfg r (decide (r = .none)) f) :
    ∃ items, deliver r (decide (r = .none)) f s =
      afterBlock s items (roleAction d (s.emitAll (decoderEvents d))).1.slots
        (roleAction d (s.emitAll (decoderEvents d))).2 := by
  obtain ⟨hframe, ⟨items, hout⟩, -⟩ := roleAction_pipe d (s.emitAll (decoderEvents d))
  rw [hout] at hframe
  have h := exec_blockInstr_of_roleAction (r := r) (f := f) hd (Prod.ext (hframe.trans rfl) rfl)
  rw [exec_blockInstr, Host.Outcome.next.injEq] at h
  exact ⟨_, h⟩

/-- A block that leaves slot `i` alone makes it older by one, and reports it if it times out (43_group_assembler.md R170). -/
theorem deliver_of_leavesSlot {s : State} {i : Nat} {b : Slot} {r : Role} {f : BlockFields}
    (hb : s.slots[i]? = some b) (h : leavesSlot s i r f) :
    (deliver r (decide (r = .none)) f s).slots[i]? = some (aged s.grpTimeout.toNat b) ∧
      (b.isOpen = true → s.grpTimeout.toNat ≤ b.idle + 1 →
        ∃ before after, (deliver r (decide (r = .none)) f s).out = s.out ++ before ++ [abandoned b 0] ++ after) := by
  obtain ⟨items, he⟩ := deliver_eq_afterBlock (s := s) (r := r) (f := f) rfl
  obtain ⟨hslot, htouched⟩ := roleAction_leftAlone rfl hb h (decoderEvents (blockDecode s.cfg r (decide (r = .none)) f))
  rw [State.emitAll_slots, hb] at hslot
  rw [he]
  refine ⟨by simp [afterBlock, hslot, htouched], fun ho hle => ?_⟩
  obtain ⟨pre, post, hmem⟩ := List.append_of_mem (abandoned_mem_timeouts hslot ho htouched hle)
  exact ⟨items ++ pre, post, by simp [afterBlock, hmem]⟩

/-! ### A list of blocks -/

/-- The state after a list of block instructions. -/
def State.afterBlocks (s : State) (blks : List (Role × BlockFields)) : State :=
  blks.foldl (fun u (r, f) => deliver r (decide (r = .none)) f u) s

theorem execSeq_blockInstrs (blks : List (Role × BlockFields)) (s : State) :
    execSeq (blockInstrs blks) s = .next (s.afterBlocks blks) := by
  induction blks generalizing s with
  | nil => rfl
  | cons p blks ih =>
    simp only [blockInstrs, List.map_cons, execSeq, exec_blockInstr]
    exact ih _

theorem afterBlocks_concat (s : State) (blks : List (Role × BlockFields)) (r : Role) (f : BlockFields) :
    s.afterBlocks (blks ++ [(r, f)]) = deliver r (decide (r = .none)) f (s.afterBlocks blks) := by
  simp [State.afterBlocks]

theorem afterBlocks_pipe (s : State) (blks : List (Role × BlockFields)) : PipeStep s (s.afterBlocks blks) := by
  induction blks using List.reverseRecOn with
  | nil => exact PipeStep.refl s
  | append_singleton blks p ih =>
    rw [afterBlocks_concat]
    exact ih.trans (deliver_pipe _ _ _ _)

theorem allLeaveSlot_concat {s : State} {i : Nat} {blks : List (Role × BlockFields)} {r : Role} {f : BlockFields}
    (h : allLeaveSlot s i (blks ++ [(r, f)])) : allLeaveSlot s i blks ∧ leavesSlot (s.afterBlocks blks) i r f := by
  refine ⟨fun pre post r' f' u hl hu => ?_, h blks [] r f _ rfl (execSeq_blockInstrs blks s)⟩
  exact h pre (post ++ [(r, f)]) r' f' u (by rw [hl]; simp) hu

/-- What `n` blocks that leave slot `i` alone have made of it: it held `a`, OPEN, in `s`, and it is that slot older by `n`
in `t`, or FREE and reported, from the block at which `idle` reached the timeout (43_group_assembler.md R170). -/
structure AgedThrough (s : State) (i : Nat) (a : Slot) (n : Nat) (t : State) (b : Slot) : Prop where
  here : t.slots[i]? = some b
  open_iff : b.isOpen = true ↔ a.idle + n < s.grpTimeout.toNat
  open_eq : b.isOpen = true → b = { a with idle := a.idle + n }
  reported : b.isOpen = false → ∃ before after, t.out = s.out ++ before ++ [abandoned a 0] ++ after

/-- One more block that leaves the slot alone makes it older by one. -/
theorem AgedThrough.deliver {s t : State} {i n : Nat} {a b : Slot} {r : Role} {f : BlockFields}
    (h : AgedThrough s i a n t b) (hpipe : PipeStep s t) (hleave : leavesSlot t i r f) :
    AgedThrough s i a (n + 1) (Machine.deliver r (decide (r = .none)) f t) (aged s.grpTimeout.toNat b) := by
  obtain ⟨hslot, hevent⟩ := deliver_of_leavesSlot h.here hleave
  obtain ⟨-, ⟨items, hout⟩, -⟩ := deliver_pipe r (decide (r = .none)) f t
  rw [show t.grpTimeout = s.grpTimeout by rw [hpipe.frame]] at hslot hevent
  cases ho : b.isOpen with
  | false =>
    have hold : ¬(a.idle + n < s.grpTimeout.toNat) := fun hlt => by simp [h.open_iff.mpr hlt] at ho
    obtain ⟨before, after, hrep⟩ := h.reported ho
    rw [aged_of_free ho] at hslot ⊢
    exact ⟨hslot, by simp [ho]; omega, by simp [ho], fun _ => ⟨before, after ++ items, by simp [hout, hrep]⟩⟩
  | true =>
    have hb := h.open_eq ho
    have hidle : b.idle = a.idle + n := by rw [hb]
    obtain ⟨pre, hpre⟩ := hpipe.grows
    refine ⟨hslot, by rw [aged_isOpen_iff]; simp [ho, hidle, Nat.add_assoc], fun hopen => ?_, fun hfree => ?_⟩
    · rw [aged_of_isOpen hopen, hb]
      rfl
    · have hle : s.grpTimeout.toNat ≤ b.idle + 1 := by
        by_contra hlt
        simp [aged_isOpen_iff.mpr ⟨ho, Nat.not_le.mp hlt⟩] at hfree
      obtain ⟨before, after, hrep⟩ := hevent ho hle
      exact ⟨pre ++ before, after, by rw [hrep, hpre, hb]; simp [abandoned]⟩

/-- Through a list of blocks that leave slot `i` alone it only ages (43_group_assembler.md R170). -/
theorem afterBlocks_agedThrough {s : State} {i : Nat} {a : Slot} (h : s.Inv) (ha : s.slots[i]? = some a)
    (ho : a.isOpen = true) {blks : List (Role × BlockFields)} (hleave : allLeaveSlot s i blks) :
    ∃ b, AgedThrough s i a blks.length (s.afterBlocks blks) b := by
  induction blks using List.reverseRecOn with
  | nil =>
    have hidle := (h.slot_ok a (List.mem_of_getElem? ha) ho).idle_lt
    exact ⟨a, ha, iff_of_true ho hidle, fun _ => rfl, fun hfree => by simp [ho] at hfree⟩
  | append_singleton blks p ih =>
    obtain ⟨hinit, hlast⟩ := allLeaveSlot_concat hleave
    obtain ⟨b, hb⟩ := ih hinit
    rw [afterBlocks_concat, List.length_append]
    exact ⟨_, hb.deliver (afterBlocks_pipe s blks) hlast⟩

/-- Settles O59: one block ages the slot by one, and the list is taken apart at its last block. -/
theorem slotAgesThroughBlocksItDoesNotTake : Obligations.SlotAgesThroughBlocksItDoesNotTake := by
  intro s blks i a h ha ho hleave
  obtain ⟨b, hb⟩ := afterBlocks_agedThrough h ha ho hleave
  exact ⟨_, b, execSeq_blockInstrs blks s, hb.here, hb.open_iff, hb.open_eq, hb.reported⟩

theorem blockInstrs_suspects (fs : List BlockFields) : blockInstrs (fs.map (Prod.mk Role.none)) = fs.map .blkNone := by
  simp [blockInstrs, blockInstr]

/-- No slot takes a sync-suspect block (43_group_assembler.md R166). -/
theorem allLeaveSlot_suspects (s : State) (i : Nat) (fs : List BlockFields) :
    allLeaveSlot s i (fs.map (Prod.mk Role.none)) := by
  intro pre post r f u hl _
  have hmem : (r, f) ∈ fs.map (Prod.mk Role.none) := by simp only [hl, List.mem_append, List.mem_cons, true_or, or_true]
  obtain ⟨_, -, hr⟩ := List.mem_map.mp hmem
  cases hr
  trivial

/-- Settles O56: sync-suspect blocks leave every slot alone. -/
theorem slotsTimeOutByBlockCount : Obligations.SlotsTimeOutByBlockCount := by
  intro s fs h
  refine ⟨_, blockInstrs_suspects fs ▸ execSeq_blockInstrs _ s, fun i a ha ho => ?_⟩
  obtain ⟨b, hb⟩ := afterBlocks_agedThrough h ha ho (allLeaveSlot_suspects s i fs)
  rw [List.length_map] at hb
  exact ⟨b, hb.here, hb.open_iff, hb.open_eq⟩

end Sys2Proof.Machine
end

section
/-! PROOFS. The output log (44_service_output.md): the arguments of an event. -/

namespace Sys2Proof.Machine

/-- Settles O33: a count that fits is cut to 16 bits by `eventArg`, which loses nothing of it. -/
theorem eventArgumentIsTheNumber : Obligations.EventArgumentIsTheNumber := by
  intro n hn
  calc (eventArg n).toNat
    _ = (BitVec.ofNat 16 n).toNat := by rw [eventArg_of_lt hn]
    _ = n % 2 ^ 16 := BitVec.toNat_ofNat n 16
    _ = n := Nat.mod_eq_of_lt hn

end Sys2Proof.Machine
end

section
/-! PROOFS. How a step leaves FAULT and how it enters it (60_exceptions.md R206, R215). -/

namespace Sys2Proof.Machine

open Sys2Proof.Claim

/-- With no word pending the device waits (log 2), so a step that changes the phase took a word. -/
theorem exists_port_of_phase_ne {s t : State} (h : step s = .next t) (hp : t.phase ≠ s.phase) :
    ∃ w rest, s.port = w :: rest := by
  rcases step_cases h with ⟨-, rfl⟩ | ⟨w, rest, hport, -⟩
  · exact absurd rfl hp
  · exact ⟨w, rest, hport⟩

/-- Settles O11: of the words FAULT does not ignore (R216), NOP and RDREG keep the phase. -/
theorem onlyResetLeavesFault : Obligations.OnlyResetLeavesFault := by
  intro s t hp h ht
  obtain ⟨w, rest, hport⟩ := exists_port_of_phase_ne h (hp.symm ▸ ht)
  have hstep := faultPhaseIgnoresOtherWords s w rest hport hp
  rw [h] at hstep
  injection hstep with heq
  split at heq
  case h_1 hd => exact ⟨w, rest, hport, hd, heq⟩
  case h_2 =>
    split at heq <;> exact absurd (heq ▸ hp) ht
  case h_3 => exact absurd (heq ▸ hp) ht

/-- Settles O12: outside FAULT a word that passes every check of R211 does not enter it, and a word that fails one makes
the fault its whole effect. -/
theorem faultEntryIsPrecise : Obligations.FaultEntryIsPrecise := by
  intro s t hp h ht
  obtain ⟨w, rest, hport⟩ := exists_port_of_phase_ne h (ht ▸ hp.symm)
  obtain ⟨-, hfails, hpasses⟩ := firstFailingCheckDecidesFault s w rest hport
  cases hfault : faultOf s w with
  | none =>
    obtain ⟨u, hu, hne⟩ := hpasses hp hfault
    cases h.symm.trans hu
    exact absurd ht hne
  | some c =>
    cases h.symm.trans (hfails c hp hfault)
    exact ⟨c, w, rest, hport, rfl⟩

end Sys2Proof.Machine
end

section
/-! PROOFS. Every step answers (70_reset_and_hazards.md R236), and START straight after reset (R232). -/

namespace Sys2Proof.Machine

/-- Settles O8: a step waits, takes an illegal word, or executes a decoded one, whose `effect` is the next state. -/
theorem everyStepCompletes : Obligations.EveryStepCompletes := by
  intro s
  cases hport : s.port with
  | nil => exact ⟨s, step_nil hport⟩
  | cons w rest =>
    cases hd : decodeCommand w with
    | error e => exact ⟨_, step_error hport hd⟩
    | ok i => exact ⟨effect i { s with port := rest }, (step_ok hport hd).trans (exec_eq_effect i _)⟩

/-- The reset values of `MISS_TOL` and `GRP_TIMEOUT` pass `start_ok()` (40_commands.md R110). -/
theorem startOk_resetWith {c : Cfg} (h : cfgWf c = true) : startOk (State.resetWith c) = true := by
  have hmiss : 1 ≤ (State.resetWith c).missTol.toNat := show 1 ≤ (3 : Reg16).toNat by decide
  have hgrp : 1 ≤ (State.resetWith c).grpTimeout.toNat := show 1 ≤ (16 : Reg16).toNat by decide
  exact (startOk_iff _).mpr ⟨h, hmiss, hgrp⟩

/-- Settles O22: the reset state is in CONFIG and passes `start_ok()`. -/
theorem startAfterResetSucceeds : Obligations.StartAfterResetSucceeds :=
  fun _ hwf => exec_start_of_startOk rfl (startOk_resetWith hwf)

end Sys2Proof.Machine
end

section
/-! PROOFS. The step with no pending word (log 2). -/

namespace Sys2Proof.Machine

/-- Settles O7: `fetchWord` finds no word in an empty port, and the step waits. -/
theorem stepWithNoPendingWordWaits : Obligations.StepWithNoPendingWordWaits :=
  fun _ hport => step_nil hport

end Sys2Proof.Machine
end
